-- ==== Sys2Proof/Word.lean ====
section
/-!
DEFINITION. The word types of the block (spec/00_scope.md R9, R10): every value is an unsigned bit vector, no operation
is signed.
-/

namespace Sys2Proof

/-- A byte of the wire or of the host buffer; a slave address; a function code. -/
abbrev Byte := BitVec 8

/-- A 16-bit register address, value, count, CRC or timeout. -/
abbrev Half := BitVec 16

/-- A 32-bit raw field, and the width of `RESULT`. -/
abbrev Word := BitVec 32

/-- A count of milliseconds of the 64-bit clock (R8 `CLOCK_WIDTH`). -/
abbrev Time := BitVec 64

/-- A command word of the host port (spec/30_encoding.md R70). -/
abbrev CommandWord := BitVec 64

end Sys2Proof
end

