-- ==== Sys2Proof/Config.lean ====
section
/-!
DEFINITION. What an implementation fixes: the parameters of spec/00_scope.md R8, the OPEN parameters among them as
constants without a body, and the free answers of the environment (the Transport and the clock), also without a body.
Nothing in Lean can evaluate a constant without a body or prove a value of it.
-/

namespace Sys2Proof

/-- What `TxWrite` returns (spec/42_receive.md R141). -/
inductive TxAnswer where
  /-- `TxOk(n)`: the Transport took the frame and says it wrote `n` bytes. -/
  | ok (n : Nat)
  /-- `TxErr`: the write primitive failed. -/
  | err
  deriving DecidableEq, Repr, Inhabited

/-- What `RxRead` returns (spec/42_receive.md R142). -/
inductive RxAnswer where
  /-- `Byte(b)`: one byte arrived, and is consumed. -/
  | byte (b : Byte)
  /-- `None`: no byte before the deadline. -/
  | nothing
  /-- `RxErr`: the read primitive failed. -/
  | err
  deriving DecidableEq, Repr, Inhabited

namespace Config

/-- R8 `DEFAULT_ADDR`: the factory default slave address. -/
def defaultAddr : Byte := 0xF8
/-- R8 `ADDR_MIN`. -/
def addrMin : Byte := 0x01
/-- R8 `ADDR_MAX`. -/
def addrMax : Byte := 0xF7
/-- R8 `UPDATE_INTERVAL_MS`. -/
def updateIntervalMs : Time := 200
/-- R8 `RX_TIMEOUT_MS`. -/
def rxTimeoutMs : Half := 100
/-- R8 `ALARM_MAX`, in watts. -/
def alarmMax : Half := 25000
/-- R8 `BULK_START_REG`. -/
def bulkStartReg : Half := 0x0000
/-- R8 `BULK_COUNT`. -/
def bulkCount : Half := 10
/-- R8 `BULK_RESP_LEN`. -/
def bulkRespLen : Nat := 25
/-- R8 `FRAME8_LEN`. -/
def frame8Len : Nat := 8
/-- R8 `FRAME4_LEN`. -/
def frame4Len : Nat := 4
/-- The length RESET_ENERGY expects of its reply (spec/43_dispatcher.md R166, decision D11). -/
def resetReplyLen : Nat := 5
/-- R8 `CRC_INIT`. -/
def crcInit : Half := 0xFFFF
/-- R8 `CRC_POLY_REFLECTED`. -/
def crcPoly : Half := 0xA001
/-- R8 `FC_READ_HOLDING`. -/
def fcReadHolding : Byte := 0x03
/-- R8 `FC_READ_INPUT`. -/
def fcReadInput : Byte := 0x04
/-- R8 `FC_WRITE_SINGLE`. -/
def fcWriteSingle : Byte := 0x06
/-- R8 `FC_CALIBRATE`: the block never emits it by itself (spec/30_encoding.md R82). -/
def fcCalibrate : Byte := 0x41
/-- R8 `FC_RESET_ENERGY`. -/
def fcResetEnergy : Byte := 0x42
/-- R8 `HBUF_DEPTH`. -/
def hbufDepth : Nat := 32
/-- R8 `RX_DEPTH`. -/
def rxDepth : Nat := 32

/-- R8 `INIT_ADDR`, an OPEN parameter: the address the platform supplies at startup (log entry 10). -/
opaque initAddr : Byte

/-- R8 `ADDR_REG`, an OPEN parameter: the device register of the slave address (log entry 10). -/
opaque addrReg : Half

/-- R8 `ALARM_THR_REG`, an OPEN parameter: the device register of the alarm threshold (log entry 10). -/
opaque alarmThrReg : Half

/-- The `n`-th free clock draw: what `Now()` is offered when no scripted sample is left (log entry 1). -/
opaque freeClock : Nat → Time

/-- The `n`-th free answer of `TxWrite` (log entry 1). -/
opaque freeTx : Nat → TxAnswer

/-- The `n`-th free answer of `RxRead` (log entry 1). -/
opaque freeRx : Nat → RxAnswer

end Config
end Sys2Proof
end

