-- ==== Sys2Proof/Machine/Operands.lean ====
section
/-!
DEFINITION. Operand forms: what the commands do with the fields of the command word before anything else
(spec/30_encoding.md R72, R77, R84; spec/43_dispatcher.md R161, R164, R165; spec/70_reset_and_hazards.md R253).
-/

namespace Sys2Proof.Machine

/-- R161, R164: `0x01 <= a <= 0xF7`, an address the host may supply. -/
def isHostAddr (a : Byte) : Bool := decide (Config.addrMin ≤ a ∧ a ≤ Config.addrMax)

/-- R27: `0x01 <= a <= 0xF8`, an address the session may hold. -/
def isSessionAddr (a : Byte) : Bool := decide (Config.addrMin ≤ a ∧ a ≤ Config.defaultAddr)

/-- R253: the startup address, the default where the supplied one is outside `0x01..0xF8`. -/
def sanitize (a : Byte) : Byte := if isSessionAddr a then a else Config.defaultAddr

/-- R161: the target of SEND_READ, the override where it is present and valid, else the session's address. -/
def resolveAddr (override : Bool) (addr sessAddr : Byte) : Byte :=
  if override && isHostAddr addr then addr else sessAddr

/-- R165: `min(C, ALARM_MAX)`, unsigned. -/
def clampAlarm (watts : Half) : Half := if watts ≤ Config.alarmMax then watts else Config.alarmMax

/-- R77: whether a length operand keeps its bound. -/
def lengthOk (len : Half) (depth : Nat) : Bool := decide (len.toNat ≤ depth)

/-- R84: bits [15:8]. -/
def highByte (h : Half) : Byte := h.extractLsb' 8 8

/-- R84: bits [7:0]. -/
def lowByte (h : Half) : Byte := h.extractLsb' 0 8

end Sys2Proof.Machine
end

