-- ==== Sys2Proof/Machine/State.lean ====
section
/-!
DEFINITION. The state of the machine, as plain data (spec/10_state.md), the reasons a step can stop, and the state after
reset (spec/70_reset_and_hazards.md R251).
-/

namespace Sys2Proof.Machine

/-- The completion codes of spec/60_exceptions.md R221. No other value is ever written to `STATUS` (R23). -/
inductive Status where
  | ok
  | rangeError
  | transportError
  | rxFail
  | verifyError
  | replyRejected
  | illegalCommand
  deriving DecidableEq, Repr

/-- The seven raw fields of a measurement (spec/10_state.md R30, R32; spec/44_cache_decoder.md R190), all unsigned. -/
structure Fields where
  v : Half
  i : Word
  p : Word
  e : Word
  f : Half
  pf : Half
  alm : Half
  deriving DecidableEq, Repr

/-- Bytes by index, strictly rising; an index that is not listed has no value (log entry 4). -/
abbrev Memory := List Host.Cell

/-- One event of the totally ordered history (spec/20_memory.md R62; spec/42_receive.md R141, R142, R144). -/
inductive Event where
  /-- `TxWrite(bytes)`, with what it returned. -/
  | txWrite (bytes : List Byte) (answer : TxAnswer)
  /-- `RxRead(ms)`, with what it returned. -/
  | rxRead (ms : Time) (answer : RxAnswer)
  /-- `Now()`, with the sample. -/
  | now (t : Time)
  deriving DecidableEq, Repr

/-- The write of one of the seven measurement registers of a group, `SNAP_*` or `DEC_*` (spec/10_state.md R30, R32). -/
inductive FieldWrite where
  | v (x : Half)
  | i (x : Word)
  | p (x : Word)
  | e (x : Word)
  | f (x : Half)
  | pf (x : Half)
  | alm (x : Half)
  deriving DecidableEq, Repr

/-- A register write of a command, `R <- v`, or its write of the host buffer (spec/00_scope.md R11). -/
inductive Write where
  | result (x : Word)
  | resultValid (x : Bool)
  | hlen (x : Byte)
  /-- `MemWrite(0, len(bytes), bytes)`. -/
  | hbuf (bytes : List Byte)
  | sessAddr (x : Byte)
  | snap (w : FieldWrite)
  | lastReadMs (x : Time)
  /-- `HAS_SNAP <- 1`. -/
  | hasSnap
  | dec (w : FieldWrite)
  deriving DecidableEq, Repr

/-- The registers of a group that have been staged, each with its value; `none` where it has not. -/
structure StagedFields where
  v : Option Half := none
  i : Option Word := none
  p : Option Word := none
  e : Option Word := none
  f : Option Half := none
  pf : Option Half := none
  alm : Option Half := none
  deriving DecidableEq, Repr

/-- The writes a command has staged, which take effect together at its `finish` (spec/20_memory.md R59,
spec/60_exceptions.md R222, decision D36). A register the command has not written has `none`. -/
structure Commit where
  status : Status
  result : Option Word := none
  resultValid : Option Bool := none
  hlen : Option Byte := none
  /-- The bytes written to `HBUF[0..len)`; the empty list writes none. -/
  hbuf : List Byte := []
  sessAddr : Option Byte := none
  snap : StagedFields := {}
  lastReadMs : Option Time := none
  /-- Whether `HAS_SNAP <- 1` has been staged. -/
  hasSnap : Bool := false
  dec : StagedFields := {}
  deriving DecidableEq, Repr

/-- The primitive of the pseudocode that is the engine's next micro-step (spec/00_scope.md R11, spec/10_state.md R40),
with the local values it needs. -/
inductive Primitive where
  /-- `s <- MemRead(...)`. -/
  | memRead
  /-- `crc16(s)`, `validate(s)` or `decode(s)` of the bytes read from the host buffer. -/
  | compute (bytes : List Byte)
  /-- `encode8(...)` or `encode4(...)`. -/
  | encode
  /-- `TXBUF <- frame`. -/
  | loadTx (frame : List Byte)
  /-- `TxWrite(frame)`. -/
  | txWrite (frame : List Byte)
  /-- `RXCNT <- 0`. -/
  | clearCount
  /-- The `Now()` whose sample becomes `RX_START`. -/
  | sampleStart
  /-- `RX_START <- t`. -/
  | setStart (t : Time)
  /-- The `Now()` of the deadline test. -/
  | sampleLoop
  /-- `RxRead(ms)`. -/
  | rxRead (ms : Time)
  /-- `RXBUF[RXCNT] <- b`. -/
  | rxStore (b : Byte)
  /-- `RXCNT <- RXCNT + 1`, where `RXBUF[RXCNT]` holds `b` (log entry 13). -/
  | rxCount (b : Byte)
  /-- `validate(RXBUF[0 .. RXCNT))`. -/
  | check
  /-- `t0 <- Now()`. -/
  | sampleBefore
  /-- `d <- decode(RXBUF[0 .. 25))`. -/
  | decodeReply
  /-- `t1 <- Now()`. -/
  | sampleAfter (d : Fields)
  /-- The first of the writes still to be staged; `finish` where there is none. The record holds the code and the writes
  staged so far. -/
  | ending (todo : List Write) (c : Commit)
  deriving DecidableEq, Repr

/-- The position of the engine in the pseudocode of the command in progress (spec/10_state.md R37). -/
inductive Phase where
  /-- Issued; no micro-step has been made. -/
  | start
  /-- The given primitive is next. -/
  | next (p : Primitive)
  deriving DecidableEq, Repr

/-- The command latch and the phase (spec/10_state.md R37). -/
structure Command where
  word : CommandWord
  phase : Phase
  deriving DecidableEq, Repr

/-- The four actions of the host port (spec/30_encoding.md R89). -/
inductive HostAction where
  | issue (w : CommandWord)
  | readReg (n : Byte)
  | writeBuf (i : Nat) (b : Byte)
  | readBuf (i : Nat)
  deriving DecidableEq, Repr

/-- What happens next at the block's inputs (log entry 8). -/
inductive Input where
  /-- The host acts at its port. -/
  | host (a : HostAction)
  /-- The platform asserts `RESET` (spec/70_reset_and_hazards.md R250, R252). -/
  | reset
  /-- The engine makes one micro-step. -/
  | tick
  /-- The host waits until the command in progress has finished (R261). -/
  | wait
  deriving DecidableEq, Repr

/-- The environment: what the Transport, the clock, the host and the platform do next and what has happened. None of it
is the block's own state (spec/10_state.md R41); no command and no reset writes it but by drawing answers. -/
structure Env where
  /-- The samples the clock offers next, oldest first. -/
  clock : List Time
  /-- The answers `TxWrite` gives next, oldest first. -/
  tx : List TxAnswer
  /-- The answers `RxRead` gives next, oldest first. -/
  rx : List RxAnswer
  /-- How many answers have been drawn so far: the number of the next free value. -/
  draws : Nat
  /-- The largest clock sample so far (spec/42_receive.md R144). -/
  lastNow : Time
  /-- The event history, oldest first (spec/20_memory.md R62). -/
  history : List Event
  /-- What happens next at the block's inputs, oldest first. -/
  inputs : List Input
  /-- What the last host read returned, zero-extended to 64 bits. -/
  hostData : Option (BitVec 64)
  deriving DecidableEq, Repr

/-- The machine (spec/10_state.md). -/
structure State where
  /-- `STATUS` (R23). -/
  status : Status
  /-- `FLAGS` bit 1, `RESULT_VALID` (R24). -/
  resultValid : Bool
  /-- `FLAGS` bit 2, `HAS_SNAP` (R24, R29). -/
  hasSnap : Bool
  /-- `RESULT` (R25). -/
  result : Word
  /-- `HLEN` (R26). -/
  hlen : Byte
  /-- `SESS_ADDR` (R27). -/
  sessAddr : Byte
  /-- `LAST_READ_MS` (R28). -/
  lastReadMs : Time
  /-- `SNAP_V` to `SNAP_ALM` (R30). -/
  snap : Fields
  /-- `DEC_V` to `DEC_ALM` (R32). -/
  dec : Fields
  /-- Whether a DECODE has written `DEC_*` since reset (R22; log entry 3). -/
  decWritten : Bool
  /-- `HBUF` (R33). -/
  hbuf : Memory
  /-- `RXBUF[0..RXCNT)`; its length is `RXCNT` (R34; log entry 5). -/
  rxbuf : List Byte
  /-- `TXBUF`; the empty list while no frame has been built (R35; log entry 5). -/
  txbuf : List Byte
  /-- `RX_START` (R37). -/
  rxStart : Time
  /-- The command latch and phase; occupied exactly while `BUSY = 1` (R24, R37; log entry 6). -/
  latch : Option Command
  /-- The environment (R40, R41). -/
  env : Env
  deriving DecidableEq, Repr

/-- Why the machine stops with a fault. -/
inductive Fault where
  /-- `UnwrittenRead` (spec/60_exceptions.md R226): raised by CRC16, VALIDATE, DECODE and the host's buffer read at an
  `HBUF` byte nothing has written, and by a host read of `SNAP_*` while `HAS_SNAP = 0` or of `DEC_*` before the first
  DECODE. Safe: the hardware goes on with an unspecified value, the model stops, as the spec says. -/
  | unwrittenRead
  deriving DecidableEq, Repr

/-- What a host did that the port's protocol forbids (spec/60_exceptions.md R226). -/
inductive Violation where
  /-- A command issued while `BUSY = 1`. -/
  | issueWhileBusy
  /-- An access to `HBUF` while `BUSY = 1`. -/
  | bufferWhileBusy
  /-- An access to `HBUF` at an index over 31. -/
  | bufferIndex
  /-- A read of a reserved register number. -/
  | reservedRegister
  deriving DecidableEq, Repr

/-- Why the machine gives an action no meaning. -/
inductive Refusal where
  /-- An instruction without a meaning; raised by no arm of `exec`. Safe. -/
  | notModelled (mnemonic : String)
  /-- `HostProtocol` (spec/60_exceptions.md R226): raised by host actions only, never by a command. Safe: the spec gives
  the action no meaning either. -/
  | hostProtocol (v : Violation)
  deriving DecidableEq, Repr

/-- Raw fields that are all 0, the value `SNAP_*` and `DEC_*` hold at reset (DESIGN CHOICE, log entry 3). -/
def Fields.zero : Fields := ⟨0, 0, 0, 0, 0, 0, 0⟩

/-- The environment before anything has happened, with nothing scripted: every answer is a free value (log entry 1). -/
def Env.initial : Env :=
  { clock := [], tx := [], rx := [], draws := 0, lastNow := 0, history := [], inputs := [], hostData := none }

/-- The block right after reset (spec/10_state.md R22, spec/70_reset_and_hazards.md R251), in an environment in which
nothing has happened yet. -/
def State.reset : State :=
  { status := .ok, resultValid := false, hasSnap := false, result := 0, hlen := 0
    sessAddr := sanitize Config.initAddr, lastReadMs := 0, snap := .zero, dec := .zero, decWritten := false
    hbuf := [], rxbuf := [], txbuf := [], rxStart := 0, latch := none, env := .initial }

end Sys2Proof.Machine
end

