-- ==== Sys2Proof/Machine/Ops.lean ====
section
/-!
DEFINITION. The named operations over the state: the host buffer (spec/20_memory.md R52), the three primitives that reach
the environment (spec/42_receive.md R141, R142, R144), the hidden buffers (spec/10_state.md R34, R35), the completion of
a command, which is the block's only way to report an error (spec/60_exceptions.md R220, R222, R227: there is no trap
entry and no return), and the reset input (spec/70_reset_and_hazards.md R250 to R252).
-/

namespace Sys2Proof.Machine

/-! ## Bytes by index -/

/-- The byte at index `k`, `none` where nothing has been written. -/
def Memory.read : Memory → Nat → Option Byte
  | [], _ => none
  | (a, b) :: m, k => if k = a then some b else Memory.read m k

/-- `HBUF[k] <- b`. -/
def Memory.write : Memory → Nat → Byte → Memory
  | [], k, b => [(k, b)]
  | (a, c) :: m, k, b =>
    if k < a then (k, b) :: (a, c) :: m
    else if k = a then (k, b) :: m
    else (a, c) :: Memory.write m k b

/-- `MemRead(i, n)` (R52); `none` where one of the bytes has never been written. -/
def Memory.readBytes (m : Memory) : Nat → Nat → Option (List Byte)
  | _, 0 => some []
  | i, n + 1 =>
    match m.read i, Memory.readBytes m (i + 1) n with
    | some b, some bs => some (b :: bs)
    | _, _ => none

/-- `MemWrite(i, n, s)` (R52), with `n = len(s)`. -/
def Memory.writeBytes : Memory → Nat → List Byte → Memory
  | m, _, [] => m
  | m, i, b :: bs => Memory.writeBytes (m.write i b) (i + 1) bs

/-- The canonical form: indices strictly rising. Every listed entry differs from what an unlisted index reads as, which
is no value. -/
abbrev Memory.wf (m : Memory) : Prop := m.Pairwise (fun x y => x.1 < y.1)

/-! ## The environment -/

/-- What the clock offers: the next scripted sample, else a free value. -/
def Env.clockDraw (e : Env) : Time :=
  match e.clock with
  | t :: _ => t
  | [] => Config.freeClock e.draws

/-- The sample `Now()` returns: what the clock offers, but never less than an earlier sample (R144; log entry 2). -/
def Env.now (e : Env) : Time := if e.clockDraw < e.lastNow then e.lastNow else e.clockDraw

/-- The environment after `Now()`. -/
def Env.afterNow (e : Env) : Env :=
  { e with
    clock := e.clock.tail, draws := e.draws + 1, lastNow := e.now, history := e.history ++ [.now e.now] }

/-- What `TxWrite(bytes)` returns; `TxOk(n)` has `n <= len(bytes)` (R141). -/
def Env.txAnswer (e : Env) (bytes : List Byte) : TxAnswer :=
  match (match e.tx with | a :: _ => a | [] => Config.freeTx e.draws) with
  | .ok n => .ok (min n bytes.length)
  | .err => .err

/-- The environment after `TxWrite(bytes)`. -/
def Env.afterTx (e : Env) (bytes : List Byte) : Env :=
  { e with
    tx := e.tx.tail, draws := e.draws + 1, history := e.history ++ [.txWrite bytes (e.txAnswer bytes)] }

/-- What `RxRead(ms)` returns: any byte, nothing, or an error (R142, R143). -/
def Env.rxAnswer (e : Env) : RxAnswer :=
  match e.rx with
  | a :: _ => a
  | [] => Config.freeRx e.draws

/-- The environment after `RxRead(ms)`. -/
def Env.afterRx (e : Env) (ms : Time) : Env :=
  { e with rx := e.rx.tail, draws := e.draws + 1, history := e.history ++ [.rxRead ms e.rxAnswer] }

/-! ## Primitives of the engine -/

/-- `Now()`: the sample. -/
def State.now (s : State) : Time := s.env.now

/-- The state after `Now()`. -/
def State.afterNow (s : State) : State := { s with env := s.env.afterNow }

/-- `TxWrite(bytes)`: the answer. -/
def State.txAnswer (s : State) (bytes : List Byte) : TxAnswer := s.env.txAnswer bytes

/-- The state after `TxWrite(bytes)`. -/
def State.afterTx (s : State) (bytes : List Byte) : State := { s with env := s.env.afterTx bytes }

/-- `RxRead(ms)`: the answer. -/
def State.rxAnswer (s : State) : RxAnswer := s.env.rxAnswer

/-- The state after `RxRead(ms)`. -/
def State.afterRx (s : State) (ms : Time) : State := { s with env := s.env.afterRx ms }

/-- `TXBUF <- frame` (R35). -/
def State.loadTx (s : State) (frame : List Byte) : State := { s with txbuf := frame }

/-- `RXBUF[RXCNT] <- b; RXCNT <- RXCNT + 1` (R34). -/
def State.pushRx (s : State) (b : Byte) : State := { s with rxbuf := s.rxbuf ++ [b] }

/-- `RXCNT <- 0`. -/
def State.clearRx (s : State) : State := { s with rxbuf := [] }

/-- `RX_START <- t`. -/
def State.setStart (s : State) (t : Time) : State := { s with rxStart := t }

/-- `RXCNT <- 0; RX_START <- Now()`, the start of `receive` (spec/42_receive.md R145). -/
def State.startRx (s : State) : State := s.clearRx.afterNow.setStart s.now

/-! ## The command latch -/

/-- `FLAGS.BUSY`: a command is in progress (R24, R37). -/
def State.busy (s : State) : Bool := s.latch.isSome

/-- The latch with the command in progress at another phase. -/
def State.setPhase (s : State) (p : Phase) : State :=
  { s with latch := s.latch.map (fun c => { c with phase := p }) }

/-- One register of a group staged. -/
def StagedFields.set (g : StagedFields) : FieldWrite → StagedFields
  | .v x => { g with v := some x }
  | .i x => { g with i := some x }
  | .p x => { g with p := some x }
  | .e x => { g with e := some x }
  | .f x => { g with f := some x }
  | .pf x => { g with pf := some x }
  | .alm x => { g with alm := some x }

/-- The registers of a group once the staged ones have taken effect. -/
def StagedFields.onto (g : StagedFields) (d : Fields) : Fields :=
  { v := g.v.getD d.v, i := g.i.getD d.i, p := g.p.getD d.p, e := g.e.getD d.e, f := g.f.getD d.f, pf := g.pf.getD d.pf
    alm := g.alm.getD d.alm }

/-- The writes of all seven registers of a group, in the order of the pseudocode (spec/44_cache_decoder.md R195, R197). -/
def Fields.writes (d : Fields) : List FieldWrite := [.v d.v, .i d.i, .p d.p, .e d.e, .f d.f, .pf d.pf, .alm d.alm]

/-- `R <- v` in a command: the write is staged (spec/00_scope.md R11, spec/20_memory.md R59). -/
def Commit.stage (c : Commit) : Write → Commit
  | .result x => { c with result := some x }
  | .resultValid x => { c with resultValid := some x }
  | .hlen x => { c with hlen := some x }
  | .hbuf bytes => { c with hbuf := bytes }
  | .sessAddr x => { c with sessAddr := some x }
  | .snap w => { c with snap := c.snap.set w }
  | .lastReadMs x => { c with lastReadMs := some x }
  | .hasSnap => { c with hasSnap := true }
  | .dec w => { c with dec := c.dec.set w }

/-- The record of a command that stages these writes, in this order, and finishes with `code`. -/
def Commit.of (code : Status) (writes : List Write) : Commit := writes.foldl Commit.stage { status := code }

/-- `finish(code)` (spec/60_exceptions.md R222): the staged writes take effect together, `STATUS` gets the code, the
latch is emptied and so `BUSY` falls. `raise X` is the finish of a `Commit` with no staged write but those the raising
rule names. -/
def State.finish (s : State) (c : Commit) : State :=
  { s with
    status := c.status
    result := c.result.getD s.result
    resultValid := c.resultValid.getD s.resultValid
    hlen := c.hlen.getD s.hlen
    hbuf := s.hbuf.writeBytes 0 c.hbuf
    sessAddr := c.sessAddr.getD s.sessAddr
    snap := c.snap.onto s.snap
    lastReadMs := c.lastReadMs.getD s.lastReadMs
    hasSnap := s.hasSnap || c.hasSnap
    dec := c.dec.onto s.dec
    decWritten := s.decWritten || c.dec.alm.isSome
    latch := none }

/-- The outcome of a command that reaches its `finish` without touching the environment: the model fault of a read of an
unwritten byte, or the finished state. -/
def complete (r : Except Fault Commit) (s : State) : Host.Outcome State Fault Refusal :=
  match r with
  | .ok c => .next (s.finish c)
  | .error f => .fault f

/-- R225: an `ILLEGAL_COMMAND` word writes `STATUS` and nothing else. -/
def illegal : Commit := { status := .illegalCommand }

/-! ## Reset -/

/-- The `RESET` input (R250 to R252): every register at its reset value, the command in progress abandoned with its
staged writes. The environment keeps what has happened: a written frame is not recalled. -/
def State.assertReset (s : State) : State := { State.reset with env := s.env }

end Sys2Proof.Machine
end

