-- ==== Sys2Proof/Machine/Flags.lean ====
section
/-!
DEFINITION. The status code, the `FLAGS` byte and the freshness predicate. The block has no condition codes and no
arithmetic flags (spec/10_state.md R42).
-/

namespace Sys2Proof.Machine

/-- The value of `STATUS` for a completion code (spec/60_exceptions.md R221). -/
def Status.code : Status → Byte
  | .ok => 0x00
  | .rangeError => 0x01
  | .transportError => 0x02
  | .rxFail => 0x03
  | .verifyError => 0x04
  | .replyRejected => 0x05
  | .illegalCommand => 0x06

/-- The `FLAGS` register (spec/10_state.md R24): bit 0 `BUSY`, bit 1 `RESULT_VALID`, bit 2 `HAS_SNAP`, bits [7:3] read
as 0. -/
def State.flags (s : State) : Byte :=
  0#5 ++ BitVec.ofBool s.hasSnap ++ BitVec.ofBool s.resultValid ++ BitVec.ofBool s.busy

/-- `fresh(t)` (spec/44_cache_decoder.md R196): a snapshot exists and is younger than the update interval, with the age
taken modulo 2^64. -/
def State.fresh (s : State) (t : Time) : Bool :=
  s.hasSnap && decide (t - s.lastReadMs < Config.updateIntervalMs)

end Sys2Proof.Machine
end

