-- ==== Sys2Proof/Machine/Frame.lean ====
section
/-!
DEFINITION. The frame encoder and the commands ENCODE8 and ENCODE4 (spec/41_frame_codec.md, spec/30_encoding.md R78, R79).
-/

namespace Sys2Proof.Machine

/-- `encode8(a, f, r, v)` (R120): address, function, register high byte first, value high byte first, CRC low byte
first. -/
def frame8 (a f : Byte) (r v : Half) : List Byte :=
  let h := [a, f, highByte r, lowByte r, highByte v, lowByte v]
  h ++ crcBytes (crc16 h)

/-- `encode4(a, f)` (R122). -/
def frame4 (a f : Byte) : List Byte :=
  let h := [a, f]
  h ++ crcBytes (crc16 h)

/-- The writes of ENCODE8 and ENCODE4 for the frame built (R121, R123). -/
def encodeWrites (frame : List Byte) : List Write := [.hbuf frame, .hlen (BitVec.ofNat 8 frame.length)]

/-- The staged writes of ENCODE8 (R121). -/
def encode8Commit (addr fc : Byte) (reg value : Half) : Commit := .of .ok (encodeWrites (frame8 addr fc reg value))

/-- ENCODE8 (R121). -/
def execEncode8 (addr fc : Byte) (reg value : Half) (s : State) : Host.Outcome State Fault Refusal :=
  complete (.ok (encode8Commit addr fc reg value)) s

/-- The staged writes of ENCODE4 (R123). -/
def encode4Commit (addr fc : Byte) : Commit := .of .ok (encodeWrites (frame4 addr fc))

/-- ENCODE4 (R123). -/
def execEncode4 (addr fc : Byte) (s : State) : Host.Outcome State Fault Refusal :=
  complete (.ok (encode4Commit addr fc)) s

end Sys2Proof.Machine
end

