-- ==== Sys2Proof/Machine/Receive.lean ====
section
/-!
DEFINITION. The receive loop with its deadline, and the command RECEIVE (spec/42_receive.md).
-/

namespace Sys2Proof.Machine

/-- What `receive` returns: a length and a code (R145). -/
structure Received where
  len : Nat
  code : Status
  deriving DecidableEq, Repr

/-- The end of the loop (R145, R147): the accumulated count where the accumulated bytes validate, else 0. -/
def State.verdict (s : State) : Received :=
  if validate s.rxbuf then ⟨s.rxbuf.length, .ok⟩ else ⟨0, .rxFail⟩

/-- An `RxErr` ends `receive` without validation (R152). -/
def rxError : Received := ⟨0, .transportError⟩

/-- `Now() -64 RX_START`, modulo 2^64 (R144, R145). -/
def State.elapsed (s : State) : Time := s.now - s.rxStart

/-- The deadline test of R145 at the next clock sample: `none` where the overall deadline has elapsed, else the
remaining milliseconds. -/
def State.remaining (s : State) (t : Half) : Option Time :=
  if t.zeroExtend 64 ≤ s.elapsed then none else some (t.zeroExtend 64 - s.elapsed)

/-- The loop of R145, with the number of bytes that may still come: it ends at the expected length, at the deadline, at
the first `None`, or at an `RxErr`. The yield between bytes has no effect (R148). -/
def receiveLoop (n : Nat) (t : Half) : Nat → State → State × Received
  | 0, s => (s, s.verdict)
  | more + 1, s =>
    if s.rxbuf.length = n then (s, s.verdict)
    else
      match s.remaining t with
      | none => (s.afterNow, s.verdict)
      | some ms =>
        match s.afterNow.rxAnswer with
        | .byte b => receiveLoop n t more ((s.afterNow.afterRx ms).pushRx b)
        | .nothing => (s.afterNow.afterRx ms, s.verdict)
        | .err => (s.afterNow.afterRx ms, rxError)

/-- `receive(n, t)` (R145): the state after it, and what it returns. It never reads more than `n` bytes (R151). -/
def receive (n : Nat) (t : Half) (s : State) : State × Received := receiveLoop n t n s.startRx

/-- The writes of RECEIVE once `receive` has returned (R149, decision D20). -/
def receiveWrites (s : State) (r : Received) : List Write :=
  [.result (BitVec.ofNat 32 r.len), .hlen (BitVec.ofNat 8 r.len)] ++
    if 0 < r.len then [.hbuf (s.rxbuf.take r.len)] else []

/-- The staged writes of RECEIVE (R149). -/
def receiveCommit (s : State) (r : Received) : Commit := .of r.code (receiveWrites s r)

/-- RECEIVE (R149). -/
def execReceive (len timeout : Half) (s : State) : Host.Outcome State Fault Refusal :=
  if lengthOk len Config.rxDepth then
    let after := receive len.toNat timeout s
    .next (after.1.finish (receiveCommit after.1 after.2))
  else .next (s.finish illegal)

end Sys2Proof.Machine
end

