-- ==== Sys2Proof/Machine/Dispatcher.lean ====
section
/-!
DEFINITION. The command dispatcher: the verified exchange and the commands SEND_READ, WRITE_REG, SET_ADDRESS,
SET_POWER_ALARM and RESET_ENERGY (spec/43_dispatcher.md). Every command makes at most one exchange and never retries
(R168).
-/

namespace Sys2Proof.Machine

/-! ## Shared functions -/

/-- The verdict of a verified exchange on what `receive` returned (R162): the reply must be 8 bytes that validate and
equal the frame sent. -/
def echoStatus (s : State) (r : Received) : Status :=
  if r.code = .transportError then .transportError
  else if r.len ≠ Config.frame8Len then .rxFail
  else if s.rxbuf.take Config.frame8Len ≠ s.txbuf then .verifyError
  else .ok

/-- `verifiedExchange(fr)` (R162): the state after it, and the status code. -/
def verifiedExchange (frame : List Byte) (s : State) : State × Status :=
  let s := s.loadTx frame
  match s.txAnswer frame with
  | .err => (s.afterTx frame, .transportError)
  | .ok _ =>
    let after := receive Config.frame8Len Config.rxTimeoutMs (s.afterTx frame)
    (after.1, echoStatus after.1 after.2)

/-! ## SEND_READ -/

/-- The frame SEND_READ sends (R160, R161). -/
def sendReadFrame (fc : Byte) (reg count : Half) (override : Bool) (addr : Byte) (s : State) : List Byte :=
  frame8 (resolveAddr override addr s.sessAddr) fc reg count

/-- The status of a request that is not verified (R160, decision D9): any `TxOk(n)` is a success. -/
def sentStatus : TxAnswer → Status
  | .ok _ => .ok
  | .err => .transportError

/-- SEND_READ (R160). -/
def execSendRead (fc : Byte) (reg count : Half) (verify override : Bool) (addr : Byte) (s : State) :
    Host.Outcome State Fault Refusal :=
  let frame := sendReadFrame fc reg count override addr s
  if verify then
    let after := verifiedExchange frame s
    .next (after.1.finish { status := after.2 })
  else
    let s' := s.loadTx frame
    .next ((s'.afterTx frame).finish { status := sentStatus (s'.txAnswer frame) })

/-! ## WRITE_REG -/

/-- The frame WRITE_REG sends (R163). -/
def writeRegFrame (reg value : Half) (s : State) : List Byte := frame8 s.sessAddr Config.fcWriteSingle reg value

/-- WRITE_REG (R163). -/
def execWriteReg (reg value : Half) (s : State) : Host.Outcome State Fault Refusal :=
  let after := verifiedExchange (writeRegFrame reg value s) s
  .next (after.1.finish { status := after.2 })

/-! ## SET_ADDRESS -/

/-- The frame SET_ADDRESS sends, to the old address (R164). -/
def setAddressFrame (addr : Byte) (s : State) : List Byte :=
  frame8 s.sessAddr Config.fcWriteSingle Config.addrReg (addr.zeroExtend 16)

/-- The writes of SET_ADDRESS for the code of its exchange (R164): the session takes the new address only on `OK`. -/
def setAddressWrites (addr : Byte) (code : Status) : List Write := if code = .ok then [.sessAddr addr] else []

/-- The staged writes of SET_ADDRESS (R164). -/
def setAddressCommit (addr : Byte) (code : Status) : Commit := .of code (setAddressWrites addr code)

/-- SET_ADDRESS (R164): an address outside `0x01..0xF7` is refused before any I/O. -/
def execSetAddress (addr : Byte) (s : State) : Host.Outcome State Fault Refusal :=
  if isHostAddr addr then
    let after := verifiedExchange (setAddressFrame addr s) s
    .next (after.1.finish (setAddressCommit addr after.2))
  else .next (s.finish { status := .rangeError })

/-! ## SET_POWER_ALARM -/

/-- The frame SET_POWER_ALARM sends, with the threshold clamped (R165). -/
def setPowerAlarmFrame (watts : Half) (s : State) : List Byte :=
  frame8 s.sessAddr Config.fcWriteSingle Config.alarmThrReg (clampAlarm watts)

/-- SET_POWER_ALARM (R165). -/
def execSetPowerAlarm (watts : Half) (s : State) : Host.Outcome State Fault Refusal :=
  let after := verifiedExchange (setPowerAlarmFrame watts s) s
  .next (after.1.finish { status := after.2 })

/-! ## RESET_ENERGY -/

/-- The frame RESET_ENERGY sends (R166). -/
def resetEnergyFrame (s : State) : List Byte := frame4 s.sessAddr Config.fcResetEnergy

/-- The status of RESET_ENERGY for what `receive` returned (R166, kept as written by R167): an empty reply fails, a reply
of exactly 5 bytes is rejected, every other validated length succeeds. -/
def resetEnergyStatus (r : Received) : Status :=
  if r.code = .transportError then .transportError
  else if r.len = 0 then .rxFail
  else if r.len = Config.resetReplyLen then .replyRejected
  else .ok

/-- The exchange of RESET_ENERGY (R166): the state after it, and the status code. The frame has 4 bytes and is not
placed in `TXBUF`. -/
def resetExchange (s : State) : State × Status :=
  let frame := resetEnergyFrame s
  match s.txAnswer frame with
  | .err => (s.afterTx frame, .transportError)
  | .ok _ =>
    let after := receive Config.resetReplyLen Config.rxTimeoutMs (s.afterTx frame)
    (after.1, resetEnergyStatus after.2)

/-- RESET_ENERGY (R166). -/
def execResetEnergy (s : State) : Host.Outcome State Fault Refusal :=
  let after := resetExchange s
  .next (after.1.finish { status := after.2 })

end Sys2Proof.Machine
end

