-- ==== Sys2Proof/Machine/Cache.lean ====
section
/-!
DEFINITION. The register decoder and the value cache: the commands DECODE, UPDATE_VALUES, the seven measurement accessors
and GET_POWER_ALARM (spec/44_cache_decoder.md).
-/

namespace Sys2Proof.Machine

/-! ## The register decoder -/

/-- `u16(s, i)` (R191): big-endian. -/
def u16 (s : List Byte) (i : Nat) : Half := s.getD i 0 ++ s.getD (i + 1) 0

/-- `u32ws(s, i)` (R192): two big-endian words, the low word first. -/
def u32ws (s : List Byte) (i : Nat) : Word := u16 s (i + 2) ++ u16 s i

/-- `decode(s)` (R190), at the offsets of R193. -/
def decodeBulk (s : List Byte) : Fields :=
  { v := u16 s 3, i := u32ws s 5, p := u32ws s 9, e := u32ws s 13, f := u16 s 17, pf := u16 s 19, alm := u16 s 21 }

/-! ## DECODE -/

/-- The writes of DECODE for the bytes it has read, which stand at 3 of the sequence it decodes (R195). -/
def decodeWrites (bytes : List Byte) : List Write := (decodeBulk ([0x00, 0x00, 0x00] ++ bytes)).writes.map .dec

/-- The staged writes of DECODE (R195): only `HBUF[3..23)` is read, by `MemRead`, and a byte of it that nothing has written
is the model fault R52 and R226 name. -/
def decodeCommit (s : State) : Except Fault Commit :=
  match s.hbuf.readBytes 3 20 with
  | some bytes => .ok (.of .ok (decodeWrites bytes))
  | none => .error .unwrittenRead

/-- DECODE (R195). -/
def execDecode (s : State) : Host.Outcome State Fault Refusal := complete (decodeCommit s) s

/-! ## UPDATE_VALUES -/

/-- What `updateValues()` returns: the status, and the snapshot with its time stamp where one is stored (R197). -/
structure Update where
  code : Status
  snap : Option (Fields × Time)
  deriving DecidableEq, Repr

/-- The bulk request (R197): 10 input registers from address 0, to the session's address. -/
def bulkRequest (s : State) : List Byte :=
  frame8 s.sessAddr Config.fcReadInput Config.bulkStartReg Config.bulkCount

/-- Why a bulk response is not stored, if it is not (R197): it must validate and have exactly 25 bytes. -/
def bulkFailure (r : Received) : Option Status :=
  if r.code = .transportError then some .transportError
  else if r.len ≠ Config.bulkRespLen then some .rxFail
  else none

/-- The snapshot of the response held in `RXBUF`, stamped with the next clock sample (R197, R198). -/
def State.bulkSnapshot (s : State) : Fields × Time := (decodeBulk (s.rxbuf.take Config.bulkRespLen), s.now)

/-- `updateValues()` (R197): the state after it, and what it returns. -/
def updateValues (s : State) : State × Update :=
  if s.fresh s.now then (s.afterNow, ⟨.ok, none⟩)
  else
    let frame := bulkRequest s
    let s := s.afterNow.loadTx frame
    match s.txAnswer frame with
    | .err => (s.afterTx frame, ⟨.transportError, none⟩)
    | .ok _ =>
      let after := receive Config.bulkRespLen Config.rxTimeoutMs (s.afterTx frame)
      match bulkFailure after.2 with
      | some code => (after.1, ⟨code, none⟩)
      | none => (after.1.afterNow, ⟨.ok, some after.1.bulkSnapshot⟩)

/-- The writes of `updateValues()` (R197 to R199): none but where a snapshot is stored. -/
def updateWrites (u : Update) : List Write :=
  match u.snap with
  | some (d, t) => d.writes.map .snap ++ [.lastReadMs t, .hasSnap]
  | none => []

/-- The staged writes of UPDATE_VALUES (R197). -/
def updateCommit (u : Update) : Commit := .of u.code (updateWrites u)

/-- UPDATE_VALUES (R197). -/
def execUpdateValues (s : State) : Host.Outcome State Fault Refusal :=
  let after := updateValues s
  .next (after.1.finish (updateCommit after.2))

/-! ## Accessors -/

/-- The seven quantities of a snapshot (R193, R194). -/
inductive Quantity where
  | voltage
  | current
  | power
  | energy
  | frequency
  | powerFactor
  | alarms
  deriving DecidableEq, Repr

/-- The raw field of a quantity, zero-extended to 32 bits. -/
def Fields.get (d : Fields) : Quantity → Word
  | .voltage => d.v.zeroExtend 32
  | .current => d.i
  | .power => d.p
  | .energy => d.e
  | .frequency => d.f.zeroExtend 32
  | .powerFactor => d.pf.zeroExtend 32
  | .alarms => d.alm.zeroExtend 32

/-- The snapshot after the staged writes of an update, `none` while there is none (R200: `HAS_SNAP'` and `SNAP_X'`). -/
def State.snapAfter (s : State) (u : Update) : Option Fields :=
  match u.snap with
  | some (d, _) => some d
  | none => if s.hasSnap then some s.snap else none

/-- The writes of an accessor that returns `f` of the snapshot (R200, R201), after those of the update: `RESULT_VALID = 0`
says "no data". -/
def accessorWrites (f : Fields → Word) (s : State) (u : Update) : List Write :=
  updateWrites u ++
    match s.snapAfter u with
    | some d => [.result (f d), .resultValid true]
    | none => [.result 0, .resultValid false]

/-- The writes of a measurement accessor (R200). -/
def readWrites (q : Quantity) (s : State) (u : Update) : List Write := accessorWrites (fun d => d.get q) s u

/-- The writes of GET_POWER_ALARM (R201): any nonzero alarm word is "on". -/
def alarmWrites (s : State) (u : Update) : List Write := accessorWrites (fun d => if d.alm = 0 then 0 else 1) s u

/-- The staged writes of a measurement accessor (R200). -/
def readCommit (q : Quantity) (s : State) (u : Update) : Commit := .of u.code (readWrites q s u)

/-- The staged writes of GET_POWER_ALARM (R201). -/
def alarmCommit (s : State) (u : Update) : Commit := .of u.code (alarmWrites s u)

/-- A measurement accessor (R200): refresh the cache, then report one raw field. -/
def readQuantity (q : Quantity) (s : State) : Host.Outcome State Fault Refusal :=
  let after := updateValues s
  .next (after.1.finish (readCommit q after.1 after.2))

/-- READ_VOLTAGE (R200). -/
def execReadVoltage (s : State) : Host.Outcome State Fault Refusal := readQuantity .voltage s

/-- READ_CURRENT (R200). -/
def execReadCurrent (s : State) : Host.Outcome State Fault Refusal := readQuantity .current s

/-- READ_POWER (R200). -/
def execReadPower (s : State) : Host.Outcome State Fault Refusal := readQuantity .power s

/-- READ_ENERGY (R200). -/
def execReadEnergy (s : State) : Host.Outcome State Fault Refusal := readQuantity .energy s

/-- READ_FREQUENCY (R200). -/
def execReadFrequency (s : State) : Host.Outcome State Fault Refusal := readQuantity .frequency s

/-- READ_PF (R200). -/
def execReadPf (s : State) : Host.Outcome State Fault Refusal := readQuantity .powerFactor s

/-- READ_ALARMS (R200). -/
def execReadAlarms (s : State) : Host.Outcome State Fault Refusal := readQuantity .alarms s

/-- GET_POWER_ALARM (R201). -/
def execGetPowerAlarm (s : State) : Host.Outcome State Fault Refusal :=
  let after := updateValues s
  .next (after.1.finish (alarmCommit after.1 after.2))

end Sys2Proof.Machine
end

