-- ==== Sys2Proof/Machine/Scale.lean ====
section
/-!
DEFINITION. The physical values of the raw fields (spec/44_cache_decoder.md R194, R202). The block returns raw integers
and never forms these; they are the host's reading of what it returns.
-/

namespace Sys2Proof.Machine

/-- The decimal exponent of a field's fixed scale (R194, R202); the alarm word is raw. -/
def Quantity.exponent : Quantity → Nat
  | .voltage => 1
  | .current => 3
  | .power => 1
  | .energy => 3
  | .frequency => 1
  | .powerFactor => 2
  | .alarms => 0

/-- The physical value of a field: the raw integer times its scale, as an exact rational (R194). -/
def Fields.physical (d : Fields) (q : Quantity) : ℚ := ((d.get q).toNat : ℚ) / (10 : ℚ) ^ q.exponent

/-- The host's float view of a field. `toFloat` is an OPEN parameter, of which nothing is assumed, and so an argument
(R8, R202; log entry 10). -/
def Fields.hostFloat {F : Type} (toFloat : Nat → Nat → F) (d : Fields) (q : Quantity) : F :=
  toFloat (d.get q).toNat q.exponent

end Sys2Proof.Machine
end

