-- ==== Sys2Proof/Syntax.lean ====
section
/-!
DEFINITION. The commands of the host port, one constructor per row of spec/opcode_table.json (spec/30_encoding.md R75).
Operands are the fields of the command word the row lists, each an unsigned value of its width (R72); a field the row
does not list is ignored by the command (R74) and has no place here.
-/

namespace Sys2Proof

/-- A command, as spec/30_encoding.md R75 lists it. -/
inductive Instr where
  /-- `0x01`, spec/40_crc.md R104. -/
  | crc16 (len : Half)
  /-- `0x02`, spec/40_crc.md R106. -/
  | validate (len : Half)
  /-- `0x03`, spec/41_frame_codec.md R121. -/
  | encode8 (addr fc : Byte) (reg value : Half)
  /-- `0x04`, spec/41_frame_codec.md R123. -/
  | encode4 (addr fc : Byte)
  /-- `0x05`, spec/42_receive.md R149. -/
  | receive (len timeout : Half)
  /-- `0x06`, spec/43_dispatcher.md R160. -/
  | sendRead (fc : Byte) (reg count : Half) (verify override : Bool) (addr : Byte)
  /-- `0x07`, spec/43_dispatcher.md R163. -/
  | writeReg (reg value : Half)
  /-- `0x08`, spec/43_dispatcher.md R164. -/
  | setAddress (addr : Byte)
  /-- `0x09`, spec/43_dispatcher.md R165. -/
  | setPowerAlarm (watts : Half)
  /-- `0x0A`, spec/43_dispatcher.md R166. -/
  | resetEnergy
  /-- `0x0B`, spec/44_cache_decoder.md R197. -/
  | updateValues
  /-- `0x0C`, spec/44_cache_decoder.md R195. -/
  | decode
  /-- `0x10`, spec/44_cache_decoder.md R200. -/
  | readVoltage
  /-- `0x11`, spec/44_cache_decoder.md R200. -/
  | readCurrent
  /-- `0x12`, spec/44_cache_decoder.md R200. -/
  | readPower
  /-- `0x13`, spec/44_cache_decoder.md R200. -/
  | readEnergy
  /-- `0x14`, spec/44_cache_decoder.md R200. -/
  | readFrequency
  /-- `0x15`, spec/44_cache_decoder.md R200. -/
  | readPf
  /-- `0x16`, spec/44_cache_decoder.md R200. -/
  | readAlarms
  /-- `0x17`, spec/44_cache_decoder.md R201. -/
  | getPowerAlarm
  deriving DecidableEq, Repr

end Sys2Proof
end

