-- ==== Sys2Proof/Machine/Dispatch.lean ====
section
/-! DEFINITION. The dispatch of a decoded command to its meaning, one arm per constructor of Instr. -/

namespace Sys2Proof.Machine

def exec (i : Instr) (s : State) : Host.Outcome State Fault Refusal :=
  match i with
  | .crc16 len => Sys2Proof.Machine.execCrc16 len s
  | .validate len => Sys2Proof.Machine.execValidate len s
  | .encode8 addr fc reg value => Sys2Proof.Machine.execEncode8 addr fc reg value s
  | .encode4 addr fc => Sys2Proof.Machine.execEncode4 addr fc s
  | .receive len timeout => Sys2Proof.Machine.execReceive len timeout s
  | .sendRead fc reg count verify override addr => Sys2Proof.Machine.execSendRead fc reg count verify override addr s
  | .writeReg reg value => Sys2Proof.Machine.execWriteReg reg value s
  | .setAddress addr => Sys2Proof.Machine.execSetAddress addr s
  | .setPowerAlarm watts => Sys2Proof.Machine.execSetPowerAlarm watts s
  | .resetEnergy => Sys2Proof.Machine.execResetEnergy s
  | .updateValues => Sys2Proof.Machine.execUpdateValues s
  | .decode => Sys2Proof.Machine.execDecode s
  | .readVoltage => Sys2Proof.Machine.execReadVoltage s
  | .readCurrent => Sys2Proof.Machine.execReadCurrent s
  | .readPower => Sys2Proof.Machine.execReadPower s
  | .readEnergy => Sys2Proof.Machine.execReadEnergy s
  | .readFrequency => Sys2Proof.Machine.execReadFrequency s
  | .readPf => Sys2Proof.Machine.execReadPf s
  | .readAlarms => Sys2Proof.Machine.execReadAlarms s
  | .getPowerAlarm => Sys2Proof.Machine.execGetPowerAlarm s

end Sys2Proof.Machine
end

