-- ==== Sys2Proof/Machine/HostPort.lean ====
section
/-!
DEFINITION. The host port (spec/30_encoding.md R89; spec/10_state.md R22; spec/20_memory.md R52; spec/60_exceptions.md
R226).
-/

namespace Sys2Proof.Machine

/-- What the host finds at a register number (R22). -/
inductive RegRead where
  /-- The whole value, zero-extended to 64 bits. -/
  | value (v : BitVec 64)
  /-- A register that holds no value yet. -/
  | unwritten
  /-- A reserved number. -/
  | reserved
  deriving DecidableEq, Repr

/-- `SNAP_X`, readable only while `HAS_SNAP = 1` (R22). -/
def State.readSnap (s : State) (q : Quantity) : RegRead :=
  if s.hasSnap then .value ((s.snap.get q).zeroExtend 64) else .unwritten

/-- `DEC_X`, readable only after the first DECODE (R22). -/
def State.readDec (s : State) (q : Quantity) : RegRead :=
  if s.decWritten then .value ((s.dec.get q).zeroExtend 64) else .unwritten

/-- The register the host names by number (R22). -/
def State.readReg (s : State) (n : Byte) : RegRead :=
  match n.toNat with
  | 0x00 => .value (s.status.code.zeroExtend 64)
  | 0x01 => .value (s.flags.zeroExtend 64)
  | 0x02 => .value (s.result.zeroExtend 64)
  | 0x03 => .value (s.hlen.zeroExtend 64)
  | 0x04 => .value (s.sessAddr.zeroExtend 64)
  | 0x05 => .value s.lastReadMs
  | 0x06 => s.readSnap .voltage
  | 0x07 => s.readSnap .current
  | 0x08 => s.readSnap .power
  | 0x09 => s.readSnap .energy
  | 0x0A => s.readSnap .frequency
  | 0x0B => s.readSnap .powerFactor
  | 0x0C => s.readSnap .alarms
  | 0x10 => s.readDec .voltage
  | 0x11 => s.readDec .current
  | 0x12 => s.readDec .power
  | 0x13 => s.readDec .energy
  | 0x14 => s.readDec .frequency
  | 0x15 => s.readDec .powerFactor
  | 0x16 => s.readDec .alarms
  | _ => .reserved

/-- The state once a host read has returned `v`; nothing of the block changes (spec/20_memory.md R60). -/
def State.answer (s : State) (v : BitVec 64) : State := { s with env := { s.env with hostData := some v } }

/-- `hostIssue(w)`: accepted only while `BUSY = 0` (R89, decision D6). -/
def hostIssue (w : CommandWord) (s : State) : Host.Outcome State Fault Refusal :=
  if s.busy then .refused (.hostProtocol .issueWhileBusy)
  else .next { s with latch := some ⟨w, .start⟩ }

/-- `hostReadReg(n)` (R89), allowed while a command runs. A read of a register that holds no value is the model fault R22
and R226 name. -/
def hostReadReg (n : Byte) (s : State) : Host.Outcome State Fault Refusal :=
  match s.readReg n with
  | .value v => .next (s.answer v)
  | .unwritten => .fault .unwrittenRead
  | .reserved => .refused (.hostProtocol .reservedRegister)

/-- `hostWriteBuf(i, b)` (R52). -/
def hostWriteBuf (i : Nat) (b : Byte) (s : State) : Host.Outcome State Fault Refusal :=
  if s.busy then .refused (.hostProtocol .bufferWhileBusy)
  else if i < Config.hbufDepth then .next { s with hbuf := s.hbuf.write i b }
  else .refused (.hostProtocol .bufferIndex)

/-- `hostReadBuf(i)` (R52). A read of a byte that nothing has written is the model fault R52 and R226 name. -/
def hostReadBuf (i : Nat) (s : State) : Host.Outcome State Fault Refusal :=
  if s.busy then .refused (.hostProtocol .bufferWhileBusy)
  else if i < Config.hbufDepth then
    match s.hbuf.read i with
    | some b => .next (s.answer (b.zeroExtend 64))
    | none => .fault .unwrittenRead
  else .refused (.hostProtocol .bufferIndex)

/-- An action of the host at its port (R89). -/
def hostAct (a : HostAction) (s : State) : Host.Outcome State Fault Refusal :=
  match a with
  | .issue w => hostIssue w s
  | .readReg n => hostReadReg n s
  | .writeBuf i b => hostWriteBuf i b s
  | .readBuf i => hostReadBuf i s

end Sys2Proof.Machine
end

