-- ==== Sys2Proof/WellFormed.lean ====
section
/-!
DEFINITION. Which commands are well formed: the length bounds of spec/30_encoding.md R77. No other operand value is
illegal. An ill-formed command has a meaning too: it completes with `ILLEGAL_COMMAND` (R77, R225).
-/

namespace Sys2Proof

/-- R77: CRC16 and VALIDATE need `C <= HBUF_DEPTH`, RECEIVE needs `C <= RX_DEPTH`. -/
def Instr.wellFormed : Instr → Bool
  | .crc16 len => decide (len.toNat ≤ Config.hbufDepth)
  | .validate len => decide (len.toNat ≤ Config.hbufDepth)
  | .encode8 _ _ _ _ => true
  | .encode4 _ _ => true
  | .receive len _ => decide (len.toNat ≤ Config.rxDepth)
  | .sendRead _ _ _ _ _ _ => true
  | .writeReg _ _ => true
  | .setAddress _ => true
  | .setPowerAlarm _ => true
  | .resetEnergy => true
  | .updateValues => true
  | .decode => true
  | .readVoltage => true
  | .readCurrent => true
  | .readPower => true
  | .readEnergy => true
  | .readFrequency => true
  | .readPf => true
  | .readAlarms => true
  | .getPowerAlarm => true

end Sys2Proof
end

