-- ==== Sys2Proof/Decode.lean ====
section
/-!
DEFINITION. Decoding and encoding of the 64-bit command word (spec/30_encoding.md R70 to R77, R88). Decoding is total: a
word is a command or is rejected under a name. The word reaches the block whole (R57, R58), so no byte order enters.
-/

namespace Sys2Proof

/-- Why a word selects no command. -/
inductive DecodeError where
  /-- One of `w[63:58]` is set (R73). -/
  | reservedBits
  /-- `OP` is outside the operation map (R76). -/
  | illegalOp (op : Byte)
  deriving DecidableEq, Repr

/-- `w[7:0]`, the operation selector (R71). -/
def fieldOp (w : CommandWord) : Byte := w.extractLsb' 0 8
/-- `w[15:8]` (R71). -/
def fieldA (w : CommandWord) : Byte := w.extractLsb' 8 8
/-- `w[23:16]` (R71). -/
def fieldF (w : CommandWord) : Byte := w.extractLsb' 16 8
/-- `w[39:24]` (R71). -/
def fieldB (w : CommandWord) : Half := w.extractLsb' 24 16
/-- `w[55:40]` (R71). -/
def fieldC (w : CommandWord) : Half := w.extractLsb' 40 16
/-- `w[56]`, a boolean with 1 for true (R71, R72). -/
def fieldV (w : CommandWord) : Bool := w.extractLsb' 56 1 == 1#1
/-- `w[57]`, a boolean with 1 for true (R71, R72). -/
def fieldO (w : CommandWord) : Bool := w.extractLsb' 57 1 == 1#1
/-- `w[63:58]`, which must be 0 (R71, R73). -/
def fieldReserved (w : CommandWord) : BitVec 6 := w.extractLsb' 58 6

/-- The command a word selects (R75), or the name of what is wrong with it (R73, R76). A length over its bound is not
refused here: the command itself completes with `ILLEGAL_COMMAND` (R77). -/
def decode (w : CommandWord) : Except DecodeError Instr :=
  if fieldReserved w ≠ 0#6 then .error .reservedBits
  else
    match (fieldOp w).toNat with
    | 0x01 => .ok (.crc16 (fieldC w))
    | 0x02 => .ok (.validate (fieldC w))
    | 0x03 => .ok (.encode8 (fieldA w) (fieldF w) (fieldB w) (fieldC w))
    | 0x04 => .ok (.encode4 (fieldA w) (fieldF w))
    | 0x05 => .ok (.receive (fieldC w) (fieldB w))
    | 0x06 => .ok (.sendRead (fieldF w) (fieldB w) (fieldC w) (fieldV w) (fieldO w) (fieldA w))
    | 0x07 => .ok (.writeReg (fieldB w) (fieldC w))
    | 0x08 => .ok (.setAddress (fieldA w))
    | 0x09 => .ok (.setPowerAlarm (fieldC w))
    | 0x0A => .ok .resetEnergy
    | 0x0B => .ok .updateValues
    | 0x0C => .ok .decode
    | 0x10 => .ok .readVoltage
    | 0x11 => .ok .readCurrent
    | 0x12 => .ok .readPower
    | 0x13 => .ok .readEnergy
    | 0x14 => .ok .readFrequency
    | 0x15 => .ok .readPf
    | 0x16 => .ok .readAlarms
    | 0x17 => .ok .getPowerAlarm
    | _ => .error (.illegalOp (fieldOp w))

/-- R88: the command word of an operation and its field values. -/
def commandWord (op a f : Byte) (b c : Half) (v o : Bool) : CommandWord :=
  op.zeroExtend 64 ||| (a.zeroExtend 64 <<< 8) ||| (f.zeroExtend 64 <<< 16) ||| (b.zeroExtend 64 <<< 24)
    ||| (c.zeroExtend 64 <<< 40) ||| ((BitVec.ofBool v).zeroExtend 64 <<< 56)
    ||| ((BitVec.ofBool o).zeroExtend 64 <<< 57)

/-- The `OP` value of a command (R75). -/
def opcode : Instr → Byte
  | .crc16 _ => 0x01
  | .validate _ => 0x02
  | .encode8 _ _ _ _ => 0x03
  | .encode4 _ _ => 0x04
  | .receive _ _ => 0x05
  | .sendRead _ _ _ _ _ _ => 0x06
  | .writeReg _ _ => 0x07
  | .setAddress _ => 0x08
  | .setPowerAlarm _ => 0x09
  | .resetEnergy => 0x0A
  | .updateValues => 0x0B
  | .decode => 0x0C
  | .readVoltage => 0x10
  | .readCurrent => 0x11
  | .readPower => 0x12
  | .readEnergy => 0x13
  | .readFrequency => 0x14
  | .readPf => 0x15
  | .readAlarms => 0x16
  | .getPowerAlarm => 0x17

/-- The word of a command with every field it does not use 0 (R75, R88; R74 lets an unused field hold anything). -/
def encode (i : Instr) : CommandWord :=
  match i with
  | .crc16 len => commandWord (opcode i) 0 0 0 len false false
  | .validate len => commandWord (opcode i) 0 0 0 len false false
  | .encode8 addr fc reg value => commandWord (opcode i) addr fc reg value false false
  | .encode4 addr fc => commandWord (opcode i) addr fc 0 0 false false
  | .receive len timeout => commandWord (opcode i) 0 0 timeout len false false
  | .sendRead fc reg count verify override addr => commandWord (opcode i) addr fc reg count verify override
  | .writeReg reg value => commandWord (opcode i) 0 0 reg value false false
  | .setAddress addr => commandWord (opcode i) addr 0 0 0 false false
  | .setPowerAlarm watts => commandWord (opcode i) 0 0 0 watts false false
  | .resetEnergy => commandWord (opcode i) 0 0 0 0 false false
  | .updateValues => commandWord (opcode i) 0 0 0 0 false false
  | .decode => commandWord (opcode i) 0 0 0 0 false false
  | .readVoltage => commandWord (opcode i) 0 0 0 0 false false
  | .readCurrent => commandWord (opcode i) 0 0 0 0 false false
  | .readPower => commandWord (opcode i) 0 0 0 0 false false
  | .readEnergy => commandWord (opcode i) 0 0 0 0 false false
  | .readFrequency => commandWord (opcode i) 0 0 0 0 false false
  | .readPf => commandWord (opcode i) 0 0 0 0 false false
  | .readAlarms => commandWord (opcode i) 0 0 0 0 false false
  | .getPowerAlarm => commandWord (opcode i) 0 0 0 0 false false

/-- The command the decoder reads from a word given as a number of `nbits` bits, bit 0 the least significant; bits above
`nbits` are 0. The block's command word is one word of 64 bits, stored whole. -/
def decodeTableWord (nbits w : Nat) : Option Instr :=
  match decode (BitVec.ofNat 64 (w % 2 ^ nbits)) with
  | .ok i => some i
  | .error _ => none

end Sys2Proof
end

