-- ==== Sys2Proof/Machine/Micro.lean ====
section
/-!
DEFINITION. The micro-steps of the engine: each primitive of spec/00_scope.md R11 that a command makes, in the order of its
rule's pseudocode, is one micro-step (spec/10_state.md R20, R37, R40). Between two of them the host may read a register and
the platform may assert `RESET` (spec/20_memory.md R59, spec/70_reset_and_hazards.md R252). Tests, and local computations
that R11 does not list, belong to the micro-step before them (log entry 13). The micro-steps use the primitives, frames and
writes of the meanings of the commands, and a command taken through all of them ends as its meaning says.
-/

namespace Sys2Proof.Machine

/-! ## Where a command begins -/

/-- `raise code`, or `finish(code)` with nothing staged. -/
def Primitive.raise (code : Status) : Primitive := .ending [] { status := code }

/-- The first primitive of a command, after the checks of its operands (spec/30_encoding.md R77, spec/40_crc.md R106,
spec/43_dispatcher.md R164). -/
def entry : Instr → Primitive
  | .crc16 len => if lengthOk len Config.hbufDepth then .memRead else .raise .illegalCommand
  | .validate len =>
    if lengthOk len Config.hbufDepth then
      if len.toNat ≤ 2 then .ending (validateWrites false) { status := .ok } else .memRead
    else .raise .illegalCommand
  | .receive len _ => if lengthOk len Config.rxDepth then .clearCount else .raise .illegalCommand
  | .setAddress addr => if isHostAddr addr then .encode else .raise .rangeError
  | .decode => .memRead
  | .encode8 _ _ _ _ | .encode4 _ _ | .sendRead _ _ _ _ _ _ | .writeReg _ _ | .setPowerAlarm _ | .resetEnergy => .encode
  | .updateValues | .readVoltage | .readCurrent | .readPower | .readEnergy | .readFrequency | .readPf | .readAlarms
  | .getPowerAlarm => .sampleBefore

/-! ## What a command does at a primitive -/

/-- The bytes of the host buffer a command reads, the first index and their number: `MemRead(0, C)` of CRC16 and VALIDATE,
`MemRead(3, 20)` of DECODE. No other command reads the buffer. -/
def memReadRange : Instr → Nat × Nat
  | .crc16 len | .validate len => (0, len.toNat)
  | .decode => (3, 20)
  | .encode8 _ _ _ _ | .encode4 _ _ | .receive _ _ | .sendRead _ _ _ _ _ _ | .writeReg _ _ | .setAddress _
  | .setPowerAlarm _ | .resetEnergy | .updateValues | .readVoltage | .readCurrent | .readPower | .readEnergy
  | .readFrequency | .readPf | .readAlarms | .getPowerAlarm => (0, 0)

/-- The writes of a command for the bytes it has read from the host buffer. -/
def computedWrites (i : Instr) (bytes : List Byte) : List Write :=
  match i with
  | .crc16 _ => crc16Writes bytes
  | .validate _ => validateWrites (validate bytes)
  | .decode => decodeWrites bytes
  | .encode8 _ _ _ _ | .encode4 _ _ | .receive _ _ | .sendRead _ _ _ _ _ _ | .writeReg _ _ | .setAddress _
  | .setPowerAlarm _ | .resetEnergy | .updateValues | .readVoltage | .readCurrent | .readPower | .readEnergy
  | .readFrequency | .readPf | .readAlarms | .getPowerAlarm => []

/-- Where a command goes once it has encoded its frame. ENCODE8 and ENCODE4 write the frame to the host buffer,
RESET_ENERGY sends it (spec/43_dispatcher.md R166), and every other command places it in `TXBUF` first. CRC16, VALIDATE,
RECEIVE and DECODE encode none. -/
def afterEncode (i : Instr) (s : State) : Primitive :=
  match i with
  | .encode8 addr fc reg value => .ending (encodeWrites (frame8 addr fc reg value)) { status := .ok }
  | .encode4 addr fc => .ending (encodeWrites (frame4 addr fc)) { status := .ok }
  | .sendRead fc reg count _ override addr => .loadTx (sendReadFrame fc reg count override addr s)
  | .writeReg reg value => .loadTx (writeRegFrame reg value s)
  | .setAddress addr => .loadTx (setAddressFrame addr s)
  | .setPowerAlarm watts => .loadTx (setPowerAlarmFrame watts s)
  | .resetEnergy => .txWrite (resetEnergyFrame s)
  | .updateValues | .readVoltage | .readCurrent | .readPower | .readEnergy | .readFrequency | .readPf | .readAlarms
  | .getPowerAlarm => .loadTx (bulkRequest s)
  | .crc16 _ | .validate _ | .receive _ _ | .decode => .raise .ok

/-- The writes of a command for the result of its exchange. The accessors report on the snapshot; every other command
writes what `updateValues()` does, which for a failure is nothing. -/
def concludeWrites (i : Instr) (s : State) (u : Update) : List Write :=
  match i with
  | .readVoltage => readWrites .voltage s u
  | .readCurrent => readWrites .current s u
  | .readPower => readWrites .power s u
  | .readEnergy => readWrites .energy s u
  | .readFrequency => readWrites .frequency s u
  | .readPf => readWrites .powerFactor s u
  | .readAlarms => readWrites .alarms s u
  | .getPowerAlarm => alarmWrites s u
  | .crc16 _ | .validate _ | .encode8 _ _ _ _ | .encode4 _ _ | .receive _ _ | .sendRead _ _ _ _ _ _ | .writeReg _ _
  | .setAddress _ | .setPowerAlarm _ | .resetEnergy | .updateValues | .decode => updateWrites u

/-- Where a command goes when the result of its exchange is known. -/
def conclude (i : Instr) (s : State) (u : Update) : Primitive := .ending (concludeWrites i s u) { status := u.code }

/-- Whether a command receives after its `TxWrite`: every one but an unverified SEND_READ (R160). -/
def collectsReply : Instr → Bool
  | .sendRead _ _ _ verify _ _ => verify
  | .crc16 _ | .validate _ | .encode8 _ _ _ _ | .encode4 _ _ | .receive _ _ | .writeReg _ _ | .setAddress _
  | .setPowerAlarm _ | .resetEnergy | .updateValues | .decode | .readVoltage | .readCurrent | .readPower | .readEnergy
  | .readFrequency | .readPf | .readAlarms | .getPowerAlarm => true

/-- Where a command goes when `TxWrite` has answered (spec/42_receive.md R141). -/
def afterSend (i : Instr) (a : TxAnswer) (s : State) : Primitive :=
  match a with
  | .err => conclude i s ⟨.transportError, none⟩
  | .ok _ => if collectsReply i then .clearCount else .raise .ok

/-- The arguments a command gives `receive` (spec/30_encoding.md R83): 8 for an echo, 5 for the reset-energy reply, 25
for the bulk response, the operands for RECEIVE. -/
def expectedReply : Instr → Nat × Half
  | .receive len timeout => (len.toNat, timeout)
  | .resetEnergy => (Config.resetReplyLen, Config.rxTimeoutMs)
  | .updateValues | .readVoltage | .readCurrent | .readPower | .readEnergy | .readFrequency | .readPf | .readAlarms
  | .getPowerAlarm => (Config.bulkRespLen, Config.rxTimeoutMs)
  | .crc16 _ | .validate _ | .encode8 _ _ _ _ | .encode4 _ _ | .sendRead _ _ _ _ _ _ | .writeReg _ _ | .setAddress _
  | .setPowerAlarm _ | .decode => (Config.frame8Len, Config.rxTimeoutMs)

/-- The head of the loop of `receive` (spec/42_receive.md R145): at the expected length the loop is left. -/
def loopHead (i : Instr) (s : State) : Primitive :=
  if s.rxbuf.length = (expectedReply i).1 then .check else .sampleLoop

/-- Where a command goes when `receive` has returned `r`. -/
def afterReceive (i : Instr) (r : Received) (s : State) : Primitive :=
  match i with
  | .receive _ _ => .ending (receiveWrites s r) { status := r.code }
  | .setAddress addr => .ending (setAddressWrites addr (echoStatus s r)) { status := echoStatus s r }
  | .resetEnergy => .raise (resetEnergyStatus r)
  | .updateValues | .readVoltage | .readCurrent | .readPower | .readEnergy | .readFrequency | .readPf | .readAlarms
  | .getPowerAlarm =>
    match bulkFailure r with
    | some code => conclude i s ⟨code, none⟩
    | none => .decodeReply
  | .crc16 _ | .validate _ | .encode8 _ _ _ _ | .encode4 _ _ | .sendRead _ _ _ _ _ _ | .writeReg _ _
  | .setPowerAlarm _ | .decode => .raise (echoStatus s r)

/-! ## One micro-step -/

/-- One primitive of command `i`: the next state and the primitive after it, none where the command has finished. -/
def perform (i : Instr) (p : Primitive) (s : State) : Except Fault (State × Option Primitive) :=
  match p with
  | .memRead =>
    match s.hbuf.readBytes (memReadRange i).1 (memReadRange i).2 with
    | some bytes => .ok (s, some (.compute bytes))
    | none => .error .unwrittenRead
  | .compute bytes => .ok (s, some (.ending (computedWrites i bytes) { status := .ok }))
  | .encode => .ok (s, some (afterEncode i s))
  | .loadTx frame => .ok (s.loadTx frame, some (.txWrite frame))
  | .txWrite frame => .ok (s.afterTx frame, some (afterSend i (s.txAnswer frame) s))
  | .clearCount => .ok (s.clearRx, some .sampleStart)
  | .sampleStart => .ok (s.afterNow, some (.setStart s.now))
  | .setStart t => .ok (s.setStart t, some (loopHead i s))
  | .sampleLoop =>
    match s.remaining (expectedReply i).2 with
    | none => .ok (s.afterNow, some .check)
    | some ms => .ok (s.afterNow, some (.rxRead ms))
  | .rxRead ms =>
    match s.rxAnswer with
    | .byte b => .ok (s.afterRx ms, some (.rxStore b))
    | .nothing => .ok (s.afterRx ms, some .check)
    | .err => .ok (s.afterRx ms, some (afterReceive i rxError (s.afterRx ms)))
  | .rxStore b => .ok (s, some (.rxCount b))
  | .rxCount b => .ok (s.pushRx b, some (loopHead i (s.pushRx b)))
  | .check => .ok (s, some (afterReceive i s.verdict s))
  | .sampleBefore => .ok (s.afterNow, some (if s.fresh s.now then conclude i s ⟨.ok, none⟩ else .encode))
  | .decodeReply => .ok (s, some (.sampleAfter (decodeBulk (s.rxbuf.take Config.bulkRespLen))))
  | .sampleAfter d => .ok (s.afterNow, some (conclude i s ⟨.ok, some (d, s.now)⟩))
  | .ending (w :: todo) c => .ok (s, some (.ending todo (c.stage w)))
  | .ending [] c => .ok (s.finish c, none)

/-- The primitive a phase stands at. -/
def Phase.primitive (i : Instr) : Phase → Primitive
  | .start => entry i
  | .next p => p

/-- One micro-step of command `i` at phase `p`: the next state and phase, no phase where the command has finished. -/
def advance (i : Instr) (p : Phase) (s : State) : Except Fault (State × Option Phase) :=
  (perform i (p.primitive i) s).map fun r => (r.1, r.2.map .next)

/-! ## Many micro-steps -/

/-- Up to the given number of micro-steps, until the command has finished. -/
def advanceFor : Nat → Instr → Phase → State → Except Fault (State × Option Phase)
  | 0, _, p, s => .ok (s, some p)
  | k + 1, i, p, s =>
    match advance i p s with
    | .error f => .error f
    | .ok (s', none) => .ok (s', none)
    | .ok (s', some p') => advanceFor k i p' s'

/-- More micro-steps than any command makes: at most four for each of 32 bytes, and fewer than 32 more. -/
def microSteps : Nat := 160

/-- The outcome of micro-steps: a command that has not finished stays in the latch, at its new phase. -/
def settle (r : Except Fault (State × Option Phase)) : Host.Outcome State Fault Refusal :=
  match r with
  | .error f => .fault f
  | .ok (s, none) => .next s
  | .ok (s, some p) => .next (s.setPhase p)

/-- One micro-step of the command in progress. A word that selects no command completes at once (R73, R76, R225). -/
def tickCommand (c : Command) (s : State) : Host.Outcome State Fault Refusal :=
  match decode c.word with
  | .error _ => .next (s.finish illegal)
  | .ok i => settle (advance i c.phase s)

/-- The command in progress, taken from its phase to its finish. -/
def resumeCommand (i : Instr) (p : Phase) (s : State) : Host.Outcome State Fault Refusal :=
  settle (advanceFor microSteps i p s)

end Sys2Proof.Machine
end

