-- ==== Sys2Proof/Machine/Engine.lean ====
section
/-!
DEFINITION. What the machine does with the next input: the engine runs the command in its latch, the host acts, or the
platform resets the block (spec/10_state.md R20, R40; log entry 8).
-/

namespace Sys2Proof.Machine

/-- The command in progress runs to its finish (R20): a word that selects no command completes with `ILLEGAL_COMMAND`
(spec/30_encoding.md R73, R76); a command at its start is `exec` of what the word decodes to; a command some micro-steps
in goes on from its phase. -/
def runCommand (c : Command) (s : State) : Host.Outcome State Fault Refusal :=
  match decode c.word with
  | .error _ => .next (s.finish illegal)
  | .ok i =>
    match c.phase with
    | .start => exec i s
    | p => resumeCommand i p s

/-- The engine runs until it is idle; an idle block keeps all its state (spec/60_exceptions.md R235). -/
def runEngine (s : State) : Host.Outcome State Fault Refusal :=
  match s.latch with
  | none => .next s
  | some c => runCommand c s

/-- One micro-step of the engine. -/
def tickEngine (s : State) : Host.Outcome State Fault Refusal :=
  match s.latch with
  | none => .next s
  | some c => tickCommand c s

/-- The effect of one input. -/
def applyInput (x : Input) (s : State) : Host.Outcome State Fault Refusal :=
  match x with
  | .host a => hostAct a s
  | .reset => .next s.assertReset
  | .tick => tickEngine s
  | .wait => runEngine s

/-- The state with its first input taken away. -/
def State.popInput (s : State) : State := { s with env := { s.env with inputs := s.env.inputs.tail } }

/-- The state with a command word accepted at the host port and the host waiting for it, whatever else the host will do
afterwards (R89). -/
def State.withCommand (s : State) (w : CommandWord) : State :=
  { s with latch := some ⟨w, .start⟩, env := { s.env with inputs := .wait :: s.env.inputs } }

end Sys2Proof.Machine
end

