-- ==== Sys2Proof/Machine/Step.lean ====
section
/-! DEFINITION. One step of the machine: the next input takes effect; with no input left the engine runs. -/

namespace Sys2Proof.Machine

/-- One step. The environment's next input takes effect; where there is none, nothing happens outside the block and the
engine runs the command in progress, if there is one, to its finish. -/
def step (s : State) : Host.Outcome State Fault Refusal :=
  match s.env.inputs with
  | [] => runEngine s
  | x :: _ => applyInput x s.popInput

/-- `s` with the command word whose bits are `w` issued, so that the next step runs it. The word has 64 bits, so `nbits`
is 64; bits above `nbits` are 0. -/
def State.withFetchWord (s : State) (nbits w : Nat) : State := s.withCommand (BitVec.ofNat 64 (w % 2 ^ nbits))

end Sys2Proof.Machine
end

