-- ==== Sys2Proof/Machine/Assembler.lean ====
section
/-!
DEFINITION. The assembler syntax of the host commands and the pseudo-instructions (spec/30_encoding.md R86, R87,
decision D3). A line is one command word, or one of the host port's own actions (`wbuf`, `rbuf`, `rreg`), which are not
command words (R86).
-/

namespace Sys2Proof.Machine.Assembler

/-- The words of a line: what stands between spaces and commas. -/
def splitWords : List Char → List (List Char)
  | [] => [[]]
  | c :: cs =>
    if c = ' ' || c = ',' then [] :: splitWords cs
    else
      match splitWords cs with
      | [] => [[c]]
      | w :: ws => (c :: w) :: ws

/-- The words of a line that are not empty. -/
def tokens (line : String) : List (List Char) := (splitWords line.toList).filter (fun w => !w.isEmpty)

/-- The value of a digit up to `f` or `F`. -/
def digit (c : Char) : Option Nat :=
  if '0' ≤ c ∧ c ≤ '9' then some (c.toNat - '0'.toNat)
  else if 'a' ≤ c ∧ c ≤ 'f' then some (c.toNat - 'a'.toNat + 10)
  else if 'A' ≤ c ∧ c ≤ 'F' then some (c.toNat - 'A'.toNat + 10)
  else none

/-- The number with these digits after `acc`. -/
def digits (base : Nat) : Nat → List Char → Option Nat
  | acc, [] => some acc
  | acc, c :: cs =>
    match digit c with
    | some d => if d < base then digits base (acc * base + d) cs else none
    | none => none

/-- A number, decimal or `0x` hex (R86). -/
def number (w : List Char) : Option Nat :=
  match w with
  | [] => none
  | '0' :: 'x' :: c :: cs => digits 16 0 (c :: cs)
  | c :: cs => digits 10 0 (c :: cs)

/-- The numbers of a list of words, if each is one. -/
def numbers : List (List Char) → Option (List Nat)
  | [] => some []
  | w :: ws =>
    match number w, numbers ws with
    | some n, some ns => some (n :: ns)
    | _, _ => none

/-- An 8-bit operand (R88: each field is reduced to its width). -/
def byte (n : Nat) : Byte := BitVec.ofNat 8 n

/-- A 16-bit operand (R88). -/
def half (n : Nat) : Half := BitVec.ofNat 16 n

/-- The lines whose operands are numbers only (R86), and the pseudo-instructions (R87). -/
def numericLine (op : List Char) (xs : List Nat) : Option Instr :=
  match String.ofList op, xs with
  | "crc16", [len] => some (.crc16 (half len))
  | "validate", [len] => some (.validate (half len))
  | "enc8", [addr, fc, reg, value] => some (.encode8 (byte addr) (byte fc) (half reg) (half value))
  | "enc4", [addr, fc] => some (.encode4 (byte addr) (byte fc))
  | "recv", [len, timeout] => some (.receive (half len) (half timeout))
  | "wrreg", [reg, value] => some (.writeReg (half reg) (half value))
  | "setaddr", [addr] => some (.setAddress (byte addr))
  | "setalarm", [watts] => some (.setPowerAlarm (half watts))
  | "rstenergy", [] => some .resetEnergy
  | "update", [] => some .updateValues
  | "decode", [] => some .decode
  | "rd.v", [] => some .readVoltage
  | "rd.i", [] => some .readCurrent
  | "rd.p", [] => some .readPower
  | "rd.e", [] => some .readEnergy
  | "rd.f", [] => some .readFrequency
  | "rd.pf", [] => some .readPf
  | "rd.alm", [] => some .readAlarms
  | "getalarm", [] => some .getPowerAlarm
  | "rdinput", [reg, count] => some (.sendRead Config.fcReadInput (half reg) (half count) false false 0)
  | "rdholding", [reg, count] => some (.sendRead Config.fcReadHolding (half reg) (half count) false false 0)
  | "bulkreq", [] => some (.sendRead Config.fcReadInput Config.bulkStartReg Config.bulkCount false false 0)
  | "enc.wr", [addr, reg, value] => some (.encode8 (byte addr) Config.fcWriteSingle (half reg) (half value))
  | "enc.rst", [addr] => some (.encode4 (byte addr) Config.fcResetEnergy)
  | "recv.def", [len] => some (.receive (half len) Config.rxTimeoutMs)
  | _, _ => none

/-- The optional operands of `sendrd`: `verify`, then `@<addr>` (R86): whether it is verified, and the override. -/
def sendrdOptions (ws : List (List Char)) : Option (Bool × Option Nat) :=
  match ws with
  | [] => some (false, none)
  | ['v', 'e', 'r', 'i', 'f', 'y'] :: [] => some (true, none)
  | ['v', 'e', 'r', 'i', 'f', 'y'] :: [('@' :: a)] => (number a).map fun n => (true, some n)
  | [('@' :: a)] => (number a).map fun n => (false, some n)
  | _ => none

/-- `sendrd <fc>, <reg>, <count> [, verify] [, @<addr>]` (R86). -/
def sendrdLine (args : List (List Char)) : Option Instr :=
  match args with
  | fc :: reg :: count :: rest =>
    match numbers [fc, reg, count], sendrdOptions rest with
    | some [fc, reg, count], some (verify, at?) =>
      some (.sendRead (byte fc) (half reg) (half count) verify at?.isSome (byte (at?.getD 0)))
    | _, _ => none
  | _ => none

/-- The command a line of assembler text stands for (R86, R87). -/
def assemble (line : String) : Option Instr :=
  match tokens line with
  | [] => none
  | ['s', 'e', 'n', 'd', 'r', 'd'] :: args => sendrdLine args
  | op :: args =>
    match numbers args with
    | some xs => numericLine op xs
    | none => none

/-- The command word of a line of assembler text (R86, R88). -/
def assembleWord (line : String) : Option CommandWord := (assemble line).map encode

/-- The number of a register by its name (spec/10_state.md R22). -/
def registerNumber (name : List Char) : Option Byte :=
  match String.ofList name with
  | "STATUS" => some 0x00
  | "FLAGS" => some 0x01
  | "RESULT" => some 0x02
  | "HLEN" => some 0x03
  | "SESS_ADDR" => some 0x04
  | "LAST_READ_MS" => some 0x05
  | "SNAP_V" => some 0x06
  | "SNAP_I" => some 0x07
  | "SNAP_P" => some 0x08
  | "SNAP_E" => some 0x09
  | "SNAP_F" => some 0x0A
  | "SNAP_PF" => some 0x0B
  | "SNAP_ALM" => some 0x0C
  | "DEC_V" => some 0x10
  | "DEC_I" => some 0x11
  | "DEC_P" => some 0x12
  | "DEC_E" => some 0x13
  | "DEC_F" => some 0x14
  | "DEC_PF" => some 0x15
  | "DEC_ALM" => some 0x16
  | _ => none

/-- The host action a line stands for: `wbuf <i>, <byte>`, `rbuf <i>`, `rreg <name>`, else the issue of the line's command
word (R86, R89). -/
def hostAction (line : String) : Option HostAction :=
  match tokens line with
  | [['w', 'b', 'u', 'f'], i, b] =>
    match number i, number b with
    | some i, some b => some (.writeBuf i (byte b))
    | _, _ => none
  | [['r', 'b', 'u', 'f'], i] => (number i).map .readBuf
  | [['r', 'r', 'e', 'g'], name] => (registerNumber name).map .readReg
  | _ => (assembleWord line).map .issue

end Sys2Proof.Machine.Assembler
end

