-- ==== Sys2Proof/Safety.lean ====
section
/-!
DEFINITION. What claims are stated in terms of: the invariant of the machine, the statuses each command may end with, how
an exchange of the environment is described, which events a command may add, and what is observed at the end of a run.
-/

namespace Sys2Proof.Machine

/-! ## The invariant -/

/-- Staged writes that keep the invariant when they take effect: a new session address is one the host may supply
(spec/43_dispatcher.md R169), `HLEN` and the bytes for `HBUF` keep their bound, and a time stamp is a past sample. -/
def Commit.legal (c : Commit) (lastNow : Time) : Prop :=
  (∀ a, c.sessAddr = some a → isHostAddr a = true) ∧ (∀ h, c.hlen = some h → h.toNat ≤ Config.hbufDepth) ∧
  c.hbuf.length ≤ Config.hbufDepth ∧ (∀ t, c.lastReadMs = some t → t ≤ lastNow)

/-- The checks a command passes before its exchange: the length of RECEIVE (spec/30_encoding.md R77) and the address of
SET_ADDRESS (spec/43_dispatcher.md R164). -/
def passesChecks : Instr → Bool
  | .receive len _ => lengthOk len Config.rxDepth
  | .setAddress addr => isHostAddr addr
  | .crc16 _ | .validate _ | .encode8 _ _ _ _ | .encode4 _ _ | .sendRead _ _ _ _ _ _ | .writeReg _ _ | .setPowerAlarm _
  | .resetEnergy | .updateValues | .decode | .readVoltage | .readCurrent | .readPower | .readEnergy | .readFrequency
  | .readPf | .readAlarms | .getPowerAlarm => true

/-- A primitive that fits command `i` and the hidden state: a command in its exchange has passed its checks, a frame on
its way to `TXBUF` has 8 bytes, during a receive the accumulator holds no more than the command expects (spec/42_receive.md
R145, R151), and the writes of the command, staged and still to be staged, are legal. -/
def Primitive.legal (i : Instr) (p : Primitive) (s : State) : Prop :=
  match p with
  | .memRead | .compute _ | .decodeReply | .sampleAfter _ => True
  | .sampleBefore | .encode | .txWrite _ | .clearCount => passesChecks i = true
  | .loadTx frame => passesChecks i = true ∧ frame.length = Config.frame8Len
  | .sampleStart => passesChecks i = true ∧ s.rxbuf = []
  | .setStart t => passesChecks i = true ∧ s.rxbuf = [] ∧ t ≤ s.env.lastNow
  | .check => passesChecks i = true ∧ s.rxbuf.length ≤ (expectedReply i).1
  | .sampleLoop | .rxRead _ | .rxStore _ | .rxCount _ =>
    passesChecks i = true ∧ s.rxbuf.length < (expectedReply i).1
  | .ending todo c => (todo.foldl Commit.stage c).legal s.env.lastNow

/-- The command in progress is at a primitive that fits it. -/
def Command.legal (c : Command) (s : State) : Prop :=
  match c.phase with
  | .start => True
  | .next p => ∀ i, decode c.word = .ok i → p.legal i s

/-- The invariant: `HBUF` is in canonical form and inside its 32 bytes (spec/10_state.md R33), `SESS_ADDR` is in
`0x01..0xF8` (R27), `HLEN` is at most 32 (R26), the buffers keep their sizes (R34, R35), no stored time lies in the
future (R28, R37), and the command in progress is in a phase that fits. -/
structure State.Inv (s : State) : Prop where
  hbufWf : s.hbuf.wf
  hbufBound : ∀ c ∈ s.hbuf, c.1 < Config.hbufDepth
  sessAddr : isSessionAddr s.sessAddr = true
  hlen : s.hlen.toNat ≤ Config.hbufDepth
  rxbuf : s.rxbuf.length ≤ Config.rxDepth
  txbuf : s.txbuf = [] ∨ s.txbuf.length = Config.frame8Len
  lastRead : s.lastReadMs ≤ s.env.lastNow
  rxStart : s.rxStart ≤ s.env.lastNow
  command : ∀ c, s.latch = some c → c.legal s

/-! ## Events -/

/-- The clock samples of a history, oldest first. -/
def clockSamples (h : List Event) : List Time :=
  h.filterMap fun e => match e with | .now t => some t | .txWrite _ _ => none | .rxRead _ _ => none

/-- The history's samples never decrease, and none is later than the largest sample so far (spec/42_receive.md R144). -/
def Env.clockOk (e : Env) : Prop :=
  (clockSamples e.history).Pairwise (· ≤ ·) ∧ ∀ t ∈ clockSamples e.history, t ≤ e.lastNow

/-- A `TxWrite` event. -/
def Event.isTx : Event → Bool
  | .txWrite _ _ => true
  | .rxRead _ _ => false
  | .now _ => false

/-- A `Now()` event. -/
def Event.isNow : Event → Bool
  | .now _ => true
  | .txWrite _ _ => false
  | .rxRead _ _ => false

/-- An `RxRead` event. -/
def Event.isRx : Event → Bool
  | .rxRead _ _ => true
  | .txWrite _ _ => false
  | .now _ => false

/-- An `RxRead` event that returned a byte. -/
def Event.isByte : Event → Bool
  | .rxRead _ (.byte _) => true
  | .rxRead _ .nothing => false
  | .rxRead _ .err => false
  | .txWrite _ _ => false
  | .now _ => false

/-! ## How an exchange goes -/

/-- How the loop of `receive` ends (spec/42_receive.md R145). -/
inductive RxEnd where
  /-- The expected number of bytes has been accumulated. -/
  | full
  /-- The Transport returned `None`. -/
  | nothing
  /-- The overall deadline has elapsed. -/
  | deadline
  /-- The Transport returned `RxErr`. -/
  | error
  deriving DecidableEq, Repr

/-- The environment lets `receive(n, t)` accumulate exactly `bytes` and end as `ending` says: the clock's next sample is
the start, every later sample at which a byte is asked for is inside the deadline, and the Transport delivers `bytes`
first. Afterwards the clock offers `later` and the Transport still holds `more`. -/
def Env.delivers (e : Env) (n : Nat) (t : Half) (bytes : List Byte) (ending : RxEnd) (later : List Time)
    (more : List RxAnswer) : Prop :=
  ∃ start samples,
    e.lastNow ≤ start ∧ (∀ x ∈ samples, start ≤ x ∧ x - start < t.zeroExtend 64) ∧
    match ending with
    | .full =>
      bytes.length = n ∧ samples.length = n ∧ e.clock = start :: (samples ++ later) ∧
        e.rx = bytes.map .byte ++ more
    | .nothing =>
      bytes.length < n ∧ samples.length = bytes.length + 1 ∧ e.clock = start :: (samples ++ later) ∧
        e.rx = bytes.map .byte ++ .nothing :: more
    | .deadline =>
      bytes.length < n ∧ samples.length = bytes.length ∧ e.rx = bytes.map .byte ++ more ∧
        ∃ x, start ≤ x ∧ t.zeroExtend 64 ≤ x - start ∧ e.clock = start :: (samples ++ x :: later)
    | .error =>
      bytes.length < n ∧ samples.length = bytes.length + 1 ∧ e.clock = start :: (samples ++ later) ∧
        e.rx = bytes.map .byte ++ .err :: more

/-- What `receive` returns for the accumulated bytes and the end of its loop (spec/42_receive.md R147, R152). -/
def receivedFor (bytes : List Byte) (ending : RxEnd) : Received :=
  if ending = .error then ⟨0, .transportError⟩
  else if validate bytes then ⟨bytes.length, .ok⟩
  else ⟨0, .rxFail⟩

/-- The status of a verified exchange for the frame sent, the accumulated reply and the end of the receive
(spec/43_dispatcher.md R162). -/
def echoOutcome (frame bytes : List Byte) (ending : RxEnd) : Status :=
  if ending = .error then .transportError
  else if ¬ validate bytes ∨ bytes.length ≠ 8 then .rxFail
  else if bytes ≠ frame then .verifyError
  else .ok

/-- The Transport takes the next frame, however many bytes of it it says it wrote (spec/42_receive.md R141). -/
def Env.takesFrame (e : Env) : Prop := ∃ k rest, e.tx = .ok k :: rest

/-- The Transport fails the next write. -/
def Env.failsFrame (e : Env) : Prop := ∃ rest, e.tx = .err :: rest

/-- `HBUF[i..i+len(bytes))` holds `bytes`. -/
def Memory.holds (m : Memory) (i : Nat) (bytes : List Byte) : Prop :=
  ∀ k (h : k < bytes.length), m.read (i + k) = some bytes[k]

/-- The verified command `i` sends `frame`, receives `bytes`, and finishes with the status of the exchange: on `OK` the
session's address becomes `addr`, and nothing else of the block changes but the hidden buffers. -/
def completesVerified (i : Instr) (frame : List Byte) (addr : Byte) (s : State) (bytes : List Byte) (ending : RxEnd)
    (later : List Time) (more : List RxAnswer) : Prop :=
  ∃ t, exec i s = .next t ∧
    t = { s with
          status := echoOutcome frame bytes ending
          sessAddr := if echoOutcome frame bytes ending = .ok then addr else s.sessAddr
          txbuf := frame, rxbuf := bytes, rxStart := t.rxStart, latch := none, env := t.env } ∧
    t.env.clock = later ∧ t.env.rx = more ∧
    ∃ k events, t.env.history = s.env.history ++ .txWrite frame (.ok k) :: events ∧ events.countP Event.isTx = 0

/-- The command `i` offers `frame` to a Transport that fails the write, and finishes with `TRANSPORT_ERROR` and no
receive; `tx` is what `TXBUF` holds afterwards. -/
def failsToSend (i : Instr) (frame tx : List Byte) (s : State) : Prop :=
  ∃ t, exec i s = .next t ∧
    t = { s with status := .transportError, txbuf := tx, latch := none, env := t.env } ∧
    t.env.clock = s.env.clock ∧ t.env.rx = s.env.rx ∧ t.env.history = s.env.history ++ [.txWrite frame .err]

/-- The command `i`, whose sample finds no fresh cache, offers the bulk request to a Transport that fails the write, and
finishes with `TRANSPORT_ERROR`, no receive, and the cache as it was; `result` and `valid` are what `RESULT` and
`RESULT_VALID` hold afterwards. -/
def failsToRefresh (i : Instr) (result : Word) (valid : Bool) (s : State) : Prop :=
  ∃ t, exec i s = .next t ∧
    t = { s with
          status := .transportError, result := result, resultValid := valid
          txbuf := frame8 s.sessAddr 0x04 0x0000 10, latch := none, env := t.env } ∧
    t.env.clock = s.env.clock.tail ∧ t.env.rx = s.env.rx ∧
    t.env.history = s.env.history ++ [.now s.env.now, .txWrite (frame8 s.sessAddr 0x04 0x0000 10) .err]

/-! ## Statuses -/

/-- The statuses each command can end with (spec/60_exceptions.md R223). -/
def mayEndWith : Instr → Status → Bool
  | .crc16 _, c | .validate _, c => c == .ok || c == .illegalCommand
  | .encode8 _ _ _ _, c | .encode4 _ _, c | .decode, c => c == .ok
  | .receive _ _, c => c == .ok || c == .rxFail || c == .transportError || c == .illegalCommand
  | .sendRead _ _ _ false _ _, c => c == .ok || c == .transportError
  | .sendRead _ _ _ true _ _, c | .writeReg _ _, c | .setPowerAlarm _, c =>
    c == .ok || c == .transportError || c == .rxFail || c == .verifyError
  | .setAddress _, c => c == .ok || c == .rangeError || c == .transportError || c == .rxFail || c == .verifyError
  | .resetEnergy, c => c == .ok || c == .transportError || c == .rxFail || c == .replyRejected
  | .updateValues, c | .readVoltage, c | .readCurrent, c | .readPower, c | .readEnergy, c | .readFrequency, c
  | .readPf, c | .readAlarms, c | .getPowerAlarm, c => c == .ok || c == .transportError || c == .rxFail

/-! ## The end of a run -/

/-- What is observed at the end of a run (spec/70_reset_and_hazards.md R265): the host-visible registers, with no value
for those nothing has written, the host buffer, and the event history. -/
structure Observation where
  status : Status
  flags : Byte
  result : Word
  hlen : Byte
  sessAddr : Byte
  lastReadMs : Time
  snap : Option Fields
  dec : Option Fields
  hbuf : Memory
  history : List Event
  deriving DecidableEq, Repr

/-- The issue of a command. -/
def Input.isIssue : Input → Bool
  | .host (.issue _) => true
  | .host (.readReg _) => false
  | .host (.writeBuf _ _) => false
  | .host (.readBuf _) => false
  | .reset => false
  | .tick => false
  | .wait => false

/-- A run has ended (R265): the host has issued its last command, since none is left among its inputs, and no command is
in progress. The end of a run is its first such state, so that host actions and a RESET after the last command's finish
are not part of the run. R265 says nothing of a run whose last command was abandoned by RESET, nor of one without a
command: that such a run has ended too, in its first idle state with no issue left, is the model's DESIGN CHOICE (log
entry 16). -/
def State.ended (s : State) : Bool := !s.env.inputs.any Input.isIssue && !s.busy

/-- The observation of a state (R265). -/
def State.observe (s : State) : Observation :=
  { status := s.status, flags := s.flags, result := s.result, hlen := s.hlen, sessAddr := s.sessAddr
    lastReadMs := s.lastReadMs, snap := if s.hasSnap then some s.snap else none
    dec := if s.decWritten then some s.dec else none, hbuf := s.hbuf, history := s.env.history }

end Sys2Proof.Machine
end

