-- ==== Sys2Proof/Certificates/Slice0/Obligations.lean ====
section
/-!
DEFINITION. The statements for the provers. Each docstring names the rules it formalises, or says that it is derived.
-/

open Sys2Proof Sys2Proof.Machine

/-! ## Encoding -/

/-- R88 (derived): decoding the word of a command gives the command, with every operand at every value. -/
def Obligations.DecodeOfEncodeIsTheCommand : Prop := ∀ i : Instr, decode (encode i) = .ok i

/-- R71, R88: the field extractions read back the fields of the word that R88's formula makes, and a word without a
reserved bit is the word of its fields. -/
def Obligations.CommandWordIsItsFields : Prop :=
  (∀ (op a f : Byte) (b c : Half) (v o : Bool),
    fieldOp (commandWord op a f b c v o) = op ∧ fieldA (commandWord op a f b c v o) = a ∧
    fieldF (commandWord op a f b c v o) = f ∧ fieldB (commandWord op a f b c v o) = b ∧
    fieldC (commandWord op a f b c v o) = c ∧ fieldV (commandWord op a f b c v o) = v ∧
    fieldO (commandWord op a f b c v o) = o ∧ fieldReserved (commandWord op a f b c v o) = 0#6) ∧
  (∀ w : CommandWord, fieldReserved w = 0#6 →
    commandWord (fieldOp w) (fieldA w) (fieldF w) (fieldB w) (fieldC w) (fieldV w) (fieldO w) = w)

/-- R74, R75: for each row of the operation map, a word with the row's `OP` and any value in every field is the row's
command, with the operands the row lists; the other fields do not matter. -/
def Obligations.EveryRowIgnoresItsUnusedFields : Prop :=
  ∀ (a f : Byte) (b c : Half) (v o : Bool),
    decode (commandWord 0x01 a f b c v o) = .ok (.crc16 c) ∧
    decode (commandWord 0x02 a f b c v o) = .ok (.validate c) ∧
    decode (commandWord 0x03 a f b c v o) = .ok (.encode8 a f b c) ∧
    decode (commandWord 0x04 a f b c v o) = .ok (.encode4 a f) ∧
    decode (commandWord 0x05 a f b c v o) = .ok (.receive c b) ∧
    decode (commandWord 0x06 a f b c v o) = .ok (.sendRead f b c v o a) ∧
    decode (commandWord 0x07 a f b c v o) = .ok (.writeReg b c) ∧
    decode (commandWord 0x08 a f b c v o) = .ok (.setAddress a) ∧
    decode (commandWord 0x09 a f b c v o) = .ok (.setPowerAlarm c) ∧
    decode (commandWord 0x0A a f b c v o) = .ok .resetEnergy ∧
    decode (commandWord 0x0B a f b c v o) = .ok .updateValues ∧
    decode (commandWord 0x0C a f b c v o) = .ok .decode ∧
    decode (commandWord 0x10 a f b c v o) = .ok .readVoltage ∧
    decode (commandWord 0x11 a f b c v o) = .ok .readCurrent ∧
    decode (commandWord 0x12 a f b c v o) = .ok .readPower ∧
    decode (commandWord 0x13 a f b c v o) = .ok .readEnergy ∧
    decode (commandWord 0x14 a f b c v o) = .ok .readFrequency ∧
    decode (commandWord 0x15 a f b c v o) = .ok .readPf ∧
    decode (commandWord 0x16 a f b c v o) = .ok .readAlarms ∧
    decode (commandWord 0x17 a f b c v o) = .ok .getPowerAlarm

/-- A few words written out from the spec (R88's example, spec/95_test_vectors.md SRC-2, RCV-7, ENC-23, ENC-24, DSP-5,
P4): they decode to the commands they stand for. -/
def Obligations.SampleWordsDecode : Prop :=
  decode 0x01000A0000040006 = .ok (.sendRead 0x04 0x0000 0x000A true false 0x00) ∧
  decode 0x02000A000004F706 = .ok (.sendRead 0x04 0x0000 10 false true 0xF7) ∧
  decode 0x0000060000000001 = .ok (.crc16 6) ∧
  decode 0x0000000064000005 = .ok (.receive 0 100) ∧
  decode 0x00000A000004F803 = .ok (.encode8 0xF8 0x04 0x0000 10) ∧
  decode 0x000000000042F804 = .ok (.encode4 0xF8 0x42) ∧
  decode 0x0003E80001000007 = .ok (.writeReg 0x0001 1000) ∧
  decode 0x0000000000000017 = .ok .getPowerAlarm

/-- R73, R76 (derived): a word selects a command exactly if no reserved bit is set and its `OP` is in the map. -/
def Obligations.DecodableWordsAreTheMap : Prop :=
  ∀ w : CommandWord, (∃ i, decode w = .ok i) ↔
    (fieldReserved w = 0#6 ∧
      ((0x01 ≤ (fieldOp w).toNat ∧ (fieldOp w).toNat ≤ 0x0C) ∨
        (0x10 ≤ (fieldOp w).toNat ∧ (fieldOp w).toNat ≤ 0x17)))

/-- R73, R76 (and R225 for such a word): an issued word with a reserved bit set or an `OP` outside the map completes
at once with `ILLEGAL_COMMAND`; nothing else changes but `BUSY`, which returns to 0. -/
def Obligations.IllegalWordsCompleteAtOnce : Prop :=
  (∀ (s : State) (w : CommandWord), s.latch = some ⟨w, .start⟩ →
    (fieldReserved w ≠ 0#6 ∨ (fieldOp w).toNat = 0x00 ∨
      (0x0D ≤ (fieldOp w).toNat ∧ (fieldOp w).toNat ≤ 0x0F) ∨ 0x18 ≤ (fieldOp w).toNat) →
    runEngine s = .next { s with status := .illegalCommand, latch := none }) ∧
  Status.illegalCommand.code = 0x06

/-- R77: a length over its bound makes CRC16, VALIDATE and RECEIVE complete with `ILLEGAL_COMMAND` before any other
effect, and no other operand value of any command does. -/
def Obligations.OnlyLengthsOverTheBoundAreIllegal : Prop :=
  (∀ (s : State) (len : Half), 32 < len.toNat →
    exec (.crc16 len) s = .next { s with status := .illegalCommand, latch := none } ∧
    exec (.validate len) s = .next { s with status := .illegalCommand, latch := none } ∧
    ∀ t, exec (.receive len t) s = .next { s with status := .illegalCommand, latch := none }) ∧
  (∀ (i : Instr) (s t : State), i.wellFormed = true → exec i s = .next t → t.status ≠ .illegalCommand)

/-- R86, R87 (derived): a line for each form of the assembler syntax, with the command it stands for: every mnemonic,
`sendrd` without options, with either and with both, and every pseudo-instruction. How a line is cut into words, and
that a line of no form stands for nothing, are the model's choice (log entry 15). -/
def Obligations.AssemblerLinesAreTheCommands : Prop :=
  Assembler.assemble "crc16 6" = some (.crc16 6) ∧
  Assembler.assemble "validate 0x08" = some (.validate 8) ∧
  Assembler.assemble "enc8 0xF8, 0x04, 0x0000, 10" = some (.encode8 0xF8 0x04 0x0000 10) ∧
  Assembler.assemble "enc4 0xF8, 0x42" = some (.encode4 0xF8 0x42) ∧
  Assembler.assemble "recv 25, 100" = some (.receive 25 100) ∧
  Assembler.assemble "sendrd 0x04, 0x0000, 10" = some (.sendRead 0x04 0x0000 10 false false 0) ∧
  Assembler.assemble "sendrd 0x04, 0x0000, 10, verify" = some (.sendRead 0x04 0x0000 10 true false 0) ∧
  Assembler.assemble "sendrd 0x04, 0x0000, 10, @0xF7" = some (.sendRead 0x04 0x0000 10 false true 0xF7) ∧
  Assembler.assemble "sendrd 0x04, 0x0000, 10, verify, @0xF7" = some (.sendRead 0x04 0x0000 10 true true 0xF7) ∧
  Assembler.assemble "wrreg 0x0001, 1000" = some (.writeReg 0x0001 1000) ∧
  Assembler.assemble "setaddr 5" = some (.setAddress 5) ∧
  Assembler.assemble "setalarm 25000" = some (.setPowerAlarm 25000) ∧
  Assembler.assemble "rstenergy" = some .resetEnergy ∧
  Assembler.assemble "update" = some .updateValues ∧
  Assembler.assemble "decode" = some .decode ∧
  Assembler.assemble "rd.v" = some .readVoltage ∧
  Assembler.assemble "rd.i" = some .readCurrent ∧
  Assembler.assemble "rd.p" = some .readPower ∧
  Assembler.assemble "rd.e" = some .readEnergy ∧
  Assembler.assemble "rd.f" = some .readFrequency ∧
  Assembler.assemble "rd.pf" = some .readPf ∧
  Assembler.assemble "rd.alm" = some .readAlarms ∧
  Assembler.assemble "getalarm" = some .getPowerAlarm ∧
  Assembler.assemble "rdinput 0x0000, 10" = Assembler.assemble "sendrd 0x04, 0x0000, 10" ∧
  Assembler.assemble "rdholding 1, 2" = Assembler.assemble "sendrd 0x03, 1, 2" ∧
  Assembler.assemble "bulkreq" = Assembler.assemble "sendrd 0x04, 0x0000, 10" ∧
  Assembler.assemble "enc.wr 1, 2, 3" = Assembler.assemble "enc8 1, 0x06, 2, 3" ∧
  Assembler.assemble "enc.rst 1" = Assembler.assemble "enc4 1, 0x42" ∧
  Assembler.assemble "recv.def 8" = Assembler.assemble "recv 8, 100" ∧
  Assembler.assemble "nop" = none

/-! ## The CRC and frames -/

/-- R100: every entry of the table is eight shifts of the reflected polynomial on its index. -/
def Obligations.CrcTableEntriesAreEightShifts : Prop := ∀ i : Byte, crcEntry i = crcShift8 (i.zeroExtend 16)

/-- R103: the table form of the CRC is the bitwise form, on every byte sequence. -/
def Obligations.TableCrcIsTheBitwiseCrc : Prop := ∀ bytes : List Byte, crc16 bytes = crc16Bitwise bytes

/-- Derived from R102 and R105 (R107 says it of every sequence; for the empty one R105's length rule makes `validate`
false, as vector VAL-3 records; log entry 11): a sequence followed by its CRC validates and leaves the residue 0. -/
def Obligations.BytesWithTheirCrcValidate : Prop :=
  (∀ bytes : List Byte, bytes ≠ [] → validate (bytes ++ crcBytes (crc16 bytes)) = true) ∧
  (∀ bytes : List Byte, crc16 (bytes ++ crcBytes (crc16 bytes)) = 0)

/-- R55, R105, R108: `validate` is true exactly for more than two bytes whose last two, read low byte first, are the CRC
of the others. -/
def Obligations.ValidateComparesTheTrailingCrc : Prop :=
  ∀ buf : List Byte, validate buf = true ↔
    2 < buf.length ∧
      crc16 (buf.take (buf.length - 2)) = buf.getD (buf.length - 1) 0 ++ buf.getD (buf.length - 2) 0

/-- R124: every frame the encoder builds passes the validator. -/
def Obligations.EncodedFramesValidate : Prop :=
  (∀ (a f : Byte) (r v : Half), validate (frame8 a f r v) = true) ∧ (∀ a f : Byte, validate (frame4 a f) = true)

/-- R78, R79, R120, R122: the bytes of both frames, at their positions. -/
def Obligations.FrameBytesAreAtTheirPositions : Prop :=
  (∀ (a f : Byte) (r v : Half),
    frame8 a f r v =
      let c := crc16 [a, f, r.extractLsb' 8 8, r.extractLsb' 0 8, v.extractLsb' 8 8, v.extractLsb' 0 8]
      [a, f, r.extractLsb' 8 8, r.extractLsb' 0 8, v.extractLsb' 8 8, v.extractLsb' 0 8, c.extractLsb' 0 8,
        c.extractLsb' 8 8]) ∧
  (∀ a f : Byte,
    frame4 a f = let c := crc16 [a, f]; [a, f, c.extractLsb' 0 8, c.extractLsb' 8 8])

/-- R104, R77: CRC16 over bytes the host buffer holds puts their CRC, zero-extended, in `RESULT` and changes nothing
else; a byte never written stops it with `UnwrittenRead`; a length over 32 is illegal. -/
def Obligations.Crc16ReportsTheCrcOfHbuf : Prop :=
  (∀ (s : State) (bytes : List Byte), bytes.length ≤ 32 → s.hbuf.holds 0 bytes →
    exec (.crc16 (BitVec.ofNat 16 bytes.length)) s =
      .next { s with result := (crc16 bytes).zeroExtend 32, status := .ok, latch := none }) ∧
  (∀ (s : State) (len : Half), len.toNat ≤ 32 → (∃ k, k < len.toNat ∧ s.hbuf.read k = none) →
    exec (.crc16 len) s = .fault .unwrittenRead) ∧
  (∀ (s : State) (len : Half), 32 < len.toNat →
    exec (.crc16 len) s = .next { s with status := .illegalCommand, latch := none })

/-- R106, R77: VALIDATE writes 0 without reading a byte for a length up to 2, else the verdict on the bytes the host
buffer holds; a byte never written stops it with `UnwrittenRead`; a length over 32 is illegal. -/
def Obligations.ValidateReportsTheVerdictOnHbuf : Prop :=
  (∀ (s : State) (len : Half), len.toNat ≤ 2 →
    exec (.validate len) s = .next { s with result := 0, status := .ok, latch := none }) ∧
  (∀ (s : State) (bytes : List Byte), 2 < bytes.length → bytes.length ≤ 32 → s.hbuf.holds 0 bytes →
    exec (.validate (BitVec.ofNat 16 bytes.length)) s =
      .next { s with result := if validate bytes = true then 1 else 0, status := .ok, latch := none }) ∧
  (∀ (s : State) (len : Half), 2 < len.toNat → len.toNat ≤ 32 → (∃ k, k < len.toNat ∧ s.hbuf.read k = none) →
    exec (.validate len) s = .fault .unwrittenRead) ∧
  (∀ (s : State) (len : Half), 32 < len.toNat →
    exec (.validate len) s = .next { s with status := .illegalCommand, latch := none })

/-- R121: ENCODE8 always completes with the frame in `HBUF[0..8)`, `HLEN = 8` and `OK`; every other byte of the host
buffer and everything else is unchanged. -/
def Obligations.Encode8PutsTheFrameInHbuf : Prop :=
  ∀ (s : State) (addr fc : Byte) (reg value : Half), ∃ t,
    exec (.encode8 addr fc reg value) s = .next t ∧
    t = { s with hbuf := t.hbuf, hlen := 8, status := .ok, latch := none } ∧
    t.hbuf.holds 0 (frame8 addr fc reg value) ∧ (∀ k, 8 ≤ k → t.hbuf.read k = s.hbuf.read k)

/-- R123: ENCODE4 always completes with the frame in `HBUF[0..4)`, `HLEN = 4` and `OK`; every other byte of the host
buffer and everything else is unchanged. -/
def Obligations.Encode4PutsTheFrameInHbuf : Prop :=
  ∀ (s : State) (addr fc : Byte), ∃ t,
    exec (.encode4 addr fc) s = .next t ∧
    t = { s with hbuf := t.hbuf, hlen := 4, status := .ok, latch := none } ∧
    t.hbuf.holds 0 (frame4 addr fc) ∧ (∀ k, 4 ≤ k → t.hbuf.read k = s.hbuf.read k)

/-! ## Receive -/

/-- R147, R149, R151, R152: for every way its loop can end, RECEIVE finishes with the length and code of `receive` in
`RESULT`, `HLEN` and `STATUS`, the accepted bytes in `HBUF[0..len)` and no other byte of it changed; what the Transport
has not delivered stays with it. A length over 32 is illegal. -/
def Obligations.ReceiveReturnsTheAcceptedBytes : Prop :=
  (∀ (s : State) (len timeout : Half) (bytes : List Byte) (ending : RxEnd) (later : List Time)
      (more : List RxAnswer), len.toNat ≤ 32 → s.env.delivers len.toNat timeout bytes ending later more →
    ∃ t, exec (.receive len timeout) s = .next t ∧
      t = { s with
            status := if ending = .error then .transportError else if validate bytes = true then .ok else .rxFail
            result := if ending ≠ .error ∧ validate bytes = true then BitVec.ofNat 32 bytes.length else 0
            hlen := if ending ≠ .error ∧ validate bytes = true then BitVec.ofNat 8 bytes.length else 0
            hbuf := t.hbuf, rxbuf := bytes, rxStart := t.rxStart, latch := none, env := t.env } ∧
      (if ending ≠ .error ∧ validate bytes = true then
        t.hbuf.holds 0 bytes ∧ ∀ k, bytes.length ≤ k → t.hbuf.read k = s.hbuf.read k
      else t.hbuf = s.hbuf) ∧
      t.env.clock = later ∧ t.env.rx = more ∧
      ∃ events, t.env.history = s.env.history ++ events ∧ events.countP Event.isTx = 0) ∧
  (∀ (s : State) (len timeout : Half), 32 < len.toNat →
    exec (.receive len timeout) s = .next { s with status := .illegalCommand, latch := none })

/-- R145, R147, R149, R152 (derived), whatever the Transport and the clock do: RECEIVE with a length in its bound completes.
On `OK` it has accepted 3 to `len` bytes that validate, and returns them and their count. `RX_FAIL` says that the
accumulated bytes do not validate, and `TRANSPORT_ERROR` that its last event is a read that returned `RxErr`, which no
other end has: the bytes accumulated until then are discarded, whether they validate or not. On both, it returns 0 and
leaves the host buffer as it was. -/
def Obligations.ReceiveReportsWhatItAccepted : Prop :=
  ∀ (s : State) (len timeout : Half), len.toNat ≤ 32 →
    ∃ t, exec (.receive len timeout) s = .next t ∧
      (t.status = .ok ∨ t.status = .rxFail ∨ t.status = .transportError) ∧
      (t.status = .ok →
        3 ≤ t.rxbuf.length ∧ t.rxbuf.length ≤ len.toNat ∧ validate t.rxbuf = true ∧
          t.result = BitVec.ofNat 32 t.rxbuf.length ∧ t.hlen = BitVec.ofNat 8 t.rxbuf.length ∧
          t.hbuf.holds 0 t.rxbuf) ∧
      (t.status ≠ .ok → t.result = 0 ∧ t.hlen = 0 ∧ t.hbuf = s.hbuf) ∧
      (t.status = .rxFail → validate t.rxbuf = false) ∧
      ∃ events, t.env.history = s.env.history ++ events ∧
        (t.status = .transportError ↔ ∃ earlier ms, events = earlier ++ [.rxRead ms .err])

/-- R146: `receive(n, t)` makes at most `n` reads that return a byte, at most one that returns nothing or an error,
and at most `n + 1` clock samples. -/
def Obligations.ReceiveMakesBoundedlyManyCalls : Prop :=
  ∀ (n : Nat) (t : Half) (s : State), ∃ events,
    (receive n t s).1.env.history = s.env.history ++ events ∧
    events.countP Event.isByte ≤ n ∧
    events.countP (fun e => e.isRx && !e.isByte) ≤ 1 ∧
    events.countP Event.isNow ≤ n + 1

/-- R145, R142 (derived): `receive(n, t)` begins with the sample `RX_START`. Each of its reads follows directly on a
sample at which fewer than `t` milliseconds have elapsed since `RX_START`, and asks for exactly the milliseconds of
`t` that remain, at least one and at most `t`. -/
def Obligations.ReceiveAsksForTheRemainingTime : Prop :=
  ∀ (n : Nat) (t : Half) (s : State), ∃ events,
    (receive n t s).1.rxStart = s.env.now ∧
    (receive n t s).1.env.history = s.env.history ++ .now s.env.now :: events ∧
    ∀ (before after : List Event) (ms : Time) (a : RxAnswer), events = before ++ .rxRead ms a :: after →
      ∃ earlier sample, before = earlier ++ [.now sample] ∧ sample - s.env.now < t.zeroExtend 64 ∧
        ms = t.zeroExtend 64 - (sample - s.env.now) ∧ 1 ≤ ms ∧ ms ≤ t.zeroExtend 64

/-- R150: expecting 0 bytes or allowing 0 ms always fails; expecting 1 or 2 bytes fails or ends with a transport
error; a length of 1 or 2 is never returned. -/
def Obligations.ReceiveCornerCases : Prop :=
  (∀ (t : Half) (s : State), (receive 0 t s).2 = ⟨0, .rxFail⟩) ∧
  (∀ (n : Nat) (s : State), (receive n 0 s).2 = ⟨0, .rxFail⟩) ∧
  (∀ (n : Nat) (t : Half) (s : State), n = 1 ∨ n = 2 →
    (receive n t s).2 = ⟨0, .rxFail⟩ ∨ (receive n t s).2 = ⟨0, .transportError⟩) ∧
  (∀ (n : Nat) (t : Half) (s : State), (receive n t s).2.len ≠ 1 ∧ (receive n t s).2.len ≠ 2)

/-! ## The dispatcher -/

/-- R161: the override is used exactly where it is present and in `0x01..0xF7`; else the session's address is. -/
def Obligations.OverrideAddressIsResolved : Prop :=
  ∀ (o : Bool) (a sess : Byte),
    resolveAddr o a sess = if o = true ∧ 0x01 ≤ a.toNat ∧ a.toNat ≤ 0xF7 then a else sess

/-- R162 to R165 and R160 with `V = 1`: a verified command whose frame the Transport takes finishes with the verdict
on the reply, whatever it is and however the receive ends; SET_ADDRESS alone moves the session's address, on `OK`
alone; the threshold is clamped to 25000; an address outside `0x01..0xF7` is a `RANGE_ERROR` before any I/O. -/
def Obligations.VerifiedCommandsJudgeTheEcho : Prop :=
  (∀ (s : State) (bytes : List Byte) (ending : RxEnd) (later : List Time) (more : List RxAnswer),
    s.env.takesFrame → s.env.delivers 8 100 bytes ending later more →
    (∀ reg value,
      completesVerified (.writeReg reg value) (frame8 s.sessAddr 0x06 reg value) s.sessAddr s bytes ending later more) ∧
    (∀ addr, 0x01 ≤ addr.toNat → addr.toNat ≤ 0xF7 →
      completesVerified (.setAddress addr) (frame8 s.sessAddr 0x06 Config.addrReg (addr.zeroExtend 16)) addr s bytes
        ending later more) ∧
    (∀ watts : Half,
      completesVerified (.setPowerAlarm watts)
        (frame8 s.sessAddr 0x06 Config.alarmThrReg (BitVec.ofNat 16 (min watts.toNat 25000))) s.sessAddr s bytes ending
        later more) ∧
    (∀ fc reg count o addr,
      completesVerified (.sendRead fc reg count true o addr) (frame8 (resolveAddr o addr s.sessAddr) fc reg count)
        s.sessAddr s bytes ending later more)) ∧
  (∀ (s : State) (addr : Byte), addr.toNat < 0x01 ∨ 0xF7 < addr.toNat →
    exec (.setAddress addr) s = .next { s with status := .rangeError, latch := none })

/-- R141, R224 (derived): where the Transport fails the write, every command that writes a frame finishes with
`TRANSPORT_ERROR` and receives nothing: the five commands of the dispatcher, and, where their sample finds no fresh
cache, UPDATE_VALUES and the eight accessors, which report on the snapshot there already was, if any. -/
def Obligations.FailedWriteEndsTheCommand : Prop :=
  (∀ s : State, s.env.failsFrame →
    (∀ reg value, failsToSend (.writeReg reg value) (frame8 s.sessAddr 0x06 reg value)
      (frame8 s.sessAddr 0x06 reg value) s) ∧
    (∀ addr, 0x01 ≤ addr.toNat → addr.toNat ≤ 0xF7 →
      failsToSend (.setAddress addr) (frame8 s.sessAddr 0x06 Config.addrReg (addr.zeroExtend 16))
        (frame8 s.sessAddr 0x06 Config.addrReg (addr.zeroExtend 16)) s) ∧
    (∀ watts : Half, failsToSend (.setPowerAlarm watts)
      (frame8 s.sessAddr 0x06 Config.alarmThrReg (BitVec.ofNat 16 (min watts.toNat 25000)))
      (frame8 s.sessAddr 0x06 Config.alarmThrReg (BitVec.ofNat 16 (min watts.toNat 25000))) s) ∧
    (∀ fc reg count v o addr, failsToSend (.sendRead fc reg count v o addr)
      (frame8 (resolveAddr o addr s.sessAddr) fc reg count) (frame8 (resolveAddr o addr s.sessAddr) fc reg count) s) ∧
    failsToSend .resetEnergy (frame4 s.sessAddr 0x42) s.txbuf s) ∧
  (∀ s : State, s.env.failsFrame → (s.hasSnap = false ∨ 200 ≤ s.env.now - s.lastReadMs) →
    failsToRefresh .updateValues s.result s.resultValid s ∧
    failsToRefresh .readVoltage (if s.hasSnap = true then s.snap.v.zeroExtend 32 else 0) s.hasSnap s ∧
    failsToRefresh .readCurrent (if s.hasSnap = true then s.snap.i else 0) s.hasSnap s ∧
    failsToRefresh .readPower (if s.hasSnap = true then s.snap.p else 0) s.hasSnap s ∧
    failsToRefresh .readEnergy (if s.hasSnap = true then s.snap.e else 0) s.hasSnap s ∧
    failsToRefresh .readFrequency (if s.hasSnap = true then s.snap.f.zeroExtend 32 else 0) s.hasSnap s ∧
    failsToRefresh .readPf (if s.hasSnap = true then s.snap.pf.zeroExtend 32 else 0) s.hasSnap s ∧
    failsToRefresh .readAlarms (if s.hasSnap = true then s.snap.alm.zeroExtend 32 else 0) s.hasSnap s ∧
    failsToRefresh .getPowerAlarm (if s.hasSnap = true ∧ s.snap.alm ≠ 0 then 1 else 0) s.hasSnap s)

/-- R160 with `V = 0` (derived): an unverified SEND_READ whose frame the Transport takes, whatever count it reports,
ends `OK` after one write and no other event; the reply stays with the Transport. -/
def Obligations.UnverifiedRequestOnlyWrites : Prop :=
  ∀ (s : State) (fc : Byte) (reg count : Half) (o : Bool) (addr : Byte), s.env.takesFrame →
    ∃ t, exec (.sendRead fc reg count false o addr) s = .next t ∧
      t = { s with
            status := .ok, txbuf := frame8 (resolveAddr o addr s.sessAddr) fc reg count, latch := none, env := t.env } ∧
      t.env.clock = s.env.clock ∧ t.env.rx = s.env.rx ∧
      ∃ k, k ≤ 8 ∧
        t.env.history = s.env.history ++ [.txWrite (frame8 (resolveAddr o addr s.sessAddr) fc reg count) (.ok k)]

/-- R166, R167: RESET_ENERGY sends the 4-byte frame and judges the reply by its length alone: empty or not validating
fails, exactly 5 bytes is rejected, every other validated length succeeds; the cache is untouched. -/
def Obligations.ResetEnergyJudgesTheReplyLength : Prop :=
  (∀ (s : State) (bytes : List Byte) (ending : RxEnd) (later : List Time) (more : List RxAnswer),
    s.env.takesFrame → s.env.delivers 5 100 bytes ending later more →
    ∃ t, exec .resetEnergy s = .next t ∧
      t = { s with
            status :=
              if ending = .error then .transportError
              else if validate bytes = false then .rxFail
              else if bytes.length = 5 then .replyRejected
              else .ok
            rxbuf := bytes, rxStart := t.rxStart, latch := none, env := t.env } ∧
      t.env.clock = later ∧ t.env.rx = more ∧
      ∃ k events, t.env.history = s.env.history ++ .txWrite (frame4 s.sessAddr 0x42) (.ok k) :: events ∧
        events.countP Event.isTx = 0) ∧
  (∀ s : State, s.env.failsFrame → failsToSend .resetEnergy (frame4 s.sessAddr 0x42) s.txbuf s)

/-- R222, R226 (derived): every command but the three that read the host buffer completes from every state, whatever the
environment answers. -/
def Obligations.OnlyHbufReadersCanStop : Prop :=
  ∀ (i : Instr) (s : State), (∀ len, i ≠ .crc16 len) → (∀ len, i ≠ .validate len) → i ≠ .decode →
    ∃ t, exec i s = .next t

/-- R168, R67: no command writes more than one frame. -/
def Obligations.EveryCommandWritesAtMostOneFrame : Prop :=
  ∀ (i : Instr) (s t : State), exec i s = .next t →
    ∃ events, t.env.history = s.env.history ++ events ∧ events.countP Event.isTx ≤ 1

/-- R223: every command that completes ends with one of the statuses its row of the table lists, and is no longer in
progress; an issued word that selects no command ends with `ILLEGAL_COMMAND`. -/
def Obligations.CommandsEndWithTheirStatuses : Prop :=
  (∀ (i : Instr) (s t : State), exec i s = .next t → mayEndWith i t.status = true ∧ t.latch = none) ∧
  (∀ (s : State) (w : CommandWord) (e : DecodeError), s.latch = some ⟨w, .start⟩ → decode w = .error e →
    ∃ t, runEngine s = .next t ∧ t.status = .illegalCommand ∧ t.latch = none)

/-- R27 (derived): the session's address changes only by a SET_ADDRESS that ends `OK`, to the address it names, which is
in `0x01..0xF7`. -/
def Obligations.OnlySetAddressMovesTheSession : Prop :=
  ∀ (i : Instr) (s t : State), exec i s = .next t →
    (∀ addr, i = .setAddress addr → t.status = .ok →
      t.sessAddr = addr ∧ 0x01 ≤ addr.toNat ∧ addr.toNat ≤ 0xF7) ∧
    (((∀ addr, i ≠ .setAddress addr) ∨ t.status ≠ .ok) → t.sessAddr = s.sessAddr)

/-! ## The decoder and the cache -/

/-- R191 to R193, R195: DECODE of bytes 3 to 22 of the host buffer fills the seven decode registers, 32-bit fields low
word first, and changes nothing else; a byte of those never written stops it with `UnwrittenRead`. -/
def Obligations.DecodeReadsTheTwentyDataBytes : Prop :=
  (∀ (s : State) (b3 b4 b5 b6 b7 b8 b9 b10 b11 b12 b13 b14 b15 b16 b17 b18 b19 b20 b21 b22 : Byte),
    s.hbuf.holds 3 [b3, b4, b5, b6, b7, b8, b9, b10, b11, b12, b13, b14, b15, b16, b17, b18, b19, b20, b21, b22] →
    exec .decode s = .next { s with
      dec :=
        { v := b3 ++ b4, i := b7 ++ b8 ++ b5 ++ b6, p := b11 ++ b12 ++ b9 ++ b10, e := b15 ++ b16 ++ b13 ++ b14
          f := b17 ++ b18, pf := b19 ++ b20, alm := b21 ++ b22 }
      decWritten := true, status := .ok, latch := none }) ∧
  (∀ s : State, (∃ k, 3 ≤ k ∧ k < 23 ∧ s.hbuf.read k = none) → exec .decode s = .fault .unwrittenRead)

/-- R194: the physical value of each raw field, as an exact rational. -/
def Obligations.PhysicalValuesAreScaledExactly : Prop :=
  ∀ d : Fields,
    d.physical .voltage = (d.v.toNat : ℚ) / 10 ∧ d.physical .current = (d.i.toNat : ℚ) / 1000 ∧
    d.physical .power = (d.p.toNat : ℚ) / 10 ∧ d.physical .energy = (d.e.toNat : ℚ) / 1000 ∧
    d.physical .frequency = (d.f.toNat : ℚ) / 10 ∧ d.physical .powerFactor = (d.pf.toNat : ℚ) / 100 ∧
    d.physical .alarms = (d.alm.toNat : ℚ)

/-- R196, R197: an UPDATE_VALUES whose sample finds the cache fresh ends `OK` after that one sample, with nothing of the
block changed but `STATUS`. -/
def Obligations.FreshUpdateDoesNoInput : Prop :=
  ∀ s : State, s.hasSnap = true → s.env.now - s.lastReadMs < 200 →
    ∃ t, exec .updateValues s = .next t ∧
      t = { s with status := .ok, latch := none, env := t.env } ∧
      t.env.history = s.env.history ++ [.now s.env.now] ∧ t.env.tx = s.env.tx ∧ t.env.rx = s.env.rx

/-- R197, R198, R199: an UPDATE_VALUES whose sample finds no fresh cache sends the bulk request to the session's
address. Exactly 25 validating bytes replace the snapshot, stamped with one more sample, the last event, taken after
all reads; anything else leaves the cache and the stamp untouched, takes no such sample, and is reported. -/
def Obligations.StaleUpdateStoresOnlyTheWholeResponse : Prop :=
  (∀ (s : State) (bytes : List Byte) (ending : RxEnd) (later : List Time) (more : List RxAnswer),
    (s.hasSnap = false ∨ 200 ≤ s.env.now - s.lastReadMs) → s.env.takesFrame →
    s.env.afterNow.delivers 25 100 bytes ending later more →
    ∃ t, exec .updateValues s = .next t ∧
      t = { s with
            status :=
              if ending = .error then .transportError
              else if validate bytes = false ∨ bytes.length ≠ 25 then .rxFail
              else .ok
            snap := if t.status = .ok then decodeBulk bytes else s.snap
            lastReadMs := if t.status = .ok then t.env.lastNow else s.lastReadMs
            hasSnap := if t.status = .ok then true else s.hasSnap
            txbuf := frame8 s.sessAddr 0x04 0x0000 10
            rxbuf := bytes, rxStart := t.rxStart, latch := none, env := t.env } ∧
      (t.status = .ok → s.env.now ≤ t.lastReadMs) ∧ t.env.rx = more ∧
      t.env.clock = (if t.status = .ok then later.tail else later) ∧
      ∃ k reads, t.env.history = s.env.history ++ .now s.env.now ::
          .txWrite (frame8 s.sessAddr 0x04 0x0000 10) (.ok k) ::
            (reads ++ if t.status = .ok then [.now t.lastReadMs] else []) ∧
        reads.countP Event.isTx = 0 ∧ reads.countP Event.isByte = bytes.length) ∧
  (∀ s : State, (s.hasSnap = false ∨ 200 ≤ s.env.now - s.lastReadMs) → s.env.failsFrame →
    ∃ t, exec .updateValues s = .next t ∧
      t = { s with
            status := .transportError, txbuf := frame8 s.sessAddr 0x04 0x0000 10, latch := none, env := t.env } ∧
      t.env.rx = s.env.rx ∧
      t.env.history = s.env.history ++ [.now s.env.now, .txWrite (frame8 s.sessAddr 0x04 0x0000 10) .err])

/-- R31, R199: the seven `SNAP_*`, `LAST_READ_MS` and `HAS_SNAP` are left as they were by every UPDATE_VALUES and
accessor that fails, whatever the environment does. -/
def Obligations.FailedUpdateKeepsTheCache : Prop :=
  ∀ (i : Instr) (s t : State), exec i s = .next t → t.status ≠ .ok →
    t.snap = s.snap ∧ t.lastReadMs = s.lastReadMs ∧ t.hasSnap = s.hasSnap

/-- R203: an UPDATE_VALUES that follows a successful one, with nothing between, inside the window makes no exchange and
leaves the snapshot as it is. -/
def Obligations.SecondUpdateInTheWindowIsServedFromTheCache : Prop :=
  ∀ s t : State, exec .updateValues s = .next t → t.status = .ok → t.env.now - t.lastReadMs < 200 →
    ∃ u, exec .updateValues t = .next u ∧
      u.snap = t.snap ∧ u.lastReadMs = t.lastReadMs ∧ u.status = .ok ∧
      u.env.history = t.env.history ++ [.now t.env.now]

/-- R200, R201: each accessor always completes. It does what UPDATE_VALUES does and then reports: the raw field,
zero-extended, with `RESULT_VALID = 1` where a snapshot exists; 0 with `RESULT_VALID = 0` where none does.
GET_POWER_ALARM reports 1 for a nonzero alarm word. -/
def Obligations.AccessorsReportTheSnapshot : Prop :=
  ∀ s : State, ∃ u, exec .updateValues s = .next u ∧
    exec .readVoltage s = .next { u with
      result := if u.hasSnap = true then u.snap.v.zeroExtend 32 else 0, resultValid := u.hasSnap } ∧
    exec .readCurrent s = .next { u with
      result := if u.hasSnap = true then u.snap.i else 0, resultValid := u.hasSnap } ∧
    exec .readPower s = .next { u with
      result := if u.hasSnap = true then u.snap.p else 0, resultValid := u.hasSnap } ∧
    exec .readEnergy s = .next { u with
      result := if u.hasSnap = true then u.snap.e else 0, resultValid := u.hasSnap } ∧
    exec .readFrequency s = .next { u with
      result := if u.hasSnap = true then u.snap.f.zeroExtend 32 else 0, resultValid := u.hasSnap } ∧
    exec .readPf s = .next { u with
      result := if u.hasSnap = true then u.snap.pf.zeroExtend 32 else 0, resultValid := u.hasSnap } ∧
    exec .readAlarms s = .next { u with
      result := if u.hasSnap = true then u.snap.alm.zeroExtend 32 else 0, resultValid := u.hasSnap } ∧
    exec .getPowerAlarm s = .next { u with
      result := if u.hasSnap = true ∧ u.snap.alm ≠ 0 then 1 else 0, resultValid := u.hasSnap }

/-- R255: while no snapshot has been stored, UPDATE_VALUES and every accessor make an exchange, and an accessor that
leaves none stored reports "no data" whatever its status. -/
def Obligations.NoDataBeforeTheFirstSnapshot : Prop :=
  ∀ (i : Instr) (s t : State),
    i ∈ [.updateValues, .readVoltage, .readCurrent, .readPower, .readEnergy, .readFrequency, .readPf, .readAlarms,
      .getPowerAlarm] →
    s.hasSnap = false → exec i s = .next t →
    (i ≠ .updateValues → t.hasSnap = false → t.resultValid = false) ∧
    ∃ answer events, t.env.history = s.env.history ++ .now s.env.now ::
      .txWrite (frame8 s.sessAddr 0x04 0x0000 10) answer :: events

/-- R29, R66 (derived): a stored snapshot is never dropped by a command, and only UPDATE_VALUES and the accessors
replace one. -/
def Obligations.OnlyUpdatesReplaceTheSnapshot : Prop :=
  ∀ (i : Instr) (s t : State), exec i s = .next t →
    (s.hasSnap = true → t.hasSnap = true) ∧
    (i ∉ [.updateValues, .readVoltage, .readCurrent, .readPower, .readEnergy, .readFrequency, .readPf, .readAlarms,
      .getPowerAlarm] →
      t.snap = s.snap ∧ t.lastReadMs = s.lastReadMs ∧ t.hasSnap = s.hasSnap)

/-! ## Frames -/

/-- R104, R106 (derived): CRC16 and VALIDATE change `STATUS` and `RESULT` and nothing else: no byte of the host
buffer, no other register, no hidden buffer, no event. -/
def Obligations.HbufReadersWriteResultOnly : Prop :=
  ∀ (i : Instr) (s t : State), (∃ len, i = .crc16 len ∨ i = .validate len) → exec i s = .next t →
    t = { s with status := t.status, result := t.result, latch := none } ∧ ∀ k, t.hbuf.read k = s.hbuf.read k

/-- R149 (derived): RECEIVE changes `STATUS`, `RESULT`, `HLEN`, the receive buffers, the environment and the bytes
`HBUF[0..RESULT)`, and nothing else; it writes no frame. -/
def Obligations.ReceiveStoresOnlyTheAcceptedBytes : Prop :=
  ∀ (len timeout : Half) (s t : State), exec (.receive len timeout) s = .next t →
    t = { s with
          status := t.status, result := t.result, hlen := t.hlen, hbuf := t.hbuf, rxbuf := t.rxbuf
          rxStart := t.rxStart, latch := none, env := t.env } ∧
    (∀ k, t.status = .ok → t.result.toNat ≤ k → t.hbuf.read k = s.hbuf.read k) ∧
    (t.status ≠ .ok → ∀ k, t.hbuf.read k = s.hbuf.read k) ∧
    ∃ events, t.env.history = s.env.history ++ events ∧ events.countP Event.isTx = 0

/-- R160, R163 to R166 (derived): the commands of the dispatcher change `STATUS`, the hidden buffers and the
environment, and SET_ADDRESS the session's address; no other register and no byte of the host buffer. -/
def Obligations.DispatcherCommandsWriteStatusOnly : Prop :=
  ∀ (i : Instr) (s t : State),
    ((∃ fc reg count v o addr, i = .sendRead fc reg count v o addr) ∨ (∃ reg value, i = .writeReg reg value) ∨
      (∃ addr, i = .setAddress addr) ∨ (∃ watts, i = .setPowerAlarm watts) ∨ i = .resetEnergy) →
    exec i s = .next t →
    t = { s with
          status := t.status, sessAddr := t.sessAddr, txbuf := t.txbuf, rxbuf := t.rxbuf, rxStart := t.rxStart
          latch := none, env := t.env } ∧
    ((∀ addr, i ≠ .setAddress addr) → t.sessAddr = s.sessAddr) ∧ ∀ k, t.hbuf.read k = s.hbuf.read k

/-- R197, R200, R201 (derived): UPDATE_VALUES changes `STATUS`, the cache, the hidden buffers and the environment; the
accessors `RESULT` and `RESULT_VALID` too; no other register and no byte of the host buffer. -/
def Obligations.CacheCommandsKeepTheRest : Prop :=
  ∀ (i : Instr) (s t : State),
    i ∈ [.updateValues, .readVoltage, .readCurrent, .readPower, .readEnergy, .readFrequency, .readPf, .readAlarms,
      .getPowerAlarm] →
    exec i s = .next t →
    t = { s with
          status := t.status, result := t.result, resultValid := t.resultValid, snap := t.snap
          lastReadMs := t.lastReadMs, hasSnap := t.hasSnap, txbuf := t.txbuf, rxbuf := t.rxbuf, rxStart := t.rxStart
          latch := none, env := t.env } ∧
    (i = .updateValues → t.result = s.result ∧ t.resultValid = s.resultValid) ∧
    ∀ k, t.hbuf.read k = s.hbuf.read k

/-- Derived from R40 and R41, which make the host an agent of its own; the fields for what the host does next and for
what its last read returned are the model's (log entry 8): no command changes either. -/
def Obligations.CommandsLeaveTheHostAlone : Prop :=
  ∀ (i : Instr) (s t : State), exec i s = .next t →
    t.env.inputs = s.env.inputs ∧ t.env.hostData = s.env.hostData

/-! ## The machine -/

/-- R251, R253 (with R22): what reset leaves; no register without a value can be read, and no byte of the host
buffer. -/
def Obligations.ResetLeavesTheResetValues : Prop :=
  State.reset.status.code = 0x00 ∧ State.reset.flags = 0x00 ∧ State.reset.result = 0 ∧ State.reset.hlen = 0x00 ∧
  State.reset.sessAddr = sanitize Config.initAddr ∧ State.reset.lastReadMs = 0 ∧ State.reset.rxbuf.length = 0 ∧
  State.reset.latch = none ∧
  (∀ n : Byte, (6 ≤ n.toNat ∧ n.toNat ≤ 0x0C) ∨ (0x10 ≤ n.toNat ∧ n.toNat ≤ 0x16) →
    State.reset.readReg n = .unwritten) ∧
  (∀ k, State.reset.hbuf.read k = none) ∧
  (∀ a : Byte, sanitize a = if 0x01 ≤ a.toNat ∧ a.toNat ≤ 0xF8 then a else 0xF8)

/-- Derived from R251 and R252: the RESET input puts every register at its reset value and abandons the command in
progress with its staged writes; the events already made, and what the Transport and the clock will answer, stay. The
model's own in this equation: the inputs (log entry 8), the values of `SNAP_*` and `DEC_*`, which no read shows (log
entry 3), those of `TXBUF` and `RX_START` (log entry 5), and that the last clock sample stays (log entry 14). -/
def Obligations.ResetInputKeepsTheEnvironment : Prop :=
  ∀ (s : State) (rest : List Input), s.env.inputs = .reset :: rest →
    step s = .next { State.reset with env := { s.env with inputs := rest } }

/-- R11, R20, R37, R75, R89 (derived; the inputs are the model's, log entry 8, and where the tests between two
primitives fall is, log entry 13). Where no input is left, and where the host waits: an issued word that decodes to a
command runs as that command in the next step; a command stopped at a later phase is resumed there; any other block
runs its engine as it stands. The input `tick` makes one micro-step of the command in progress and keeps its new phase
in the latch; it ends with the fault, or with the state after the finish, where the micro-step does; it completes a
word that selects no command; and it leaves an idle block alone. -/
def Obligations.IssuedWordRunsItsCommand : Prop :=
  (∀ (s : State) (w : CommandWord) (i : Instr), s.latch = some ⟨w, .start⟩ → decode w = .ok i →
    (s.env.inputs = [] → step s = exec i s) ∧
    (∀ rest, s.env.inputs = .wait :: rest → step s = exec i { s with env := { s.env with inputs := rest } })) ∧
  (∀ s : State,
    (s.env.inputs = [] → step s = runEngine s) ∧
    (∀ rest, s.env.inputs = .wait :: rest → step s = runEngine { s with env := { s.env with inputs := rest } })) ∧
  (∀ (s : State) (w : CommandWord) (p : Phase) (i : Instr), s.latch = some ⟨w, p⟩ → p ≠ .start → decode w = .ok i →
    (s.env.inputs = [] → step s = resumeCommand i p s) ∧
    (∀ rest, s.env.inputs = .wait :: rest →
      step s = resumeCommand i p { s with env := { s.env with inputs := rest } })) ∧
  (∀ (s : State) (rest : List Input), s.env.inputs = .tick :: rest →
    (∀ (w : CommandWord) (p : Phase) (i : Instr), s.latch = some ⟨w, p⟩ → decode w = .ok i →
      (∀ t q, advance i p { s with env := { s.env with inputs := rest } } = .ok (t, some q) →
        step s = .next { t with latch := some ⟨w, q⟩ }) ∧
      (∀ t, advance i p { s with env := { s.env with inputs := rest } } = .ok (t, none) → step s = .next t) ∧
      (∀ f, advance i p { s with env := { s.env with inputs := rest } } = .error f → step s = .fault f)) ∧
    (∀ (w : CommandWord) (p : Phase) (e : DecodeError), s.latch = some ⟨w, p⟩ → decode w = .error e →
      step s = .next { s with
        status := .illegalCommand, latch := none, env := { s.env with inputs := rest } }) ∧
    (s.latch = none → step s = .next { s with env := { s.env with inputs := rest } }))

/-- R52, R89, R226 (derived; the inputs are the model's, log entry 8, and busy is an occupied latch, log entry 6): the
four host actions. An issue while idle latches the word and sets `BUSY`; a buffer access while idle inside the 32
bytes writes or returns the byte; both are refused as `HostProtocol` while busy, and a buffer access outside the 32
bytes always; a buffer read of a byte never written is the fault. -/
def Obligations.HostPortActions : Prop :=
  ∀ (s : State) (rest : List Input),
    (∀ w, s.env.inputs = .host (.issue w) :: rest →
      (s.latch = none → step s = .next { s with
        latch := some ⟨w, .start⟩, env := { s.env with inputs := rest } }) ∧
      (s.latch ≠ none → step s = .refused (.hostProtocol .issueWhileBusy))) ∧
    (∀ k b, s.env.inputs = .host (.writeBuf k b) :: rest →
      (s.latch = none → k < 32 → ∃ t, step s = .next t ∧
        t = { s with hbuf := t.hbuf, env := { s.env with inputs := rest } } ∧ t.hbuf.read k = some b ∧
        ∀ j, j ≠ k → t.hbuf.read j = s.hbuf.read j) ∧
      (s.latch ≠ none → step s = .refused (.hostProtocol .bufferWhileBusy)) ∧
      (s.latch = none → 32 ≤ k → step s = .refused (.hostProtocol .bufferIndex))) ∧
    (∀ k, s.env.inputs = .host (.readBuf k) :: rest →
      (∀ b, s.latch = none → k < 32 → s.hbuf.read k = some b →
        step s = .next { s with env := { s.env with inputs := rest, hostData := some (b.zeroExtend 64) } }) ∧
      (s.latch = none → k < 32 → s.hbuf.read k = none → step s = .fault .unwrittenRead) ∧
      (s.latch ≠ none → step s = .refused (.hostProtocol .bufferWhileBusy)) ∧
      (s.latch = none → 32 ≤ k → step s = .refused (.hostProtocol .bufferIndex)))

/-- R22, R60, R89, R221 (derived; the inputs are the model's, log entry 8): a register read returns the whole register
by number, at any time, and changes nothing of the block; `SNAP_*` can be read only while a snapshot exists and
`DEC_*` only after a DECODE, a reserved number never. The value of `STATUS` is one of the seven codes of R221. -/
def Obligations.HostRegisterReads : Prop :=
  (∀ (s : State) (rest : List Input) (n : Byte), s.env.inputs = .host (.readReg n) :: rest →
    (∀ v : BitVec 64,
      (n = 0x00 ∧ v = s.status.code.zeroExtend 64) ∨ (n = 0x01 ∧ v = s.flags.zeroExtend 64) ∨
      (n = 0x02 ∧ v = s.result.zeroExtend 64) ∨ (n = 0x03 ∧ v = s.hlen.zeroExtend 64) ∨
      (n = 0x04 ∧ v = s.sessAddr.zeroExtend 64) ∨ (n = 0x05 ∧ v = s.lastReadMs) ∨
      (s.hasSnap = true ∧
        ((n = 0x06 ∧ v = s.snap.v.zeroExtend 64) ∨ (n = 0x07 ∧ v = s.snap.i.zeroExtend 64) ∨
          (n = 0x08 ∧ v = s.snap.p.zeroExtend 64) ∨ (n = 0x09 ∧ v = s.snap.e.zeroExtend 64) ∨
          (n = 0x0A ∧ v = s.snap.f.zeroExtend 64) ∨ (n = 0x0B ∧ v = s.snap.pf.zeroExtend 64) ∨
          (n = 0x0C ∧ v = s.snap.alm.zeroExtend 64))) ∨
      (s.decWritten = true ∧
        ((n = 0x10 ∧ v = s.dec.v.zeroExtend 64) ∨ (n = 0x11 ∧ v = s.dec.i.zeroExtend 64) ∨
          (n = 0x12 ∧ v = s.dec.p.zeroExtend 64) ∨ (n = 0x13 ∧ v = s.dec.e.zeroExtend 64) ∨
          (n = 0x14 ∧ v = s.dec.f.zeroExtend 64) ∨ (n = 0x15 ∧ v = s.dec.pf.zeroExtend 64) ∨
          (n = 0x16 ∧ v = s.dec.alm.zeroExtend 64))) →
      step s = .next { s with env := { s.env with inputs := rest, hostData := some v } }) ∧
    ((s.hasSnap = false ∧ 0x06 ≤ n.toNat ∧ n.toNat ≤ 0x0C) ∨
      (s.decWritten = false ∧ 0x10 ≤ n.toNat ∧ n.toNat ≤ 0x16) → step s = .fault .unwrittenRead) ∧
    ((0x0D ≤ n.toNat ∧ n.toNat ≤ 0x0F) ∨ 0x17 ≤ n.toNat →
      step s = .refused (.hostProtocol .reservedRegister))) ∧
  Status.ok.code = 0x00 ∧ Status.rangeError.code = 0x01 ∧ Status.transportError.code = 0x02 ∧
  Status.rxFail.code = 0x03 ∧ Status.verifyError.code = 0x04 ∧ Status.replyRejected.code = 0x05 ∧
  Status.illegalCommand.code = 0x06

/-- R24, R37 (derived): the bits of `FLAGS`. That `BUSY`, bit 0, is an occupied command latch is deduced from R24, R37
and R222 (log entry 6). -/
def Obligations.FlagsBits : Prop :=
  ∀ s : State,
    s.flags.getLsbD 0 = s.latch.isSome ∧ s.flags.getLsbD 1 = s.resultValid ∧ s.flags.getLsbD 2 = s.hasSnap ∧
    ∀ k, 3 ≤ k → s.flags.getLsbD k = false

/-- R235 (derived): an idle block with no input left keeps all its state. That a step without an input lets the engine
run, and only that, is the model's choice (log entry 8). -/
def Obligations.IdleBlockKeepsItsState : Prop :=
  ∀ s : State, s.env.inputs = [] → s.latch = none → step s = .next s

/-- The invariant and the clock's order hold at reset (with R253: whatever address the platform supplies). The reset
values of `TXBUF` and `RX_START` and the last sample 0 are the model's (log entries 2 and 5). -/
def Obligations.ResetMeetsTheInvariant : Prop := State.reset.Inv ∧ State.reset.env.clockOk

/-- Every step keeps the invariant: `HBUF` canonical and within its 32 bytes (R33), `SESS_ADDR` in `0x01..0xF8` (R27,
R169), `HLEN` at most 32 (R26), the buffers within their sizes (R34, R35), no stored time in the future. For the RESET
input it rests on the model's reset values of `TXBUF` and `RX_START` (log entry 5). -/
def Obligations.EveryStepKeepsTheInvariant : Prop := ∀ s t : State, s.Inv → step s = .next t → t.Inv

/-- R144 (derived): whatever the clock offers, no step makes the samples of the history decrease. The clamp on what the
clock offers, and that the last sample outlives a RESET, are the model's (log entries 2 and 14). -/
def Obligations.EveryStepKeepsTheClockOrdered : Prop :=
  ∀ s t : State, s.env.clockOk → step s = .next t → t.env.clockOk ∧ s.env.lastNow ≤ t.env.lastNow

/-- R62, R252 (derived): a step adds events at the end of the history and takes none back, also where RESET abandons a
command (log entry 14). -/
def Obligations.EveryStepOnlyAddsEvents : Prop :=
  ∀ s t : State, step s = .next t → ∃ events, t.env.history = s.env.history ++ events

/-- R11, R40 (derived): a command taken primitive by primitive, each one micro-step, from its first to its finish, ends
exactly as its meaning says. Where the tests between two primitives fall is the model's (log entry 13). -/
def Obligations.MicroStepsEndAsTheMeaningSays : Prop :=
  ∀ (i : Instr) (s : State), resumeCommand i .start s = exec i s

/-- R11, R40, R59 (derived): a command stopped after any number of micro-steps, between any two primitives of R11,
by a host read for instance, and then taken to its finish ends exactly as if it had not been stopped. Where the
tests between two primitives fall is the model's (log entry 13). -/
def Obligations.StoppedCommandsEndTheSame : Prop :=
  ∀ (k : Nat) (i : Instr) (s s' : State) (p : Phase), advanceFor k i .start s = .ok (s', some p) →
    resumeCommand i p s' = exec i s

/-- R59 (derived): until its finish, a command leaves every host-visible register and every byte of the host buffer as
they were. It speaks of every point between two micro-steps (R11; where the tests fall is the model's, log entry 13)
and rests on the record of the staged writes (log entry 7, DEDUCED). -/
def Obligations.NothingShowsBeforeTheFinish : Prop :=
  ∀ (k : Nat) (i : Instr) (s s' : State) (p : Phase), advanceFor k i .start s = .ok (s', some p) →
    s' = { s with txbuf := s'.txbuf, rxbuf := s'.rxbuf, rxStart := s'.rxStart, env := s'.env } ∧
    ∀ n, s'.readReg n = s.readReg n
end

