-- ==== Sys2Proof/Laws/State.lean ====
section
/-!
SUPPORT. One lemma per field of the state per update, true by definition, so that no later proof unfolds a record update.
-/

namespace Sys2Proof.Machine

/-! ## afterNow -/

@[simp] theorem State.afterNow_status (s : State) : s.afterNow.status = s.status := rfl
@[simp] theorem State.afterNow_resultValid (s : State) : s.afterNow.resultValid = s.resultValid := rfl
@[simp] theorem State.afterNow_hasSnap (s : State) : s.afterNow.hasSnap = s.hasSnap := rfl
@[simp] theorem State.afterNow_result (s : State) : s.afterNow.result = s.result := rfl
@[simp] theorem State.afterNow_hlen (s : State) : s.afterNow.hlen = s.hlen := rfl
@[simp] theorem State.afterNow_sessAddr (s : State) : s.afterNow.sessAddr = s.sessAddr := rfl
@[simp] theorem State.afterNow_lastReadMs (s : State) : s.afterNow.lastReadMs = s.lastReadMs := rfl
@[simp] theorem State.afterNow_snap (s : State) : s.afterNow.snap = s.snap := rfl
@[simp] theorem State.afterNow_dec (s : State) : s.afterNow.dec = s.dec := rfl
@[simp] theorem State.afterNow_decWritten (s : State) : s.afterNow.decWritten = s.decWritten := rfl
@[simp] theorem State.afterNow_hbuf (s : State) : s.afterNow.hbuf = s.hbuf := rfl
@[simp] theorem State.afterNow_rxbuf (s : State) : s.afterNow.rxbuf = s.rxbuf := rfl
@[simp] theorem State.afterNow_txbuf (s : State) : s.afterNow.txbuf = s.txbuf := rfl
@[simp] theorem State.afterNow_rxStart (s : State) : s.afterNow.rxStart = s.rxStart := rfl
@[simp] theorem State.afterNow_latch (s : State) : s.afterNow.latch = s.latch := rfl
@[simp] theorem State.afterNow_env (s : State) : s.afterNow.env = s.env.afterNow := rfl

/-! ## afterTx -/

@[simp] theorem State.afterTx_status (s : State) (bytes : List Byte) : (s.afterTx bytes).status = s.status := rfl
@[simp] theorem State.afterTx_resultValid (s : State) (bytes : List Byte) : (s.afterTx bytes).resultValid = s.resultValid := rfl
@[simp] theorem State.afterTx_hasSnap (s : State) (bytes : List Byte) : (s.afterTx bytes).hasSnap = s.hasSnap := rfl
@[simp] theorem State.afterTx_result (s : State) (bytes : List Byte) : (s.afterTx bytes).result = s.result := rfl
@[simp] theorem State.afterTx_hlen (s : State) (bytes : List Byte) : (s.afterTx bytes).hlen = s.hlen := rfl
@[simp] theorem State.afterTx_sessAddr (s : State) (bytes : List Byte) : (s.afterTx bytes).sessAddr = s.sessAddr := rfl
@[simp] theorem State.afterTx_lastReadMs (s : State) (bytes : List Byte) : (s.afterTx bytes).lastReadMs = s.lastReadMs := rfl
@[simp] theorem State.afterTx_snap (s : State) (bytes : List Byte) : (s.afterTx bytes).snap = s.snap := rfl
@[simp] theorem State.afterTx_dec (s : State) (bytes : List Byte) : (s.afterTx bytes).dec = s.dec := rfl
@[simp] theorem State.afterTx_decWritten (s : State) (bytes : List Byte) : (s.afterTx bytes).decWritten = s.decWritten := rfl
@[simp] theorem State.afterTx_hbuf (s : State) (bytes : List Byte) : (s.afterTx bytes).hbuf = s.hbuf := rfl
@[simp] theorem State.afterTx_rxbuf (s : State) (bytes : List Byte) : (s.afterTx bytes).rxbuf = s.rxbuf := rfl
@[simp] theorem State.afterTx_txbuf (s : State) (bytes : List Byte) : (s.afterTx bytes).txbuf = s.txbuf := rfl
@[simp] theorem State.afterTx_rxStart (s : State) (bytes : List Byte) : (s.afterTx bytes).rxStart = s.rxStart := rfl
@[simp] theorem State.afterTx_latch (s : State) (bytes : List Byte) : (s.afterTx bytes).latch = s.latch := rfl
@[simp] theorem State.afterTx_env (s : State) (bytes : List Byte) : (s.afterTx bytes).env = s.env.afterTx bytes := rfl

/-! ## afterRx -/

@[simp] theorem State.afterRx_status (s : State) (ms : Time) : (s.afterRx ms).status = s.status := rfl
@[simp] theorem State.afterRx_resultValid (s : State) (ms : Time) : (s.afterRx ms).resultValid = s.resultValid := rfl
@[simp] theorem State.afterRx_hasSnap (s : State) (ms : Time) : (s.afterRx ms).hasSnap = s.hasSnap := rfl
@[simp] theorem State.afterRx_result (s : State) (ms : Time) : (s.afterRx ms).result = s.result := rfl
@[simp] theorem State.afterRx_hlen (s : State) (ms : Time) : (s.afterRx ms).hlen = s.hlen := rfl
@[simp] theorem State.afterRx_sessAddr (s : State) (ms : Time) : (s.afterRx ms).sessAddr = s.sessAddr := rfl
@[simp] theorem State.afterRx_lastReadMs (s : State) (ms : Time) : (s.afterRx ms).lastReadMs = s.lastReadMs := rfl
@[simp] theorem State.afterRx_snap (s : State) (ms : Time) : (s.afterRx ms).snap = s.snap := rfl
@[simp] theorem State.afterRx_dec (s : State) (ms : Time) : (s.afterRx ms).dec = s.dec := rfl
@[simp] theorem State.afterRx_decWritten (s : State) (ms : Time) : (s.afterRx ms).decWritten = s.decWritten := rfl
@[simp] theorem State.afterRx_hbuf (s : State) (ms : Time) : (s.afterRx ms).hbuf = s.hbuf := rfl
@[simp] theorem State.afterRx_rxbuf (s : State) (ms : Time) : (s.afterRx ms).rxbuf = s.rxbuf := rfl
@[simp] theorem State.afterRx_txbuf (s : State) (ms : Time) : (s.afterRx ms).txbuf = s.txbuf := rfl
@[simp] theorem State.afterRx_rxStart (s : State) (ms : Time) : (s.afterRx ms).rxStart = s.rxStart := rfl
@[simp] theorem State.afterRx_latch (s : State) (ms : Time) : (s.afterRx ms).latch = s.latch := rfl
@[simp] theorem State.afterRx_env (s : State) (ms : Time) : (s.afterRx ms).env = s.env.afterRx ms := rfl

/-! ## loadTx -/

@[simp] theorem State.loadTx_status (s : State) (frame : List Byte) : (s.loadTx frame).status = s.status := rfl
@[simp] theorem State.loadTx_resultValid (s : State) (frame : List Byte) : (s.loadTx frame).resultValid = s.resultValid := rfl
@[simp] theorem State.loadTx_hasSnap (s : State) (frame : List Byte) : (s.loadTx frame).hasSnap = s.hasSnap := rfl
@[simp] theorem State.loadTx_result (s : State) (frame : List Byte) : (s.loadTx frame).result = s.result := rfl
@[simp] theorem State.loadTx_hlen (s : State) (frame : List Byte) : (s.loadTx frame).hlen = s.hlen := rfl
@[simp] theorem State.loadTx_sessAddr (s : State) (frame : List Byte) : (s.loadTx frame).sessAddr = s.sessAddr := rfl
@[simp] theorem State.loadTx_lastReadMs (s : State) (frame : List Byte) : (s.loadTx frame).lastReadMs = s.lastReadMs := rfl
@[simp] theorem State.loadTx_snap (s : State) (frame : List Byte) : (s.loadTx frame).snap = s.snap := rfl
@[simp] theorem State.loadTx_dec (s : State) (frame : List Byte) : (s.loadTx frame).dec = s.dec := rfl
@[simp] theorem State.loadTx_decWritten (s : State) (frame : List Byte) : (s.loadTx frame).decWritten = s.decWritten := rfl
@[simp] theorem State.loadTx_hbuf (s : State) (frame : List Byte) : (s.loadTx frame).hbuf = s.hbuf := rfl
@[simp] theorem State.loadTx_rxbuf (s : State) (frame : List Byte) : (s.loadTx frame).rxbuf = s.rxbuf := rfl
@[simp] theorem State.loadTx_txbuf (s : State) (frame : List Byte) : (s.loadTx frame).txbuf = frame := rfl
@[simp] theorem State.loadTx_rxStart (s : State) (frame : List Byte) : (s.loadTx frame).rxStart = s.rxStart := rfl
@[simp] theorem State.loadTx_latch (s : State) (frame : List Byte) : (s.loadTx frame).latch = s.latch := rfl
@[simp] theorem State.loadTx_env (s : State) (frame : List Byte) : (s.loadTx frame).env = s.env := rfl

/-! ## pushRx -/

@[simp] theorem State.pushRx_status (s : State) (b : Byte) : (s.pushRx b).status = s.status := rfl
@[simp] theorem State.pushRx_resultValid (s : State) (b : Byte) : (s.pushRx b).resultValid = s.resultValid := rfl
@[simp] theorem State.pushRx_hasSnap (s : State) (b : Byte) : (s.pushRx b).hasSnap = s.hasSnap := rfl
@[simp] theorem State.pushRx_result (s : State) (b : Byte) : (s.pushRx b).result = s.result := rfl
@[simp] theorem State.pushRx_hlen (s : State) (b : Byte) : (s.pushRx b).hlen = s.hlen := rfl
@[simp] theorem State.pushRx_sessAddr (s : State) (b : Byte) : (s.pushRx b).sessAddr = s.sessAddr := rfl
@[simp] theorem State.pushRx_lastReadMs (s : State) (b : Byte) : (s.pushRx b).lastReadMs = s.lastReadMs := rfl
@[simp] theorem State.pushRx_snap (s : State) (b : Byte) : (s.pushRx b).snap = s.snap := rfl
@[simp] theorem State.pushRx_dec (s : State) (b : Byte) : (s.pushRx b).dec = s.dec := rfl
@[simp] theorem State.pushRx_decWritten (s : State) (b : Byte) : (s.pushRx b).decWritten = s.decWritten := rfl
@[simp] theorem State.pushRx_hbuf (s : State) (b : Byte) : (s.pushRx b).hbuf = s.hbuf := rfl
@[simp] theorem State.pushRx_rxbuf (s : State) (b : Byte) : (s.pushRx b).rxbuf = s.rxbuf ++ [b] := rfl
@[simp] theorem State.pushRx_txbuf (s : State) (b : Byte) : (s.pushRx b).txbuf = s.txbuf := rfl
@[simp] theorem State.pushRx_rxStart (s : State) (b : Byte) : (s.pushRx b).rxStart = s.rxStart := rfl
@[simp] theorem State.pushRx_latch (s : State) (b : Byte) : (s.pushRx b).latch = s.latch := rfl
@[simp] theorem State.pushRx_env (s : State) (b : Byte) : (s.pushRx b).env = s.env := rfl

/-! ## clearRx -/

@[simp] theorem State.clearRx_status (s : State) : s.clearRx.status = s.status := rfl
@[simp] theorem State.clearRx_resultValid (s : State) : s.clearRx.resultValid = s.resultValid := rfl
@[simp] theorem State.clearRx_hasSnap (s : State) : s.clearRx.hasSnap = s.hasSnap := rfl
@[simp] theorem State.clearRx_result (s : State) : s.clearRx.result = s.result := rfl
@[simp] theorem State.clearRx_hlen (s : State) : s.clearRx.hlen = s.hlen := rfl
@[simp] theorem State.clearRx_sessAddr (s : State) : s.clearRx.sessAddr = s.sessAddr := rfl
@[simp] theorem State.clearRx_lastReadMs (s : State) : s.clearRx.lastReadMs = s.lastReadMs := rfl
@[simp] theorem State.clearRx_snap (s : State) : s.clearRx.snap = s.snap := rfl
@[simp] theorem State.clearRx_dec (s : State) : s.clearRx.dec = s.dec := rfl
@[simp] theorem State.clearRx_decWritten (s : State) : s.clearRx.decWritten = s.decWritten := rfl
@[simp] theorem State.clearRx_hbuf (s : State) : s.clearRx.hbuf = s.hbuf := rfl
@[simp] theorem State.clearRx_rxbuf (s : State) : s.clearRx.rxbuf = [] := rfl
@[simp] theorem State.clearRx_txbuf (s : State) : s.clearRx.txbuf = s.txbuf := rfl
@[simp] theorem State.clearRx_rxStart (s : State) : s.clearRx.rxStart = s.rxStart := rfl
@[simp] theorem State.clearRx_latch (s : State) : s.clearRx.latch = s.latch := rfl
@[simp] theorem State.clearRx_env (s : State) : s.clearRx.env = s.env := rfl

/-! ## setStart -/

@[simp] theorem State.setStart_status (s : State) (t : Time) : (s.setStart t).status = s.status := rfl
@[simp] theorem State.setStart_resultValid (s : State) (t : Time) : (s.setStart t).resultValid = s.resultValid := rfl
@[simp] theorem State.setStart_hasSnap (s : State) (t : Time) : (s.setStart t).hasSnap = s.hasSnap := rfl
@[simp] theorem State.setStart_result (s : State) (t : Time) : (s.setStart t).result = s.result := rfl
@[simp] theorem State.setStart_hlen (s : State) (t : Time) : (s.setStart t).hlen = s.hlen := rfl
@[simp] theorem State.setStart_sessAddr (s : State) (t : Time) : (s.setStart t).sessAddr = s.sessAddr := rfl
@[simp] theorem State.setStart_lastReadMs (s : State) (t : Time) : (s.setStart t).lastReadMs = s.lastReadMs := rfl
@[simp] theorem State.setStart_snap (s : State) (t : Time) : (s.setStart t).snap = s.snap := rfl
@[simp] theorem State.setStart_dec (s : State) (t : Time) : (s.setStart t).dec = s.dec := rfl
@[simp] theorem State.setStart_decWritten (s : State) (t : Time) : (s.setStart t).decWritten = s.decWritten := rfl
@[simp] theorem State.setStart_hbuf (s : State) (t : Time) : (s.setStart t).hbuf = s.hbuf := rfl
@[simp] theorem State.setStart_rxbuf (s : State) (t : Time) : (s.setStart t).rxbuf = s.rxbuf := rfl
@[simp] theorem State.setStart_txbuf (s : State) (t : Time) : (s.setStart t).txbuf = s.txbuf := rfl
@[simp] theorem State.setStart_rxStart (s : State) (t : Time) : (s.setStart t).rxStart = t := rfl
@[simp] theorem State.setStart_latch (s : State) (t : Time) : (s.setStart t).latch = s.latch := rfl
@[simp] theorem State.setStart_env (s : State) (t : Time) : (s.setStart t).env = s.env := rfl

/-! ## startRx -/

@[simp] theorem State.startRx_status (s : State) : s.startRx.status = s.status := rfl
@[simp] theorem State.startRx_resultValid (s : State) : s.startRx.resultValid = s.resultValid := rfl
@[simp] theorem State.startRx_hasSnap (s : State) : s.startRx.hasSnap = s.hasSnap := rfl
@[simp] theorem State.startRx_result (s : State) : s.startRx.result = s.result := rfl
@[simp] theorem State.startRx_hlen (s : State) : s.startRx.hlen = s.hlen := rfl
@[simp] theorem State.startRx_sessAddr (s : State) : s.startRx.sessAddr = s.sessAddr := rfl
@[simp] theorem State.startRx_lastReadMs (s : State) : s.startRx.lastReadMs = s.lastReadMs := rfl
@[simp] theorem State.startRx_snap (s : State) : s.startRx.snap = s.snap := rfl
@[simp] theorem State.startRx_dec (s : State) : s.startRx.dec = s.dec := rfl
@[simp] theorem State.startRx_decWritten (s : State) : s.startRx.decWritten = s.decWritten := rfl
@[simp] theorem State.startRx_hbuf (s : State) : s.startRx.hbuf = s.hbuf := rfl
@[simp] theorem State.startRx_rxbuf (s : State) : s.startRx.rxbuf = [] := rfl
@[simp] theorem State.startRx_txbuf (s : State) : s.startRx.txbuf = s.txbuf := rfl
@[simp] theorem State.startRx_rxStart (s : State) : s.startRx.rxStart = s.now := rfl
@[simp] theorem State.startRx_latch (s : State) : s.startRx.latch = s.latch := rfl
@[simp] theorem State.startRx_env (s : State) : s.startRx.env = s.env.afterNow := rfl

/-! ## setPhase -/

@[simp] theorem State.setPhase_status (s : State) (p : Phase) : (s.setPhase p).status = s.status := rfl
@[simp] theorem State.setPhase_resultValid (s : State) (p : Phase) : (s.setPhase p).resultValid = s.resultValid := rfl
@[simp] theorem State.setPhase_hasSnap (s : State) (p : Phase) : (s.setPhase p).hasSnap = s.hasSnap := rfl
@[simp] theorem State.setPhase_result (s : State) (p : Phase) : (s.setPhase p).result = s.result := rfl
@[simp] theorem State.setPhase_hlen (s : State) (p : Phase) : (s.setPhase p).hlen = s.hlen := rfl
@[simp] theorem State.setPhase_sessAddr (s : State) (p : Phase) : (s.setPhase p).sessAddr = s.sessAddr := rfl
@[simp] theorem State.setPhase_lastReadMs (s : State) (p : Phase) : (s.setPhase p).lastReadMs = s.lastReadMs := rfl
@[simp] theorem State.setPhase_snap (s : State) (p : Phase) : (s.setPhase p).snap = s.snap := rfl
@[simp] theorem State.setPhase_dec (s : State) (p : Phase) : (s.setPhase p).dec = s.dec := rfl
@[simp] theorem State.setPhase_decWritten (s : State) (p : Phase) : (s.setPhase p).decWritten = s.decWritten := rfl
@[simp] theorem State.setPhase_hbuf (s : State) (p : Phase) : (s.setPhase p).hbuf = s.hbuf := rfl
@[simp] theorem State.setPhase_rxbuf (s : State) (p : Phase) : (s.setPhase p).rxbuf = s.rxbuf := rfl
@[simp] theorem State.setPhase_txbuf (s : State) (p : Phase) : (s.setPhase p).txbuf = s.txbuf := rfl
@[simp] theorem State.setPhase_rxStart (s : State) (p : Phase) : (s.setPhase p).rxStart = s.rxStart := rfl
@[simp] theorem State.setPhase_latch (s : State) (p : Phase) : (s.setPhase p).latch = s.latch.map (fun c => { c with phase := p }) := rfl
@[simp] theorem State.setPhase_env (s : State) (p : Phase) : (s.setPhase p).env = s.env := rfl

/-! ## answer -/

@[simp] theorem State.answer_status (s : State) (v : BitVec 64) : (s.answer v).status = s.status := rfl
@[simp] theorem State.answer_resultValid (s : State) (v : BitVec 64) : (s.answer v).resultValid = s.resultValid := rfl
@[simp] theorem State.answer_hasSnap (s : State) (v : BitVec 64) : (s.answer v).hasSnap = s.hasSnap := rfl
@[simp] theorem State.answer_result (s : State) (v : BitVec 64) : (s.answer v).result = s.result := rfl
@[simp] theorem State.answer_hlen (s : State) (v : BitVec 64) : (s.answer v).hlen = s.hlen := rfl
@[simp] theorem State.answer_sessAddr (s : State) (v : BitVec 64) : (s.answer v).sessAddr = s.sessAddr := rfl
@[simp] theorem State.answer_lastReadMs (s : State) (v : BitVec 64) : (s.answer v).lastReadMs = s.lastReadMs := rfl
@[simp] theorem State.answer_snap (s : State) (v : BitVec 64) : (s.answer v).snap = s.snap := rfl
@[simp] theorem State.answer_dec (s : State) (v : BitVec 64) : (s.answer v).dec = s.dec := rfl
@[simp] theorem State.answer_decWritten (s : State) (v : BitVec 64) : (s.answer v).decWritten = s.decWritten := rfl
@[simp] theorem State.answer_hbuf (s : State) (v : BitVec 64) : (s.answer v).hbuf = s.hbuf := rfl
@[simp] theorem State.answer_rxbuf (s : State) (v : BitVec 64) : (s.answer v).rxbuf = s.rxbuf := rfl
@[simp] theorem State.answer_txbuf (s : State) (v : BitVec 64) : (s.answer v).txbuf = s.txbuf := rfl
@[simp] theorem State.answer_rxStart (s : State) (v : BitVec 64) : (s.answer v).rxStart = s.rxStart := rfl
@[simp] theorem State.answer_latch (s : State) (v : BitVec 64) : (s.answer v).latch = s.latch := rfl
@[simp] theorem State.answer_env (s : State) (v : BitVec 64) : (s.answer v).env = { s.env with hostData := some v } := rfl

/-! ## popInput -/

@[simp] theorem State.popInput_status (s : State) : s.popInput.status = s.status := rfl
@[simp] theorem State.popInput_resultValid (s : State) : s.popInput.resultValid = s.resultValid := rfl
@[simp] theorem State.popInput_hasSnap (s : State) : s.popInput.hasSnap = s.hasSnap := rfl
@[simp] theorem State.popInput_result (s : State) : s.popInput.result = s.result := rfl
@[simp] theorem State.popInput_hlen (s : State) : s.popInput.hlen = s.hlen := rfl
@[simp] theorem State.popInput_sessAddr (s : State) : s.popInput.sessAddr = s.sessAddr := rfl
@[simp] theorem State.popInput_lastReadMs (s : State) : s.popInput.lastReadMs = s.lastReadMs := rfl
@[simp] theorem State.popInput_snap (s : State) : s.popInput.snap = s.snap := rfl
@[simp] theorem State.popInput_dec (s : State) : s.popInput.dec = s.dec := rfl
@[simp] theorem State.popInput_decWritten (s : State) : s.popInput.decWritten = s.decWritten := rfl
@[simp] theorem State.popInput_hbuf (s : State) : s.popInput.hbuf = s.hbuf := rfl
@[simp] theorem State.popInput_rxbuf (s : State) : s.popInput.rxbuf = s.rxbuf := rfl
@[simp] theorem State.popInput_txbuf (s : State) : s.popInput.txbuf = s.txbuf := rfl
@[simp] theorem State.popInput_rxStart (s : State) : s.popInput.rxStart = s.rxStart := rfl
@[simp] theorem State.popInput_latch (s : State) : s.popInput.latch = s.latch := rfl
@[simp] theorem State.popInput_env (s : State) : s.popInput.env = { s.env with inputs := s.env.inputs.tail } := rfl

/-! ## finish -/

@[simp] theorem State.finish_status (s : State) (c : Commit) : (s.finish c).status = c.status := rfl
@[simp] theorem State.finish_resultValid (s : State) (c : Commit) : (s.finish c).resultValid = c.resultValid.getD s.resultValid := rfl
@[simp] theorem State.finish_hasSnap (s : State) (c : Commit) : (s.finish c).hasSnap = (s.hasSnap || c.hasSnap) := rfl
@[simp] theorem State.finish_result (s : State) (c : Commit) : (s.finish c).result = c.result.getD s.result := rfl
@[simp] theorem State.finish_hlen (s : State) (c : Commit) : (s.finish c).hlen = c.hlen.getD s.hlen := rfl
@[simp] theorem State.finish_sessAddr (s : State) (c : Commit) : (s.finish c).sessAddr = c.sessAddr.getD s.sessAddr := rfl
@[simp] theorem State.finish_lastReadMs (s : State) (c : Commit) : (s.finish c).lastReadMs = c.lastReadMs.getD s.lastReadMs := rfl
@[simp] theorem State.finish_snap (s : State) (c : Commit) : (s.finish c).snap = c.snap.onto s.snap := rfl
@[simp] theorem State.finish_dec (s : State) (c : Commit) : (s.finish c).dec = c.dec.onto s.dec := rfl
@[simp] theorem State.finish_decWritten (s : State) (c : Commit) : (s.finish c).decWritten = (s.decWritten || c.dec.alm.isSome) := rfl
@[simp] theorem State.finish_hbuf (s : State) (c : Commit) : (s.finish c).hbuf = s.hbuf.writeBytes 0 c.hbuf := rfl
@[simp] theorem State.finish_rxbuf (s : State) (c : Commit) : (s.finish c).rxbuf = s.rxbuf := rfl
@[simp] theorem State.finish_txbuf (s : State) (c : Commit) : (s.finish c).txbuf = s.txbuf := rfl
@[simp] theorem State.finish_rxStart (s : State) (c : Commit) : (s.finish c).rxStart = s.rxStart := rfl
@[simp] theorem State.finish_latch (s : State) (c : Commit) : (s.finish c).latch = none := rfl
@[simp] theorem State.finish_env (s : State) (c : Commit) : (s.finish c).env = s.env := rfl

/-! ## assertReset -/

@[simp] theorem State.assertReset_status (s : State) : s.assertReset.status = .ok := rfl
@[simp] theorem State.assertReset_resultValid (s : State) : s.assertReset.resultValid = false := rfl
@[simp] theorem State.assertReset_hasSnap (s : State) : s.assertReset.hasSnap = false := rfl
@[simp] theorem State.assertReset_result (s : State) : s.assertReset.result = 0 := rfl
@[simp] theorem State.assertReset_hlen (s : State) : s.assertReset.hlen = 0 := rfl
@[simp] theorem State.assertReset_sessAddr (s : State) : s.assertReset.sessAddr = sanitize Config.initAddr := rfl
@[simp] theorem State.assertReset_lastReadMs (s : State) : s.assertReset.lastReadMs = 0 := rfl
@[simp] theorem State.assertReset_snap (s : State) : s.assertReset.snap = .zero := rfl
@[simp] theorem State.assertReset_dec (s : State) : s.assertReset.dec = .zero := rfl
@[simp] theorem State.assertReset_decWritten (s : State) : s.assertReset.decWritten = false := rfl
@[simp] theorem State.assertReset_hbuf (s : State) : s.assertReset.hbuf = [] := rfl
@[simp] theorem State.assertReset_rxbuf (s : State) : s.assertReset.rxbuf = [] := rfl
@[simp] theorem State.assertReset_txbuf (s : State) : s.assertReset.txbuf = [] := rfl
@[simp] theorem State.assertReset_rxStart (s : State) : s.assertReset.rxStart = 0 := rfl
@[simp] theorem State.assertReset_latch (s : State) : s.assertReset.latch = none := rfl
@[simp] theorem State.assertReset_env (s : State) : s.assertReset.env = s.env := rfl

/-! ## withCommand -/

@[simp] theorem State.withCommand_status (s : State) (w : CommandWord) : (s.withCommand w).status = s.status := rfl
@[simp] theorem State.withCommand_resultValid (s : State) (w : CommandWord) : (s.withCommand w).resultValid = s.resultValid := rfl
@[simp] theorem State.withCommand_hasSnap (s : State) (w : CommandWord) : (s.withCommand w).hasSnap = s.hasSnap := rfl
@[simp] theorem State.withCommand_result (s : State) (w : CommandWord) : (s.withCommand w).result = s.result := rfl
@[simp] theorem State.withCommand_hlen (s : State) (w : CommandWord) : (s.withCommand w).hlen = s.hlen := rfl
@[simp] theorem State.withCommand_sessAddr (s : State) (w : CommandWord) : (s.withCommand w).sessAddr = s.sessAddr := rfl
@[simp] theorem State.withCommand_lastReadMs (s : State) (w : CommandWord) : (s.withCommand w).lastReadMs = s.lastReadMs := rfl
@[simp] theorem State.withCommand_snap (s : State) (w : CommandWord) : (s.withCommand w).snap = s.snap := rfl
@[simp] theorem State.withCommand_dec (s : State) (w : CommandWord) : (s.withCommand w).dec = s.dec := rfl
@[simp] theorem State.withCommand_decWritten (s : State) (w : CommandWord) : (s.withCommand w).decWritten = s.decWritten := rfl
@[simp] theorem State.withCommand_hbuf (s : State) (w : CommandWord) : (s.withCommand w).hbuf = s.hbuf := rfl
@[simp] theorem State.withCommand_rxbuf (s : State) (w : CommandWord) : (s.withCommand w).rxbuf = s.rxbuf := rfl
@[simp] theorem State.withCommand_txbuf (s : State) (w : CommandWord) : (s.withCommand w).txbuf = s.txbuf := rfl
@[simp] theorem State.withCommand_rxStart (s : State) (w : CommandWord) : (s.withCommand w).rxStart = s.rxStart := rfl
@[simp] theorem State.withCommand_latch (s : State) (w : CommandWord) : (s.withCommand w).latch = some ⟨w, .start⟩ := rfl
@[simp] theorem State.withCommand_env (s : State) (w : CommandWord) : (s.withCommand w).env = { s.env with inputs := .wait :: s.env.inputs } := rfl

/-! ## Env.afterNow -/

@[simp] theorem Env.afterNow_clock (e : Env) : e.afterNow.clock = e.clock.tail := rfl
@[simp] theorem Env.afterNow_tx (e : Env) : e.afterNow.tx = e.tx := rfl
@[simp] theorem Env.afterNow_rx (e : Env) : e.afterNow.rx = e.rx := rfl
@[simp] theorem Env.afterNow_draws (e : Env) : e.afterNow.draws = e.draws + 1 := rfl
@[simp] theorem Env.afterNow_lastNow (e : Env) : e.afterNow.lastNow = e.now := rfl
@[simp] theorem Env.afterNow_history (e : Env) : e.afterNow.history = e.history ++ [.now e.now] := rfl
@[simp] theorem Env.afterNow_inputs (e : Env) : e.afterNow.inputs = e.inputs := rfl
@[simp] theorem Env.afterNow_hostData (e : Env) : e.afterNow.hostData = e.hostData := rfl

/-! ## Env.afterTx -/

@[simp] theorem Env.afterTx_clock (e : Env) (bytes : List Byte) : (e.afterTx bytes).clock = e.clock := rfl
@[simp] theorem Env.afterTx_tx (e : Env) (bytes : List Byte) : (e.afterTx bytes).tx = e.tx.tail := rfl
@[simp] theorem Env.afterTx_rx (e : Env) (bytes : List Byte) : (e.afterTx bytes).rx = e.rx := rfl
@[simp] theorem Env.afterTx_draws (e : Env) (bytes : List Byte) : (e.afterTx bytes).draws = e.draws + 1 := rfl
@[simp] theorem Env.afterTx_lastNow (e : Env) (bytes : List Byte) : (e.afterTx bytes).lastNow = e.lastNow := rfl
@[simp] theorem Env.afterTx_history (e : Env) (bytes : List Byte) : (e.afterTx bytes).history = e.history ++ [.txWrite bytes (e.txAnswer bytes)] := rfl
@[simp] theorem Env.afterTx_inputs (e : Env) (bytes : List Byte) : (e.afterTx bytes).inputs = e.inputs := rfl
@[simp] theorem Env.afterTx_hostData (e : Env) (bytes : List Byte) : (e.afterTx bytes).hostData = e.hostData := rfl

/-! ## Env.afterRx -/

@[simp] theorem Env.afterRx_clock (e : Env) (ms : Time) : (e.afterRx ms).clock = e.clock := rfl
@[simp] theorem Env.afterRx_tx (e : Env) (ms : Time) : (e.afterRx ms).tx = e.tx := rfl
@[simp] theorem Env.afterRx_rx (e : Env) (ms : Time) : (e.afterRx ms).rx = e.rx.tail := rfl
@[simp] theorem Env.afterRx_draws (e : Env) (ms : Time) : (e.afterRx ms).draws = e.draws + 1 := rfl
@[simp] theorem Env.afterRx_lastNow (e : Env) (ms : Time) : (e.afterRx ms).lastNow = e.lastNow := rfl
@[simp] theorem Env.afterRx_history (e : Env) (ms : Time) : (e.afterRx ms).history = e.history ++ [.rxRead ms e.rxAnswer] := rfl
@[simp] theorem Env.afterRx_inputs (e : Env) (ms : Time) : (e.afterRx ms).inputs = e.inputs := rfl
@[simp] theorem Env.afterRx_hostData (e : Env) (ms : Time) : (e.afterRx ms).hostData = e.hostData := rfl

end Sys2Proof.Machine
end

