-- ==== Sys2Proof/Laws/Commits.lean ====
section
/-!
SUPPORT. The record of staged writes with which each command finishes, written out: what the lists of writes of the rules
come to once all of them are staged.
-/

namespace Sys2Proof.Machine

/-- The seven registers of a group, all staged. -/
def StagedFields.all (d : Fields) : StagedFields :=
  { v := some d.v, i := some d.i, p := some d.p, e := some d.e, f := some d.f, pf := some d.pf, alm := some d.alm }

@[simp] theorem StagedFields.onto_none (d : Fields) : ({} : StagedFields).onto d = d := rfl
@[simp] theorem StagedFields.onto_all (d d' : Fields) : (StagedFields.all d).onto d' = d := rfl
@[simp] theorem StagedFields.all_alm (d : Fields) : (StagedFields.all d).alm = some d.alm := rfl

@[simp] theorem Commit.of_nil (code : Status) : Commit.of code [] = { status := code } := rfl

theorem crc16Writes_commit (code : Status) (bytes : List Byte) :
    Commit.of code (crc16Writes bytes) = { status := code, result := some ((crc16 bytes).zeroExtend 32) } := rfl

theorem validateWrites_commit (code : Status) (verdict : Bool) :
    Commit.of code (validateWrites verdict) = { status := code, result := some (if verdict then 1 else 0) } := rfl

theorem decodeWrites_commit (code : Status) (bytes : List Byte) :
    Commit.of code (decodeWrites bytes) =
      { status := code, dec := .all (decodeBulk ([0x00, 0x00, 0x00] ++ bytes)) } := rfl

theorem encode8Commit_eq (addr fc : Byte) (reg value : Half) :
    encode8Commit addr fc reg value = { status := .ok, hlen := some 8, hbuf := frame8 addr fc reg value } := rfl

theorem encode4Commit_eq (addr fc : Byte) :
    encode4Commit addr fc = { status := .ok, hlen := some 4, hbuf := frame4 addr fc } := rfl

/-- A length of 0 writes no byte of the host buffer. -/
theorem receiveCommit_eq (s : State) (r : Received) :
    receiveCommit s r =
      { status := r.code, result := some (BitVec.ofNat 32 r.len), hlen := some (BitVec.ofNat 8 r.len)
        hbuf := s.rxbuf.take r.len } := by
  obtain ⟨len, code⟩ := r
  cases len <;> simp [receiveCommit, receiveWrites, Commit.of, Commit.stage]

theorem setAddressCommit_eq (addr : Byte) (code : Status) :
    setAddressCommit addr code = { status := code, sessAddr := if code = .ok then some addr else none } := by
  unfold setAddressCommit setAddressWrites
  split <;> rfl

/-- An update that stores nothing stages nothing. -/
@[simp] theorem updateCommit_none (code : Status) : updateCommit ⟨code, none⟩ = { status := code } := rfl

/-- An update that stores a snapshot stages the nine registers of R197. -/
@[simp] theorem updateCommit_some (code : Status) (d : Fields) (t : Time) :
    updateCommit ⟨code, some (d, t)⟩ =
      { status := code, snap := .all d, lastReadMs := some t, hasSnap := true } := rfl

/-- An accessor stages what the update does, and its result. -/
theorem accessorWrites_commit (f : Fields → Word) (s : State) (u : Update) :
    Commit.of u.code (accessorWrites f s u) =
      { updateCommit u with
        result := some (match s.snapAfter u with | some d => f d | none => 0)
        resultValid := some (s.snapAfter u).isSome } := by
  obtain ⟨code, _ | ⟨d, t⟩⟩ := u
  · by_cases h : s.hasSnap = true <;> simp [accessorWrites, State.snapAfter, h] <;> rfl
  · rfl

end Sys2Proof.Machine
end

