-- ==== Sys2Proof/Laws/Ops.lean ====
section
/-!
SUPPORT. What the shared operations over the state do, said once: the host buffer's bytes and its canonical form, and the
samples of the clock, the events of a history and the operand forms.
-/

namespace Sys2Proof.Machine

/-! ## Bytes by index -/

theorem Memory.read_write (m : Memory) (k j : Nat) (b : Byte) :
    (m.write k b).read j = if j = k then some b else m.read j := by
  induction m with
  | nil => simp [Memory.write, Memory.read]
  | cons c m ih =>
    obtain ⟨a, x⟩ := c
    simp only [Memory.write]
    split
    · simp [Memory.read]
    · split
      · next h => subst h; by_cases hj : j = k <;> simp [Memory.read, hj]
      · by_cases hj : j = a
        · have : j ≠ k := by omega
          simp [Memory.read, hj, show a ≠ k by omega]
        · simp [Memory.read, hj, ih]

/-- A read after a write to the same index gives the byte written. -/
theorem Memory.read_write_same (m : Memory) (k : Nat) (b : Byte) : (m.write k b).read k = some b := by
  simp [Memory.read_write]

/-- A write leaves every other index alone. -/
theorem Memory.read_write_other (m : Memory) {k j : Nat} (b : Byte) (h : j ≠ k) : (m.write k b).read j = m.read j := by
  simp [Memory.read_write, h]

theorem Memory.write_bound {m : Memory} {k n : Nat} {b : Byte} (hk : k < n) (h : ∀ c ∈ m, c.1 < n) :
    ∀ c ∈ m.write k b, c.1 < n := by
  induction m with
  | nil => simp [Memory.write, hk]
  | cons c m ih =>
    obtain ⟨a, x⟩ := c
    have ha : a < n := h (a, x) (by simp)
    have hm : ∀ c ∈ m, c.1 < n := fun c hc => h c (by simp [hc])
    simp only [Memory.write]
    split
    · intro c hc; simp only [List.mem_cons] at hc; rcases hc with rfl | rfl | hc
      exacts [hk, ha, hm c hc]
    · split
      · intro c hc; simp only [List.mem_cons] at hc; rcases hc with rfl | hc
        exacts [hk, hm c hc]
      · intro c hc; simp only [List.mem_cons] at hc; rcases hc with rfl | hc
        exacts [ha, ih hm c hc]

theorem Memory.le_write {m : Memory} {k l : Nat} {b : Byte} (hk : l < k) (h : ∀ c ∈ m, l < c.1) :
    ∀ c ∈ m.write k b, l < c.1 := by
  induction m with
  | nil => simp [Memory.write, hk]
  | cons c m ih =>
    obtain ⟨a, x⟩ := c
    have ha : l < a := h (a, x) (by simp)
    have hm : ∀ c ∈ m, l < c.1 := fun c hc => h c (by simp [hc])
    simp only [Memory.write]
    split
    · intro c hc; simp only [List.mem_cons] at hc; rcases hc with rfl | rfl | hc
      exacts [hk, ha, hm c hc]
    · split
      · intro c hc; simp only [List.mem_cons] at hc; rcases hc with rfl | hc
        exacts [hk, hm c hc]
      · intro c hc; simp only [List.mem_cons] at hc; rcases hc with rfl | hc
        exacts [ha, ih hm c hc]

/-- A write keeps the canonical form. -/
theorem Memory.write_wf {m : Memory} (h : m.wf) (k : Nat) (b : Byte) : (m.write k b).wf := by
  induction m with
  | nil => simp [Memory.write, Memory.wf]
  | cons c m ih =>
    obtain ⟨a, x⟩ := c
    obtain ⟨ha, hm⟩ := List.pairwise_cons.1 h
    simp only [Memory.write]
    split
    · next hk =>
      refine List.pairwise_cons.2 ⟨?_, h⟩
      intro c hc; simp only [List.mem_cons] at hc; rcases hc with rfl | hc
      · exact hk
      · exact lt_trans hk (ha c hc)
    · split
      · next hk => subst hk; exact List.pairwise_cons.2 ⟨ha, hm⟩
      · refine List.pairwise_cons.2 ⟨?_, ih hm⟩
        exact Memory.le_write (by omega) ha

theorem Memory.writeBytes_wf {m : Memory} (h : m.wf) (i : Nat) (bs : List Byte) : (m.writeBytes i bs).wf := by
  induction bs generalizing m i with
  | nil => exact h
  | cons b bs ih => exact ih (Memory.write_wf h i b) (i + 1)

/-- The memory after reset is in canonical form. -/
theorem State.reset_hbuf_wf : State.reset.hbuf.wf := List.Pairwise.nil

theorem Memory.writeBytes_bound {m : Memory} {n : Nat} (i : Nat) (bs : List Byte) (h : ∀ c ∈ m, c.1 < n)
    (hi : i + bs.length ≤ n) : ∀ c ∈ m.writeBytes i bs, c.1 < n := by
  induction bs generalizing m i with
  | nil => exact h
  | cons b bs ih =>
    simp only [List.length_cons] at hi
    exact ih (i + 1) (Memory.write_bound (by omega) h) (by omega)

/-- `MemWrite` changes the bytes of its range and no other. -/
theorem Memory.read_writeBytes (m : Memory) (i : Nat) (bs : List Byte) (j : Nat) :
    (m.writeBytes i bs).read j = if h : i ≤ j ∧ j - i < bs.length then some bs[j - i] else m.read j := by
  induction bs generalizing m i with
  | nil => simp [Memory.writeBytes]
  | cons b bs ih =>
    simp only [Memory.writeBytes, ih, Memory.read_write, List.length_cons]
    by_cases hj : j = i
    · subst hj; simp
    · by_cases h : i + 1 ≤ j ∧ j - (i + 1) < bs.length
      · have h' : i ≤ j ∧ j - i < bs.length + 1 := by omega
        have e : j - i = (j - (i + 1)) + 1 := by omega
        simp only [dif_pos h, dif_pos h']
        simp [e]
      · have h' : ¬ (i ≤ j ∧ j - i < bs.length + 1) := by omega
        rw [dif_neg h, dif_neg h', if_neg hj]

theorem Memory.writeBytes_holds (m : Memory) (i : Nat) (bs : List Byte) : (m.writeBytes i bs).holds i bs := by
  intro k hk
  simp [Memory.read_writeBytes, hk]

theorem Memory.holds_nil (m : Memory) (i : Nat) : m.holds i [] := fun k h => absurd h (by simp)

theorem Memory.holds_cons {m : Memory} {i : Nat} {b : Byte} {bs : List Byte} :
    m.holds i (b :: bs) ↔ m.read i = some b ∧ m.holds (i + 1) bs := by
  constructor
  · intro h
    have h0 : m.read (i + 0) = some (b :: bs)[0] := h 0 (Nat.succ_pos _)
    refine ⟨h0, fun k hk => ?_⟩
    have := h (k + 1) (by simpa using hk)
    rw [show i + 1 + k = i + (k + 1) by omega]
    simpa using this
  · rintro ⟨h0, h⟩ k hk
    cases k with
    | zero => simpa using h0
    | succ k =>
      have := h k (by simpa using hk)
      rw [show i + (k + 1) = i + 1 + k by omega]
      simpa using this

/-- `MemRead` returns exactly the bytes the range holds. -/
theorem Memory.readBytes_eq_some {m : Memory} {i n : Nat} {bs : List Byte} :
    m.readBytes i n = some bs ↔ bs.length = n ∧ m.holds i bs := by
  induction n generalizing i bs with
  | zero =>
    simp only [Memory.readBytes, Option.some.injEq]
    constructor
    · rintro rfl; exact ⟨rfl, m.holds_nil i⟩
    · rintro ⟨h, -⟩; exact (List.length_eq_zero_iff.1 h).symm
  | succ n ih =>
    cases bs with
    | nil =>
      simp only [Memory.readBytes, List.length_nil]
      constructor
      · intro h; split at h <;> simp at h
      · rintro ⟨h, -⟩; omega
    | cons b bs =>
      rw [Memory.holds_cons]
      simp only [Memory.readBytes, List.length_cons, Nat.add_right_cancel_iff]
      constructor
      · intro h
        split at h
        · next b' bs' h1 h2 =>
          simp only [Option.some.injEq, List.cons.injEq] at h
          obtain ⟨rfl, rfl⟩ := h
          obtain ⟨hl, hh⟩ := ih.1 h2
          exact ⟨hl, h1, hh⟩
        · simp at h
      · rintro ⟨hl, h1, hh⟩
        simp [h1, ih.2 ⟨hl, hh⟩]

/-- `MemRead` meets an unwritten byte exactly if the range has one. -/
theorem Memory.readBytes_eq_none {m : Memory} {i n : Nat} :
    m.readBytes i n = none ↔ ∃ k, k < n ∧ m.read (i + k) = none := by
  induction n generalizing i with
  | zero => simp [Memory.readBytes]
  | succ n ih =>
    simp only [Memory.readBytes]
    constructor
    · intro h
      cases h1 : m.read i with
      | none => exact ⟨0, by omega, by simpa using h1⟩
      | some b =>
        cases h2 : m.readBytes (i + 1) n with
        | none =>
          obtain ⟨k, hk, e⟩ := ih.1 h2
          exact ⟨k + 1, by omega, by rwa [show i + (k + 1) = i + 1 + k by omega]⟩
        | some bs => simp [h1, h2] at h
    · rintro ⟨k, hk, e⟩
      cases k with
      | zero => simp [show m.read i = none by simpa using e]
      | succ k =>
        have : m.readBytes (i + 1) n = none :=
          ih.2 ⟨k, by omega, by rwa [show i + 1 + k = i + (k + 1) by omega]⟩
        rw [this]
        cases m.read i <;> rfl

/-! ## The environment -/

theorem Env.lastNow_le_now (e : Env) : e.lastNow ≤ e.now := by
  unfold Env.now
  split
  · exact BitVec.le_refl _
  · next h => exact BitVec.not_lt.1 h

theorem State.now_eq (s : State) : s.now = s.env.now := rfl

/-- A scripted sample that is not earlier than the last is the sample taken. -/
theorem Env.now_of_clock {e : Env} {t : Time} {ts : List Time} (h : e.clock = t :: ts) (hl : e.lastNow ≤ t) :
    e.now = t := by
  have : e.clockDraw = t := by simp [Env.clockDraw, h]
  rw [Env.now, this, if_neg (BitVec.not_lt.2 hl)]

/-- What `TxWrite` answers for a script that takes the next frame. -/
theorem Env.txAnswer_of_ok {e : Env} {k : Nat} {rest : List TxAnswer} (h : e.tx = .ok k :: rest) (bs : List Byte) :
    e.txAnswer bs = .ok (min k bs.length) := by simp [Env.txAnswer, h]

/-- What `TxWrite` answers for a script that fails the next write. -/
theorem Env.txAnswer_of_err {e : Env} {rest : List TxAnswer} (h : e.tx = .err :: rest) (bs : List Byte) :
    e.txAnswer bs = .err := by simp [Env.txAnswer, h]

theorem Env.rxAnswer_of_cons {e : Env} {a : RxAnswer} {rest : List RxAnswer} (h : e.rx = a :: rest) :
    e.rxAnswer = a := by simp [Env.rxAnswer, h]

/-! ## Events -/

@[simp] theorem Event.isTx_txWrite (bytes : List Byte) (a : TxAnswer) : (Event.txWrite bytes a).isTx = true := rfl
@[simp] theorem Event.isTx_rxRead (ms : Time) (a : RxAnswer) : (Event.rxRead ms a).isTx = false := rfl
@[simp] theorem Event.isTx_now (t : Time) : (Event.now t).isTx = false := rfl
@[simp] theorem Event.isNow_txWrite (bytes : List Byte) (a : TxAnswer) : (Event.txWrite bytes a).isNow = false := rfl
@[simp] theorem Event.isNow_rxRead (ms : Time) (a : RxAnswer) : (Event.rxRead ms a).isNow = false := rfl
@[simp] theorem Event.isNow_now (t : Time) : (Event.now t).isNow = true := rfl
@[simp] theorem Event.isRx_txWrite (bytes : List Byte) (a : TxAnswer) : (Event.txWrite bytes a).isRx = false := rfl
@[simp] theorem Event.isRx_rxRead (ms : Time) (a : RxAnswer) : (Event.rxRead ms a).isRx = true := rfl
@[simp] theorem Event.isRx_now (t : Time) : (Event.now t).isRx = false := rfl
@[simp] theorem Event.isByte_txWrite (bytes : List Byte) (a : TxAnswer) : (Event.txWrite bytes a).isByte = false := rfl
@[simp] theorem Event.isByte_byte (ms : Time) (b : Byte) : (Event.rxRead ms (.byte b)).isByte = true := rfl
@[simp] theorem Event.isByte_nothing (ms : Time) : (Event.rxRead ms .nothing).isByte = false := rfl
@[simp] theorem Event.isByte_err (ms : Time) : (Event.rxRead ms .err).isByte = false := rfl
@[simp] theorem Event.isByte_now (t : Time) : (Event.now t).isByte = false := rfl

/-! ## Operand forms -/

/-- R161, R164: the addresses the host may supply. -/
theorem isHostAddr_iff {a : Byte} : isHostAddr a = true ↔ 0x01 ≤ a.toNat ∧ a.toNat ≤ 0xF7 := by
  simp [isHostAddr, Config.addrMin, Config.addrMax, BitVec.le_def]

/-- R27: the addresses the session may hold. -/
theorem isSessionAddr_iff {a : Byte} : isSessionAddr a = true ↔ 0x01 ≤ a.toNat ∧ a.toNat ≤ 0xF8 := by
  simp [isSessionAddr, Config.addrMin, Config.defaultAddr, BitVec.le_def]

/-- R165: the clamp as a minimum. -/
theorem clampAlarm_eq (w : Half) : clampAlarm w = BitVec.ofNat 16 (min w.toNat 25000) := by
  unfold clampAlarm
  simp only [Config.alarmMax, BitVec.le_def]
  split
  · next h => rw [Nat.min_eq_left (by simpa using h)]; simp
  · next h => rw [Nat.min_eq_right (by simp at h; omega)]; rfl

/-- The bits of two bytes joined: the second byte is the low one. -/
theorem getLsbD_append_bytes (h l : Byte) (k : Nat) :
    BitVec.getLsbD (w := 16) (h ++ l) k = if k < 8 then l.getLsbD k else h.getLsbD (k - 8) := BitVec.getLsbD_append

end Sys2Proof.Machine
end

