-- ==== Sys2Proof/Laws/Receive.lean ====
section
/-!
SUPPORT. What `receive` can do, said once (spec/42_receive.md R145 to R152): what it leaves alone, what it returns, which
events it adds, and what it returns for a Transport that delivers given bytes in time.
-/

namespace Sys2Proof.Machine

/-! ## Frame -/

/-- Only the accumulator and the environment change in the loop. -/
theorem receiveLoop_frame (n : Nat) (t : Half) (k : Nat) (s : State) :
    (receiveLoop n t k s).1 =
      { s with rxbuf := (receiveLoop n t k s).1.rxbuf, env := (receiveLoop n t k s).1.env } := by
  induction k generalizing s with
  | zero => rfl
  | succ k ih =>
    simp only [receiveLoop]
    split
    · rfl
    · split
      · rfl
      · split
        · rw [ih]; rfl
        · rfl
        · rfl

/-- Only the accumulator, its start time and the environment change in `receive`. -/
theorem receive_frame (n : Nat) (t : Half) (s : State) :
    (receive n t s).1 =
      { s with
        rxbuf := (receive n t s).1.rxbuf, rxStart := s.now, env := (receive n t s).1.env } := by
  unfold receive
  rw [receiveLoop_frame]
  rfl

@[simp] theorem receive_status (n : Nat) (t : Half) (s : State) : (receive n t s).1.status = s.status := by
  rw [receive_frame]

@[simp] theorem receive_resultValid (n : Nat) (t : Half) (s : State) : (receive n t s).1.resultValid = s.resultValid := by
  rw [receive_frame]

@[simp] theorem receive_hasSnap (n : Nat) (t : Half) (s : State) : (receive n t s).1.hasSnap = s.hasSnap := by
  rw [receive_frame]

@[simp] theorem receive_result (n : Nat) (t : Half) (s : State) : (receive n t s).1.result = s.result := by
  rw [receive_frame]

@[simp] theorem receive_hlen (n : Nat) (t : Half) (s : State) : (receive n t s).1.hlen = s.hlen := by
  rw [receive_frame]

@[simp] theorem receive_sessAddr (n : Nat) (t : Half) (s : State) : (receive n t s).1.sessAddr = s.sessAddr := by
  rw [receive_frame]

@[simp] theorem receive_lastReadMs (n : Nat) (t : Half) (s : State) : (receive n t s).1.lastReadMs = s.lastReadMs := by
  rw [receive_frame]

@[simp] theorem receive_snap (n : Nat) (t : Half) (s : State) : (receive n t s).1.snap = s.snap := by
  rw [receive_frame]

@[simp] theorem receive_dec (n : Nat) (t : Half) (s : State) : (receive n t s).1.dec = s.dec := by
  rw [receive_frame]

@[simp] theorem receive_decWritten (n : Nat) (t : Half) (s : State) : (receive n t s).1.decWritten = s.decWritten := by
  rw [receive_frame]

@[simp] theorem receive_hbuf (n : Nat) (t : Half) (s : State) : (receive n t s).1.hbuf = s.hbuf := by
  rw [receive_frame]

@[simp] theorem receive_txbuf (n : Nat) (t : Half) (s : State) : (receive n t s).1.txbuf = s.txbuf := by
  rw [receive_frame]

@[simp] theorem receive_latch (n : Nat) (t : Half) (s : State) : (receive n t s).1.latch = s.latch := by
  rw [receive_frame]

@[simp] theorem receive_rxStart (n : Nat) (t : Half) (s : State) : (receive n t s).1.rxStart = s.now := by
  rw [receive_frame]

/-- The environment's parts that no receive touches. -/
theorem receiveLoop_env (n : Nat) (t : Half) (k : Nat) (s : State) :
    (receiveLoop n t k s).1.env.tx = s.env.tx ∧ (receiveLoop n t k s).1.env.inputs = s.env.inputs ∧
      (receiveLoop n t k s).1.env.hostData = s.env.hostData := by
  induction k generalizing s with
  | zero => simp [receiveLoop]
  | succ k ih =>
    simp only [receiveLoop]
    split
    · simp
    · split
      · simp
      · split
        · exact ih _
        · simp
        · simp

@[simp] theorem receive_inputs (n : Nat) (t : Half) (s : State) :
    (receive n t s).1.env.inputs = s.env.inputs := by
  simpa [receive] using (receiveLoop_env n t n s.startRx).2.1

@[simp] theorem receive_hostData (n : Nat) (t : Half) (s : State) :
    (receive n t s).1.env.hostData = s.env.hostData := by
  simpa [receive] using (receiveLoop_env n t n s.startRx).2.2

@[simp] theorem receive_tx (n : Nat) (t : Half) (s : State) : (receive n t s).1.env.tx = s.env.tx := by
  simpa [receive] using (receiveLoop_env n t n s.startRx).1

/-- The loop only adds events to the history, none of them a write. -/
theorem receiveLoop_events (n : Nat) (t : Half) (k : Nat) (s : State) :
    ∃ events, (receiveLoop n t k s).1.env.history = s.env.history ++ events ∧ events.countP Event.isTx = 0 := by
  induction k generalizing s with
  | zero => exact ⟨[], by simp [receiveLoop]⟩
  | succ k ih =>
    simp only [receiveLoop]
    split
    · exact ⟨[], by simp⟩
    · split
      · exact ⟨[.now s.now], by simp [State.now, Event.isTx]⟩
      · next ms _ =>
        split
        · next b _ =>
          obtain ⟨events, h, hc⟩ := ih ((s.afterNow.afterRx ms).pushRx b)
          exact ⟨[.now s.now, .rxRead ms s.env.afterNow.rxAnswer] ++ events, by simp [h, State.now], by simp [Event.isTx, hc]⟩
        · exact ⟨[.now s.now, .rxRead ms s.env.afterNow.rxAnswer], by simp [State.now], by simp [Event.isTx]⟩
        · exact ⟨[.now s.now, .rxRead ms s.env.afterNow.rxAnswer], by simp [State.now], by simp [Event.isTx]⟩

/-- `receive` only adds events to the history, none of them a write. -/
theorem receive_events (n : Nat) (t : Half) (s : State) :
    ∃ events, (receive n t s).1.env.history = s.env.history ++ events ∧ events.countP Event.isTx = 0 := by
  obtain ⟨events, h, hc⟩ := receiveLoop_events n t n s.startRx
  exact ⟨.now s.now :: events, by simp [receive, h, State.now], by simp [Event.isTx, hc]⟩

/-- The loop accumulates one byte for each read that returns one. -/
theorem receiveLoop_bytesRead (n : Nat) (t : Half) (k : Nat) (s : State) :
    (receiveLoop n t k s).1.rxbuf.length + s.env.history.countP Event.isByte =
      s.rxbuf.length + (receiveLoop n t k s).1.env.history.countP Event.isByte := by
  induction k generalizing s with
  | zero => rfl
  | succ k ih =>
    simp only [receiveLoop]
    split
    · rfl
    · split
      · simp [Event.isByte]
      · next ms _ =>
        split
        · next b hb =>
          have hb' : s.env.afterNow.rxAnswer = .byte b := hb
          have h := ih ((s.afterNow.afterRx ms).pushRx b)
          simp [Event.isByte, hb'] at h
          omega
        · next hb =>
          have hb' : s.env.afterNow.rxAnswer = .nothing := hb
          simp [Event.isByte, hb']
        · next hb =>
          have hb' : s.env.afterNow.rxAnswer = .err := hb
          simp [Event.isByte, hb']

/-- `receive` accumulates one byte for each of its reads that returns one. -/
theorem receive_bytesRead {n : Nat} {t : Half} {s : State} {events : List Event}
    (h : (receive n t s).1.env.history = s.env.history ++ events) :
    events.countP Event.isByte = (receive n t s).1.rxbuf.length := by
  have h' := receiveLoop_bytesRead n t n s.startRx
  unfold receive at *
  rw [h] at h'
  simp [Event.isByte] at h'
  omega

/-! ## What it returns -/

/-- The verdict on the accumulated bytes, or the transport error of R152. -/
theorem receiveLoop_verdict (n : Nat) (t : Half) (k : Nat) (s : State) :
    (receiveLoop n t k s).2 = (receiveLoop n t k s).1.verdict ∨ (receiveLoop n t k s).2 = rxError := by
  induction k generalizing s with
  | zero => exact .inl rfl
  | succ k ih =>
    simp only [receiveLoop]
    split
    · exact .inl rfl
    · split
      · exact .inl rfl
      · split
        · exact ih _
        · exact .inl rfl
        · exact .inr rfl

theorem receive_verdict (n : Nat) (t : Half) (s : State) :
    (receive n t s).2 = (receive n t s).1.verdict ∨ (receive n t s).2 = rxError :=
  receiveLoop_verdict n t n s.startRx

/-- The loop accumulates at most the bytes that may still come. -/
theorem receiveLoop_length (n : Nat) (t : Half) (k : Nat) (s : State) :
    (receiveLoop n t k s).1.rxbuf.length ≤ s.rxbuf.length + k := by
  induction k generalizing s with
  | zero => simp [receiveLoop]
  | succ k ih =>
    simp only [receiveLoop]
    split
    · simp
    · split
      · simp
      · split
        · refine le_trans (ih _) ?_
          simp; omega
        · simp
        · simp

/-- `receive` never accumulates more than it expects (R151). -/
theorem receive_length (n : Nat) (t : Half) (s : State) : (receive n t s).1.rxbuf.length ≤ n := by
  simpa [receive] using receiveLoop_length n t n s.startRx

/-- The length returned is 0, or the count of accumulated bytes, which then validate. -/
theorem receive_len (n : Nat) (t : Half) (s : State) :
    ((receive n t s).2.len = 0 ∧ (receive n t s).2.code ≠ .ok) ∨
      ((receive n t s).2.len = (receive n t s).1.rxbuf.length ∧ (receive n t s).2.code = .ok ∧
        validate (receive n t s).1.rxbuf = true) := by
  rcases receive_verdict n t s with h | h
  · rw [h, State.verdict]
    split
    · next hv => exact .inr ⟨rfl, rfl, hv⟩
    · exact .inl ⟨rfl, by simp⟩
  · rw [h]; exact .inl ⟨rfl, by simp [rxError]⟩

theorem receive_len_le (n : Nat) (t : Half) (s : State) : (receive n t s).2.len ≤ n := by
  rcases receive_len n t s with ⟨h, -⟩ | ⟨h, -⟩
  · omega
  · rw [h]; exact receive_length n t s

/-- The code is OK, RX_FAIL or TRANSPORT_ERROR. -/
theorem receive_code (n : Nat) (t : Half) (s : State) :
    (receive n t s).2.code = .ok ∨ (receive n t s).2.code = .rxFail ∨ (receive n t s).2.code = .transportError := by
  rcases receive_verdict n t s with h | h
  · rw [h, State.verdict]; split <;> simp
  · rw [h]; simp [rxError]

/-! ## A Transport that delivers given bytes in time -/

/-- A sample of the clock that stays inside the deadline leaves time for a read. -/
theorem State.remaining_in_time {s : State} {t : Half} {x : Time} {xs : List Time} (hc : s.env.clock = x :: xs)
    (hx : s.rxStart ≤ x ∧ x - s.rxStart < t.zeroExtend 64)
    (hl : s.rxStart ≤ s.env.lastNow ∧ (s.env.lastNow = s.rxStart ∨ s.env.lastNow - s.rxStart < t.zeroExtend 64)) :
    ∃ ms, s.remaining t = some ms ∧ s.rxStart ≤ s.now ∧ s.now - s.rxStart < t.zeroExtend 64 := by
  have hn : s.rxStart ≤ s.now ∧ s.now - s.rxStart < t.zeroExtend 64 := by
    have : s.now = if x < s.env.lastNow then s.env.lastNow else x := by
      simp only [State.now, Env.now, Env.clockDraw, hc]
    rw [this]; split
    · next h =>
      refine ⟨hl.1, ?_⟩
      rcases hl.2 with e | h'
      · have := hx.1; rw [e] at h; exact absurd this (BitVec.not_le.2 h)
      · exact h'
    · exact hx
  refine ⟨t.zeroExtend 64 - s.elapsed, ?_, hn⟩
  rw [State.remaining, if_neg]
  exact BitVec.not_le.2 hn.2

/-- A sample past the deadline leaves no time. -/
theorem State.remaining_past {s : State} {t : Half} {x : Time} {xs : List Time} (hc : s.env.clock = x :: xs)
    (hx : s.rxStart ≤ x ∧ t.zeroExtend 64 ≤ x - s.rxStart)
    (hl : s.rxStart ≤ s.env.lastNow ∧ (s.env.lastNow = s.rxStart ∨ s.env.lastNow - s.rxStart < t.zeroExtend 64)) :
    s.remaining t = none := by
  have hn : s.now = x := by
    apply Env.now_of_clock hc
    rcases hl.2 with e | h
    · rw [e]; exact hx.1
    · have h1 := hx.1; have h2 := hx.2; have h3 := hl.1
      bv_omega
  rw [State.remaining, if_pos]
  simpa [State.elapsed, hn] using hx.2

/-- One pass of the loop over a byte that arrives in time. -/
theorem receiveLoop_byte {n : Nat} {t : Half} {b : Byte} {x : Time} {xs : List Time} {rest : List RxAnswer} (k : Nat)
    {s : State} (hn : s.rxbuf.length ≠ n) (hc : s.env.clock = x :: xs) (hr : s.env.rx = .byte b :: rest)
    (hx : s.rxStart ≤ x ∧ x - s.rxStart < t.zeroExtend 64)
    (hl : s.rxStart ≤ s.env.lastNow ∧ (s.env.lastNow = s.rxStart ∨ s.env.lastNow - s.rxStart < t.zeroExtend 64)) :
    ∃ s' : State, receiveLoop n t (k + 1) s = receiveLoop n t k s' ∧ s'.rxbuf = s.rxbuf ++ [b] ∧
      s'.rxStart = s.rxStart ∧ s'.env.clock = xs ∧ s'.env.rx = rest ∧
      s'.rxStart ≤ s'.env.lastNow ∧ s'.env.lastNow - s'.rxStart < t.zeroExtend 64 := by
  obtain ⟨ms, hms, hnow⟩ := State.remaining_in_time (t := t) hc hx hl
  have ha : s.afterNow.rxAnswer = .byte b := by simp [State.rxAnswer, Env.rxAnswer, hr]
  refine ⟨(s.afterNow.afterRx ms).pushRx b, ?_, by simp, by simp, by simp [hc], by simp [hr], hnow⟩
  simp only [receiveLoop, if_neg hn, hms, ha]

/-- The loop over a Transport that delivers `bytes` before anything else: it is the loop over what is left. -/
theorem receiveLoop_bytes {n : Nat} {t : Half} (bytes : List Byte) (samples cs : List Time) (rs : List RxAnswer)
    (k : Nat) (s : State) (hn : s.rxbuf.length + bytes.length ≤ n) (hc : s.env.clock = samples ++ cs)
    (hs : samples.length = bytes.length)
    (hw : ∀ x ∈ samples, s.rxStart ≤ x ∧ x - s.rxStart < t.zeroExtend 64)
    (hl : s.rxStart ≤ s.env.lastNow ∧ (s.env.lastNow = s.rxStart ∨ s.env.lastNow - s.rxStart < t.zeroExtend 64))
    (hr : s.env.rx = bytes.map .byte ++ rs) :
    ∃ s' : State, receiveLoop n t (bytes.length + k) s = receiveLoop n t k s' ∧ s'.rxbuf = s.rxbuf ++ bytes ∧
      s'.rxStart = s.rxStart ∧ s'.env.clock = cs ∧ s'.env.rx = rs ∧
      s'.rxStart ≤ s'.env.lastNow ∧ (s'.env.lastNow = s'.rxStart ∨ s'.env.lastNow - s'.rxStart < t.zeroExtend 64) := by
  induction bytes generalizing samples s with
  | nil =>
    obtain rfl : samples = [] := List.length_eq_zero_iff.1 hs
    exact ⟨s, by simp, by simp, rfl, by simpa using hc, by simpa using hr, hl⟩
  | cons b bytes ih =>
    cases samples with
    | nil => simp at hs
    | cons x samples =>
      simp only [List.length_cons, Nat.add_right_cancel_iff] at hs hn
      obtain ⟨s₁, e₁, hb, hst, hc₁, hr₁, hl₁⟩ := receiveLoop_byte (t := t) (bytes.length + k) (s := s)
        (by omega : s.rxbuf.length ≠ n) (by simpa using hc) (by simpa using hr) (hw x (by simp)) hl
      obtain ⟨s', e, hb', hst', hc', hr', hl'⟩ := ih samples s₁ (by rw [hb]; simp; omega) hc₁ hs
        (fun y hy => by rw [hst]; exact hw y (by simp [hy])) ⟨hl₁.1, .inr hl₁.2⟩ hr₁
      refine ⟨s', ?_, by simp [hb', hb], hst'.trans hst, hc', hr', hl'⟩
      rw [List.length_cons, show bytes.length + 1 + k = bytes.length + k + 1 by omega, e₁, e]

/-- `receive` over an environment that delivers `bytes` in time: it accumulates exactly those, leaves the later answers
to the next command (R151), and returns what R147 and R152 say. -/
theorem receive_delivers {n : Nat} {t : Half} {bytes : List Byte} {ending : RxEnd} {later : List Time}
    {more : List RxAnswer} {s : State} (h : s.env.delivers n t bytes ending later more) :
    (receive n t s).1.rxbuf = bytes ∧ (receive n t s).1.env.clock = later ∧ (receive n t s).1.env.rx = more ∧
      (receive n t s).2 = receivedFor bytes ending := by
  obtain ⟨start, samples, hl, hw, h⟩ := h
  have hstart : ∀ {cs : List Time}, s.env.clock = start :: cs → s.now = start := fun hc => Env.now_of_clock hc hl
  have verdict : ∀ s' : State, s'.rxbuf = bytes → ending ≠ .error → s'.verdict = receivedFor bytes ending := by
    intro s' hb he
    rw [State.verdict, receivedFor, if_neg he, hb]
  have enter : ∀ (smp cs : List Time) (rs : List RxAnswer) (k : Nat), s.env.clock = start :: (smp ++ cs) →
      smp.length = bytes.length → bytes.length + k = n →
      (∀ x ∈ smp, start ≤ x ∧ x - start < t.zeroExtend 64) → s.env.rx = bytes.map .byte ++ rs →
      ∃ s' : State, receive n t s = receiveLoop n t k s' ∧ s'.rxbuf = bytes ∧ s'.rxStart = start ∧
        s'.env.clock = cs ∧ s'.env.rx = rs ∧
        s'.rxStart ≤ s'.env.lastNow ∧
        (s'.env.lastNow = s'.rxStart ∨ s'.env.lastNow - s'.rxStart < t.zeroExtend 64) := by
    intro smp cs rs k hc hs hk hw hr
    have hnow := hstart hc
    obtain ⟨s', e, hb, hst, hc', hr', hl'⟩ := receiveLoop_bytes (n := n) (t := t) bytes smp cs rs k s.startRx
      (by simp; omega) (by simp [hc]) hs (by simpa [hnow] using hw)
      ⟨BitVec.le_refl _, .inl rfl⟩ (by simpa using hr)
    refine ⟨s', ?_, by simpa using hb, by simpa [hnow] using hst, hc', hr', hl'⟩
    rw [receive, ← e, hk]
  cases ending with
  | full =>
    obtain ⟨hb, hs, hc, hr⟩ := h
    obtain ⟨s', e, hb', -, hc', hr', -⟩ := enter samples later more 0 hc (by omega) (by omega) hw hr
    rw [e]
    exact ⟨hb', hc', hr', verdict s' hb' (by simp)⟩
  | nothing =>
    obtain ⟨hb, hs, hc, hr⟩ := h
    obtain ⟨smp, x, rfl⟩ : ∃ smp x, samples = smp ++ [x] :=
      ⟨samples.dropLast, samples.getLast (by intro e; simp [e] at hs), (List.dropLast_concat_getLast _).symm⟩
    obtain ⟨k, hk⟩ : ∃ k, n = bytes.length + (k + 1) := ⟨n - bytes.length - 1, by omega⟩
    obtain ⟨s', e, hb', hst, hc', hr', hl'⟩ := enter smp (x :: later) (.nothing :: more) (k + 1) (by simpa using hc)
      (by simpa using hs) (by omega) (fun y hy => hw y (by simp [hy])) hr
    obtain ⟨ms, hms, -⟩ := State.remaining_in_time (t := t) hc' (by rw [hst]; exact hw x (by simp)) hl'
    have ha : s'.afterNow.rxAnswer = .nothing := by simp [State.rxAnswer, Env.rxAnswer, hr']
    have hne : s'.rxbuf.length ≠ n := by rw [hb']; omega
    rw [e]
    simp only [receiveLoop, if_neg hne, hms, ha]
    exact ⟨by simpa using hb', by simp [hc'], by simp [hr'], verdict s' hb' (by simp)⟩
  | deadline =>
    obtain ⟨hb, hs, hr, x, hx1, hx2, hc⟩ := h
    obtain ⟨k, hk⟩ : ∃ k, n = bytes.length + (k + 1) := ⟨n - bytes.length - 1, by omega⟩
    obtain ⟨s', e, hb', hst, hc', hr', hl'⟩ := enter samples (x :: later) more (k + 1) hc hs (by omega) hw hr
    have hms := State.remaining_past (t := t) hc' (by rw [hst]; exact ⟨hx1, hx2⟩) hl'
    have hne : s'.rxbuf.length ≠ n := by rw [hb']; omega
    rw [e]
    simp only [receiveLoop, if_neg hne, hms]
    exact ⟨by simpa using hb', by simp [hc'], by simpa using hr', verdict s' hb' (by simp)⟩
  | error =>
    obtain ⟨hb, hs, hc, hr⟩ := h
    obtain ⟨smp, x, rfl⟩ : ∃ smp x, samples = smp ++ [x] :=
      ⟨samples.dropLast, samples.getLast (by intro e; simp [e] at hs), (List.dropLast_concat_getLast _).symm⟩
    obtain ⟨k, hk⟩ : ∃ k, n = bytes.length + (k + 1) := ⟨n - bytes.length - 1, by omega⟩
    obtain ⟨s', e, hb', hst, hc', hr', hl'⟩ := enter smp (x :: later) (.err :: more) (k + 1) (by simpa using hc)
      (by simpa using hs) (by omega) (fun y hy => hw y (by simp [hy])) hr
    obtain ⟨ms, hms, -⟩ := State.remaining_in_time (t := t) hc' (by rw [hst]; exact hw x (by simp)) hl'
    have ha : s'.afterNow.rxAnswer = .err := by simp [State.rxAnswer, Env.rxAnswer, hr']
    have hne : s'.rxbuf.length ≠ n := by rw [hb']; omega
    rw [e]
    simp only [receiveLoop, if_neg hne, hms, ha]
    exact ⟨by simpa using hb', by simp [hc'], by simp [hr'], by simp [rxError, receivedFor]⟩

end Sys2Proof.Machine
end

