-- ==== Sys2Proof/Laws/Exchange.lean ====
section
/-!
SUPPORT. What the three exchanges can do, said once: the verified exchange (spec/43_dispatcher.md R162), the reset-energy
exchange (R166) and the update of the cache (spec/44_cache_decoder.md R197). None of them writes a register; they change
the hidden buffers and the environment only, and add at most one write to the history. Also the statuses they end with, and
what the verified exchange does over a Transport whose answers are known.
-/

namespace Sys2Proof.Machine

/-- Only the hidden buffers and the environment differ. -/
def SameRegisters (s s' : State) : Prop :=
  s' = { s with txbuf := s'.txbuf, rxbuf := s'.rxbuf, rxStart := s'.rxStart, env := s'.env }

theorem SameRegisters.refl (s : State) : SameRegisters s s := rfl

theorem SameRegisters.trans {a b c : State} (h₁ : SameRegisters a b) (h₂ : SameRegisters b c) : SameRegisters a c := by
  unfold SameRegisters at *
  rw [h₂, h₁]

theorem SameRegisters.afterNow (s : State) : SameRegisters s s.afterNow := rfl
theorem SameRegisters.afterTx (s : State) (bytes : List Byte) : SameRegisters s (s.afterTx bytes) := rfl
theorem SameRegisters.loadTx (s : State) (frame : List Byte) : SameRegisters s (s.loadTx frame) := rfl

theorem SameRegisters.receive (n : Nat) (t : Half) (s : State) : SameRegisters s (receive n t s).1 := by
  unfold SameRegisters
  rw [receive_frame]

theorem verifiedExchange_sameRegisters (frame : List Byte) (s : State) :
    SameRegisters s (verifiedExchange frame s).1 := by
  unfold verifiedExchange
  dsimp only
  split
  · exact (SameRegisters.loadTx s frame).trans (.afterTx _ _)
  · exact ((SameRegisters.loadTx s frame).trans (.afterTx _ _)).trans (.receive _ _ _)

theorem resetExchange_sameRegisters (s : State) : SameRegisters s (resetExchange s).1 := by
  unfold resetExchange
  dsimp only
  split
  · exact .afterTx _ _
  · exact (SameRegisters.afterTx s _).trans (.receive _ _ _)

theorem updateValues_sameRegisters (s : State) : SameRegisters s (updateValues s).1 := by
  unfold updateValues
  dsimp only
  split
  · exact .afterNow s
  · have h := (SameRegisters.afterNow s).trans (.loadTx _ (bulkRequest s))
    split
    · exact h.trans (.afterTx _ _)
    · split
      · exact (h.trans (.afterTx _ _)).trans (.receive _ _ _)
      · exact ((h.trans (.afterTx _ _)).trans (.receive _ _ _)).trans (.afterNow _)

/-- The verified exchange adds its one write, and then events that are no writes. -/
theorem verifiedExchange_events (frame : List Byte) (s : State) :
    ∃ events, (verifiedExchange frame s).1.env.history =
        s.env.history ++ .txWrite frame (s.txAnswer frame) :: events ∧ events.countP Event.isTx = 0 := by
  unfold verifiedExchange
  dsimp only
  split
  · exact ⟨[], by simp [State.txAnswer], rfl⟩
  · obtain ⟨events, h, hc⟩ := receive_events Config.frame8Len Config.rxTimeoutMs ((s.loadTx frame).afterTx frame)
    exact ⟨events, by simp [h, State.txAnswer], hc⟩

/-- The reset-energy exchange adds its one write, and then events that are no writes. -/
theorem resetExchange_events (s : State) :
    ∃ events, (resetExchange s).1.env.history =
        s.env.history ++ .txWrite (resetEnergyFrame s) (s.txAnswer (resetEnergyFrame s)) :: events ∧
      events.countP Event.isTx = 0 := by
  unfold resetExchange
  dsimp only
  split
  · exact ⟨[], by simp [State.txAnswer], rfl⟩
  · obtain ⟨events, h, hc⟩ := receive_events Config.resetReplyLen Config.rxTimeoutMs (s.afterTx (resetEnergyFrame s))
    exact ⟨events, by simp [h, State.txAnswer], hc⟩

/-- The update of a fresh cache adds one clock sample and nothing else. -/
theorem updateValues_fresh {s : State} (h : s.fresh s.now = true) : updateValues s = (s.afterNow, ⟨.ok, none⟩) := by
  unfold updateValues
  rw [if_pos h]

/-- The update of a stale cache adds a clock sample, its one write, and then events that are no writes. -/
theorem updateValues_events {s : State} (hf : s.fresh s.now = false) :
    ∃ answer events, (updateValues s).1.env.history =
        s.env.history ++ .now s.now :: .txWrite (bulkRequest s) answer :: events ∧ events.countP Event.isTx = 0 := by
  unfold updateValues
  dsimp only
  rw [if_neg (by simp [hf])]
  split
  · exact ⟨(s.afterNow.loadTx (bulkRequest s)).txAnswer (bulkRequest s), [], by simp [State.now, State.txAnswer], rfl⟩
  · obtain ⟨events, h, hc⟩ := receive_events Config.bulkRespLen Config.rxTimeoutMs
      ((s.afterNow.loadTx (bulkRequest s)).afterTx (bulkRequest s))
    refine ⟨(s.afterNow.loadTx (bulkRequest s)).txAnswer (bulkRequest s), ?_⟩
    split
    · exact ⟨events, by simp [h, State.now, State.txAnswer], hc⟩
    · exact ⟨events ++ [.now (receive Config.bulkRespLen Config.rxTimeoutMs
        ((s.afterNow.loadTx (bulkRequest s)).afterTx (bulkRequest s))).1.now], by simp [h, State.now, State.txAnswer],
        by simp [hc, Event.isTx]⟩

/-! ## Statuses -/

theorem verifiedExchange_status (frame : List Byte) (s : State) :
    (verifiedExchange frame s).2 = .ok ∨ (verifiedExchange frame s).2 = .transportError ∨
      (verifiedExchange frame s).2 = .rxFail ∨ (verifiedExchange frame s).2 = .verifyError := by
  unfold verifiedExchange
  dsimp only
  split
  · simp
  · unfold echoStatus
    dsimp only
    split_ifs <;> simp

theorem resetExchange_status (s : State) :
    (resetExchange s).2 = .ok ∨ (resetExchange s).2 = .transportError ∨ (resetExchange s).2 = .rxFail ∨
      (resetExchange s).2 = .replyRejected := by
  unfold resetExchange
  dsimp only
  split
  · simp
  · unfold resetEnergyStatus
    dsimp only
    split_ifs <;> simp

/-- Why a bulk response is not stored: a transport error or a failed receive. -/
theorem bulkFailure_some {r : Received} {code : Status} (h : bulkFailure r = some code) :
    code = .transportError ∨ code = .rxFail := by
  unfold bulkFailure at h
  split_ifs at h <;> simp_all

/-- An update that fails stores nothing. -/
theorem updateValues_status (s : State) :
    (updateValues s).2.code = .ok ∨
      (((updateValues s).2.code = .transportError ∨ (updateValues s).2.code = .rxFail) ∧
        (updateValues s).2.snap = none) := by
  unfold updateValues
  dsimp only
  split
  · simp
  · split
    · simp
    · split
      · next code h => exact .inr ⟨bulkFailure_some h, rfl⟩
      · simp

theorem updateValues_failed {s : State} (h : (updateValues s).2.code ≠ .ok) : (updateValues s).2.snap = none := by
  rcases updateValues_status s with e | e
  · exact absurd e h
  · exact e.2

/-! ## What no exchange touches of the environment -/

theorem verifiedExchange_host (frame : List Byte) (s : State) :
    (verifiedExchange frame s).1.env.inputs = s.env.inputs ∧
      (verifiedExchange frame s).1.env.hostData = s.env.hostData := by
  unfold verifiedExchange
  dsimp only
  split <;> simp

theorem resetExchange_host (s : State) :
    (resetExchange s).1.env.inputs = s.env.inputs ∧ (resetExchange s).1.env.hostData = s.env.hostData := by
  unfold resetExchange
  dsimp only
  split <;> simp

theorem updateValues_host (s : State) :
    (updateValues s).1.env.inputs = s.env.inputs ∧ (updateValues s).1.env.hostData = s.env.hostData := by
  unfold updateValues
  dsimp only
  split
  · simp
  · split
    · simp
    · split <;> simp

/-! ## The verified exchange over a known Transport -/

/-- A Transport that fails the write. -/
theorem verifiedExchange_fails {s : State} (frame : List Byte) (h : s.env.failsFrame) :
    verifiedExchange frame s = ((s.loadTx frame).afterTx frame, .transportError) := by
  obtain ⟨rest, h⟩ := h
  have ha : (s.loadTx frame).txAnswer frame = .err := by simp [State.txAnswer, Env.txAnswer_of_err h]
  unfold verifiedExchange
  dsimp only
  rw [ha]

/-- The update of a stale cache over a Transport that fails the write: the sample, the frame, and no receive. -/
theorem updateValues_fails {s : State} (hf : s.fresh s.now = false) (h : s.env.failsFrame) :
    updateValues s =
      ((s.afterNow.loadTx (bulkRequest s)).afterTx (bulkRequest s), ⟨.transportError, none⟩) ∧
    (updateValues s).1.env.history =
      s.env.history ++ [.now s.env.now, .txWrite (bulkRequest s) .err] := by
  obtain ⟨rest, h⟩ := h
  have ha : (s.afterNow.loadTx (bulkRequest s)).env.txAnswer (bulkRequest s) = .err :=
    Env.txAnswer_of_err (e := (s.afterNow.loadTx (bulkRequest s)).env) h _
  have hu : updateValues s =
      ((s.afterNow.loadTx (bulkRequest s)).afterTx (bulkRequest s), ⟨.transportError, none⟩) := by
    unfold updateValues
    dsimp only
    rw [if_neg (by simp [hf]), State.txAnswer, ha]
  refine ⟨hu, ?_⟩
  rw [hu, State.afterTx_env, Env.afterTx_history, ha]
  simp

/-- A Transport that takes the frame and delivers a reply: the state, the verdict, and the events. -/
theorem verifiedExchange_delivers {s : State} {frame bytes : List Byte} {ending : RxEnd} {later : List Time}
    {more : List RxAnswer} (hf : frame.length = 8) (ht : s.env.takesFrame)
    (hd : s.env.delivers 8 100 bytes ending later more) :
    ∃ k events,
      (verifiedExchange frame s).1 =
        { s with
          txbuf := frame, rxbuf := bytes, rxStart := (verifiedExchange frame s).1.rxStart
          env := (verifiedExchange frame s).1.env } ∧
      (verifiedExchange frame s).2 = echoOutcome frame bytes ending ∧
      (verifiedExchange frame s).1.env.clock = later ∧ (verifiedExchange frame s).1.env.rx = more ∧
      (verifiedExchange frame s).1.env.history = s.env.history ++ .txWrite frame (.ok k) :: events ∧
      events.countP Event.isTx = 0 := by
  obtain ⟨k, rest, ht⟩ := ht
  have ha : (s.loadTx frame).txAnswer frame = .ok (min k 8) := by simp [State.txAnswer, Env.txAnswer_of_ok ht, hf]
  have hd' : ((s.loadTx frame).afterTx frame).env.delivers 8 100 bytes ending later more := hd
  obtain ⟨hb, hc, hr, hv⟩ := receive_delivers hd'
  obtain ⟨events, he, hce⟩ := receive_events 8 100 ((s.loadTx frame).afterTx frame)
  have hx : verifiedExchange frame s =
      ((receive 8 100 ((s.loadTx frame).afterTx frame)).1,
        echoStatus (receive 8 100 ((s.loadTx frame).afterTx frame)).1
          (receive 8 100 ((s.loadTx frame).afterTx frame)).2) := by
    unfold verifiedExchange
    dsimp only
    rw [ha]
    rfl
  rw [hx]
  refine ⟨min k 8, events, ?_, ?_, hc, hr, ?_, hce⟩
  · dsimp only
    rw [receive_frame]
    simp only [hb]
    rfl
  · dsimp only
    rw [hv]
    unfold echoStatus echoOutcome receivedFor
    simp only [hb, receive_txbuf, State.afterTx_txbuf, State.loadTx_txbuf]
    by_cases h1 : ending = .error
    · simp [h1]
    · by_cases h2 : validate bytes = true
      · by_cases h3 : bytes.length = 8
        · simp [h1, h2, h3, Config.frame8Len, List.take_of_length_le]
        · simp [h1, h2, h3, Config.frame8Len]
      · simp [h1, h2, Config.frame8Len]
  · simpa [State.txAnswer, Env.txAnswer_of_ok ht, hf] using he

end Sys2Proof.Machine
end

