-- ==== Sys2Proof/Laws/Commands.lean ====
section
/-!
SUPPORT. What a command can do, said once: it finishes a state in which only the hidden buffers and the environment have
changed, after at most one write, with staged writes to the registers its rule names and no others.
-/

namespace Sys2Proof.Machine

/-- Staged writes to the cache and to `RESULT` and its flag only, with nothing for the cache in a failed command. -/
def Commit.refreshes (c : Commit) : Prop :=
  c = { status := c.status, snap := c.snap, lastReadMs := c.lastReadMs, hasSnap := c.hasSnap, result := c.result
        resultValid := c.resultValid } ∧
    (c.status ≠ .ok → c.snap = {} ∧ c.lastReadMs = none ∧ c.hasSnap = false)

/-- The staged writes each command may make (spec/40_crc.md R104, R106; spec/41_frame_codec.md R121, R123;
spec/42_receive.md R149; spec/43_dispatcher.md R160 to R166; spec/44_cache_decoder.md R195 to R201), for the state `s'` at
its finish. -/
def Commit.allowed (i : Instr) (s' : State) (c : Commit) : Prop :=
  match i with
  | .crc16 _ | .validate _ => c = { status := c.status, result := c.result }
  | .encode8 _ _ _ _ | .encode4 _ _ => c = { status := c.status, hlen := c.hlen, hbuf := c.hbuf }
  | .decode => c = { status := c.status, dec := c.dec }
  | .receive len _ =>
    c = illegal ∨
      ∃ r : Received, c = receiveCommit s' r ∧ s'.rxbuf.length ≤ len.toNat ∧ len.toNat ≤ 32 ∧
        (r.len = 0 ∧ r.code ≠ .ok ∨ r.len = s'.rxbuf.length ∧ r.code = .ok)
  | .setAddress a =>
    c = { status := c.status, sessAddr := c.sessAddr } ∧
      (c.status = .ok → c.sessAddr = some a ∧ isHostAddr a = true) ∧ (c.status ≠ .ok → c.sessAddr = none)
  | .sendRead _ _ _ _ _ _ | .writeReg _ _ | .setPowerAlarm _ | .resetEnergy => c = { status := c.status }
  | .updateValues => c.refreshes ∧ c.result = none ∧ c.resultValid = none
  | .readVoltage | .readCurrent | .readPower | .readEnergy | .readFrequency | .readPf | .readAlarms | .getPowerAlarm =>
    c.refreshes

/-- A command between its issue and its finish: only the hidden buffers and the environment differ, at most one write has
been made, and the host's side of the environment is untouched. -/
structure Worked (s s' : State) : Prop where
  same : SameRegisters s s'
  events : ∃ events, s'.env.history = s.env.history ++ events ∧ events.countP Event.isTx ≤ 1
  inputs : s'.env.inputs = s.env.inputs
  hostData : s'.env.hostData = s.env.hostData

theorem Worked.refl (s : State) : Worked s s := ⟨.refl s, ⟨[], by simp, by simp⟩, rfl, rfl⟩

theorem Worked.verifiedExchange (frame : List Byte) (s : State) : Worked s (verifiedExchange frame s).1 := by
  obtain ⟨events, h, hc⟩ := verifiedExchange_events frame s
  exact ⟨verifiedExchange_sameRegisters frame s, ⟨_, h, by simp [List.countP_cons, hc]⟩,
    (verifiedExchange_host frame s).1, (verifiedExchange_host frame s).2⟩

theorem Worked.resetExchange (s : State) : Worked s (resetExchange s).1 := by
  obtain ⟨events, h, hc⟩ := resetExchange_events s
  exact ⟨resetExchange_sameRegisters s, ⟨_, h, by simp [List.countP_cons, hc]⟩, (resetExchange_host s).1,
    (resetExchange_host s).2⟩

theorem Worked.receive (n : Nat) (t : Half) (s : State) : Worked s (receive n t s).1 := by
  obtain ⟨events, h, hc⟩ := receive_events n t s
  exact ⟨.receive n t s, ⟨_, h, by omega⟩, by simp, by simp⟩

theorem Worked.updateValues (s : State) : Worked s (updateValues s).1 := by
  refine ⟨updateValues_sameRegisters s, ?_, (updateValues_host s).1, (updateValues_host s).2⟩
  by_cases hf : s.fresh s.now = true
  · rw [updateValues_fresh hf]
    exact ⟨[.now s.now], by simp [State.now], by simp⟩
  · obtain ⟨answer, events, h, hc⟩ := updateValues_events (s := s) (by simpa using hf)
    exact ⟨_, h, by simp [List.countP_cons, hc]⟩

/-- What an update stages is a refresh. -/
theorem updateCommit_refreshes (s : State) : (updateCommit (updateValues s).2).refreshes := by
  have h := @updateValues_failed s
  generalize (updateValues s).2 = u at h
  obtain ⟨code, _ | ⟨d, m⟩⟩ := u
  · exact ⟨rfl, fun _ => ⟨rfl, rfl, rfl⟩⟩
  · exact ⟨rfl, fun e => by cases h e⟩

/-- The accessors, once for all eight. -/
theorem accessor_next {f : Fields → Word} {s t : State}
    (h : (Host.Outcome.next ((updateValues s).1.finish
      (.of (updateValues s).2.code (accessorWrites f (updateValues s).1 (updateValues s).2))) :
        Host.Outcome State Fault Refusal) = .next t) :
    ∃ s' c, t = s'.finish c ∧ Worked s s' ∧ c.refreshes := by
  simp only [Host.Outcome.next.injEq] at h
  refine ⟨_, _, h.symm, .updateValues s, ?_⟩
  rw [accessorWrites_commit]
  obtain ⟨e, hf⟩ := updateCommit_refreshes s
  exact ⟨by rw [e], hf⟩

/-- Every command that completes finishes a state it has worked on, with writes its rule allows. -/
theorem exec_next {i : Instr} {s t : State} (h : exec i s = .next t) :
    ∃ s' c, t = s'.finish c ∧ Worked s s' ∧ c.allowed i s' := by
  cases i with
  | crc16 len =>
    simp only [exec, execCrc16, crc16Commit] at h
    split_ifs at h
    · split at h <;> simp [complete] at h
      exact ⟨_, _, h.symm, .refl s, rfl⟩
    · simp [complete] at h
      exact ⟨_, _, h.symm, .refl s, rfl⟩
  | validate len =>
    simp only [exec, execValidate, validateCommit] at h
    split_ifs at h
    · simp [complete] at h
      exact ⟨_, _, h.symm, .refl s, rfl⟩
    · split at h <;> simp [complete] at h
      exact ⟨_, _, h.symm, .refl s, rfl⟩
    · simp [complete] at h
      exact ⟨_, _, h.symm, .refl s, rfl⟩
  | encode8 =>
    simp [exec, execEncode8, complete] at h
    exact ⟨_, _, h.symm, .refl s, rfl⟩
  | encode4 =>
    simp [exec, execEncode4, complete] at h
    exact ⟨_, _, h.symm, .refl s, rfl⟩
  | receive len timeout =>
    simp only [exec, execReceive] at h
    split_ifs at h with hl
    · simp only [Host.Outcome.next.injEq] at h
      refine ⟨_, _, h.symm, .receive _ _ _, .inr ⟨_, rfl, receive_length _ _ _, of_decide_eq_true hl, ?_⟩⟩
      rcases receive_len len.toNat timeout s with h | h
      · exact .inl h
      · exact .inr ⟨h.1, h.2.1⟩
    · simp only [Host.Outcome.next.injEq] at h
      exact ⟨_, _, h.symm, .refl s, .inl rfl⟩
  | sendRead fc reg count verify override addr =>
    simp only [exec, execSendRead] at h
    split_ifs at h
    · simp only [Host.Outcome.next.injEq] at h
      exact ⟨_, _, h.symm, .verifiedExchange _ _, rfl⟩
    · simp only [Host.Outcome.next.injEq] at h
      exact ⟨_, _, h.symm,
        ⟨(SameRegisters.loadTx s _).trans (.afterTx _ _), ⟨[_], rfl, List.countP_le_length⟩, rfl, rfl⟩, rfl⟩
  | writeReg reg value =>
    simp only [exec, execWriteReg, Host.Outcome.next.injEq] at h
    exact ⟨_, _, h.symm, .verifiedExchange _ _, rfl⟩
  | setAddress a =>
    simp only [exec, execSetAddress] at h
    split_ifs at h with ha
    · simp only [Host.Outcome.next.injEq] at h
      rw [setAddressCommit_eq] at h
      refine ⟨_, _, h.symm, .verifiedExchange _ _, rfl, fun e => ⟨if_pos e, ha⟩, fun e => if_neg e⟩
    · simp only [Host.Outcome.next.injEq] at h
      exact ⟨_, _, h.symm, .refl s, rfl, by simp, by simp⟩
  | setPowerAlarm watts =>
    simp only [exec, execSetPowerAlarm, Host.Outcome.next.injEq] at h
    exact ⟨_, _, h.symm, .verifiedExchange _ _, rfl⟩
  | resetEnergy =>
    simp only [exec, execResetEnergy, Host.Outcome.next.injEq] at h
    exact ⟨_, _, h.symm, .resetExchange s, rfl⟩
  | updateValues =>
    simp only [exec, execUpdateValues, Host.Outcome.next.injEq] at h
    refine ⟨_, _, h.symm, .updateValues s, updateCommit_refreshes s, ?_⟩
    unfold updateCommit updateWrites
    split <;> exact ⟨rfl, rfl⟩
  | decode =>
    simp only [exec, execDecode, decodeCommit] at h
    split at h <;> simp [complete] at h
    exact ⟨_, _, h.symm, .refl s, rfl⟩
  | readVoltage => exact accessor_next h
  | readCurrent => exact accessor_next h
  | readPower => exact accessor_next h
  | readEnergy => exact accessor_next h
  | readFrequency => exact accessor_next h
  | readPf => exact accessor_next h
  | readAlarms => exact accessor_next h
  | getPowerAlarm => exact accessor_next h

end Sys2Proof.Machine
end

