-- ==== Sys2Proof/Laws/Micro.lean ====
section
/-!
SUPPORT. What the micro-steps can do, said once: one micro-step that does not finish the command changes only the hidden
buffers and the environment, the environment only grows, and the micro-steps of a receive end where `receive` ends.
-/

namespace Sys2Proof.Machine

/-! ## One micro-step -/

/-- What one primitive can do, short of `finish`: nothing, one primitive of the environment, or one write to a hidden
buffer. -/
theorem perform_ok {i : Instr} {p p' : Primitive} {s s' : State} (h : perform i p s = .ok (s', some p')) :
    s' = s ∨ s' = s.afterNow ∨ (∃ frame, s' = s.afterTx frame) ∨ (∃ ms, s' = s.afterRx ms) ∨
      (∃ frame, s' = s.loadTx frame) ∨ s' = s.clearRx ∨ (∃ t, s' = s.setStart t) ∨ (∃ b, s' = s.pushRx b) := by
  cases p with
  | memRead => simp only [perform] at h; split at h <;> simp at h; exact .inl h.1.symm
  | compute | encode | rxStore | check | decodeReply => simp [perform] at h; exact .inl h.1.symm
  | sampleStart | sampleBefore | sampleAfter => simp [perform] at h; exact .inr (.inl h.1.symm)
  | sampleLoop => simp only [perform] at h; split at h <;> simp at h <;> exact .inr (.inl h.1.symm)
  | txWrite frame => simp [perform] at h; exact .inr (.inr (.inl ⟨_, h.1.symm⟩))
  | rxRead ms =>
    simp only [perform] at h; split at h <;> simp at h <;> exact .inr (.inr (.inr (.inl ⟨_, h.1.symm⟩)))
  | loadTx frame => simp [perform] at h; exact .inr (.inr (.inr (.inr (.inl ⟨_, h.1.symm⟩))))
  | clearCount => simp [perform] at h; exact .inr (.inr (.inr (.inr (.inr (.inl h.1.symm)))))
  | setStart t => simp [perform] at h; exact .inr (.inr (.inr (.inr (.inr (.inr (.inl ⟨_, h.1.symm⟩))))))
  | rxCount b => simp [perform] at h; exact .inr (.inr (.inr (.inr (.inr (.inr (.inr ⟨_, h.1.symm⟩))))))
  | ending todo c => cases todo <;> simp [perform] at h; exact .inl h.1.symm

/-- The last micro-step is the `finish` of what has been staged. -/
theorem perform_finished {i : Instr} {p : Primitive} {s s' : State} (h : perform i p s = .ok (s', none)) :
    ∃ c, p = .ending [] c ∧ s' = s.finish c := by
  cases p with
  | memRead | sampleLoop | rxRead => simp only [perform] at h; split at h <;> simp at h
  | ending todo c => cases todo <;> simp [perform] at h; exact ⟨c, rfl, h.symm⟩
  | compute | encode | loadTx | txWrite | clearCount | sampleStart | setStart | rxStore | rxCount | check
  | sampleBefore | decodeReply | sampleAfter => simp [perform] at h

theorem advance_ok {i : Instr} {p p' : Phase} {s s' : State} (h : advance i p s = .ok (s', some p')) :
    ∃ q, p' = .next q ∧ perform i (p.primitive i) s = .ok (s', some q) := by
  unfold advance at h
  generalize perform i (p.primitive i) s = r at h
  rcases r with f | ⟨s₁, _ | q⟩ <;> simp [Except.map] at h
  exact ⟨q, h.2.symm, by rw [h.1]⟩

theorem advance_finished {i : Instr} {p : Phase} {s s' : State} (h : advance i p s = .ok (s', none)) :
    perform i (p.primitive i) s = .ok (s', none) := by
  unfold advance at h
  generalize perform i (p.primitive i) s = r at h
  rcases r with f | ⟨s₁, _ | q⟩ <;> simp [Except.map] at h
  rw [h]

theorem advance_next {i : Instr} {p q : Primitive} {s s' : State} (h : perform i p s = .ok (s', some q)) :
    advance i (.next p) s = .ok (s', some (.next q)) := by
  simp [advance, Phase.primitive, h, Except.map]

/-- A command at its start is a command at its first primitive. -/
theorem advanceFor_start (k : Nat) (i : Instr) (s : State) :
    advanceFor (k + 1) i .start s = advanceFor (k + 1) i (.next (entry i)) s := rfl

/-- A micro-step that does not finish the command changes the hidden buffers and the environment only. -/
theorem advance_sameRegisters {i : Instr} {p p' : Phase} {s s' : State} (h : advance i p s = .ok (s', some p')) :
    SameRegisters s s' := by
  obtain ⟨q, -, h⟩ := advance_ok h
  rcases perform_ok h with rfl | rfl | ⟨_, rfl⟩ | ⟨_, rfl⟩ | ⟨_, rfl⟩ | rfl | ⟨_, rfl⟩ | ⟨_, rfl⟩ <;> rfl

/-! ## The environment only grows -/

/-- Events are added at the end, the largest sample does not decrease, and the samples stay in order. -/
structure Env.Grows (e e' : Env) : Prop where
  events : ∃ events, e'.history = e.history ++ events
  lastNow : e.lastNow ≤ e'.lastNow
  clockOk : e.clockOk → e'.clockOk

theorem Env.Grows.refl (e : Env) : Env.Grows e e := ⟨⟨[], by simp⟩, BitVec.le_refl _, id⟩

theorem Env.Grows.trans {a b c : Env} (h₁ : Env.Grows a b) (h₂ : Env.Grows b c) : Env.Grows a c := by
  obtain ⟨⟨e₁, h₁⟩, l₁, k₁⟩ := h₁
  obtain ⟨⟨e₂, h₂⟩, l₂, k₂⟩ := h₂
  exact ⟨⟨e₁ ++ e₂, by rw [h₂, h₁]; simp⟩, BitVec.le_trans l₁ l₂, k₂ ∘ k₁⟩

theorem Env.Grows.afterNow (e : Env) : Env.Grows e e.afterNow := by
  refine ⟨⟨_, rfl⟩, Env.lastNow_le_now e, fun ⟨h₁, h₂⟩ => ?_⟩
  have hs : clockSamples e.afterNow.history = clockSamples e.history ++ [e.now] := by
    simp [clockSamples, Env.afterNow]
  constructor
  · rw [hs, List.pairwise_append]
    refine ⟨h₁, by simp, fun a ha b hb => ?_⟩
    simp only [List.mem_singleton] at hb
    subst hb
    exact BitVec.le_trans (h₂ a ha) (Env.lastNow_le_now e)
  · rw [hs]
    intro t ht
    simp only [List.mem_append, List.mem_singleton] at ht
    rcases ht with ht | rfl
    · exact BitVec.le_trans (h₂ t ht) (Env.lastNow_le_now e)
    · exact BitVec.le_refl _

theorem Env.Grows.afterTx (e : Env) (bytes : List Byte) : Env.Grows e (e.afterTx bytes) := by
  have hs : clockSamples (e.afterTx bytes).history = clockSamples e.history := by simp [clockSamples, Env.afterTx]
  exact ⟨⟨_, rfl⟩, BitVec.le_refl _, fun ⟨h₁, h₂⟩ => ⟨by rw [hs]; exact h₁, by rw [hs]; exact h₂⟩⟩

theorem Env.Grows.afterRx (e : Env) (ms : Time) : Env.Grows e (e.afterRx ms) := by
  have hs : clockSamples (e.afterRx ms).history = clockSamples e.history := by simp [clockSamples, Env.afterRx]
  exact ⟨⟨_, rfl⟩, BitVec.le_refl _, fun ⟨h₁, h₂⟩ => ⟨by rw [hs]; exact h₁, by rw [hs]; exact h₂⟩⟩

theorem advance_grows {i : Instr} {p : Phase} {s s' : State} {o : Option Phase} (h : advance i p s = .ok (s', o)) :
    Env.Grows s.env s'.env := by
  cases o with
  | none => obtain ⟨c, -, rfl⟩ := perform_finished (advance_finished h); exact .refl _
  | some p' =>
    obtain ⟨q, -, h⟩ := advance_ok h
    rcases perform_ok h with rfl | rfl | ⟨_, rfl⟩ | ⟨_, rfl⟩ | ⟨_, rfl⟩ | rfl | ⟨_, rfl⟩ | ⟨_, rfl⟩
    · exact .refl _
    · exact .afterNow _
    · exact .afterTx _ _
    · exact .afterRx _ _
    all_goals exact .refl _

/-! ## Many micro-steps -/

/-- Micro-steps compose. -/
theorem advanceFor_add (m : Nat) (k : Nat) (i : Instr) (p : Phase) (s : State) :
    advanceFor (k + m) i p s =
      match advanceFor k i p s with
      | .error f => .error f
      | .ok (s', none) => .ok (s', none)
      | .ok (s', some p') => advanceFor m i p' s' := by
  induction k generalizing p s with
  | zero => simp [advanceFor]
  | succ k ih =>
    rw [show k + 1 + m = (k + m) + 1 by omega]
    simp only [advanceFor]
    split
    · rfl
    · rfl
    · exact ih _ _

/-- What holds of the state and the phase before micro-steps, and is kept by each, holds after them; `Q` holds where the
command has finished. -/
theorem advanceFor_induction {i : Instr} {P : Phase → State → Prop} {Q : State → Prop}
    (hstep : ∀ p s s' p', P p s → advance i p s = .ok (s', some p') → P p' s')
    (hfin : ∀ p s s', P p s → advance i p s = .ok (s', none) → Q s') :
    ∀ (k : Nat) (p : Phase) (s s' : State) (o : Option Phase), P p s → advanceFor k i p s = .ok (s', o) →
      match o with
      | some p' => P p' s'
      | none => Q s' := by
  intro k
  induction k with
  | zero => intro p s s' o hp h; simp [advanceFor] at h; obtain ⟨rfl, rfl⟩ := h; exact hp
  | succ k ih =>
    intro p s s' o hp h
    simp only [advanceFor] at h
    split at h
    · simp at h
    · next s₁ h₁ => simp at h; obtain ⟨rfl, rfl⟩ := h; exact hfin _ _ _ hp h₁
    · next s₁ p₁ h₁ => exact ih _ _ _ _ (hstep _ _ _ _ hp h₁) h

/-- At most `k` micro-steps lead from one phase and state to another. -/
def Reaches (k : Nat) (i : Instr) (p : Phase) (s : State) (p' : Phase) (s' : State) : Prop :=
  ∃ j, j ≤ k ∧ advanceFor j i p s = .ok (s', some p')

theorem Reaches.trans {k m : Nat} {i : Instr} {p p' p'' : Phase} {s s' s'' : State} (h₁ : Reaches k i p s p' s')
    (h₂ : Reaches m i p' s' p'' s'') : Reaches (k + m) i p s p'' s'' := by
  obtain ⟨j, hj, e⟩ := h₁
  obtain ⟨l, hl, e'⟩ := h₂
  exact ⟨j + l, by omega, by rw [advanceFor_add, e]; exact e'⟩

theorem Reaches.mono {k m : Nat} {i : Instr} {p p' : Phase} {s s' : State} (h : Reaches k i p s p' s') (hk : k ≤ m) :
    Reaches m i p s p' s' := by
  obtain ⟨j, hj, e⟩ := h
  exact ⟨j, by omega, e⟩

/-- One micro-step. -/
theorem Reaches.one {i : Instr} {p p' : Primitive} {s s' : State} (h : perform i p s = .ok (s', some p')) :
    Reaches 1 i (.next p) s (.next p') s' := ⟨1, le_refl _, by simp [advanceFor, advance_next h]⟩

/-- The writes of a command are staged one by one. -/
theorem reaches_ending (i : Instr) (todo : List Write) (c : Commit) (s : State) :
    Reaches todo.length i (.next (.ending todo c)) s (.next (.ending [] (todo.foldl Commit.stage c))) s := by
  induction todo generalizing c with
  | nil => exact ⟨0, le_refl _, rfl⟩
  | cons w todo ih => exact ((Reaches.one (s' := s) rfl).trans (ih (c.stage w))).mono (by simp; omega)

/-- Up to `k` micro-steps stage the writes and finish the command. -/
theorem advanceFor_ending {k : Nat} {i : Instr} {p : Phase} {s s' : State} {todo : List Write} {c : Commit}
    (h : Reaches k i p s (.next (.ending todo c)) s') {n : Nat} (hn : k + todo.length < n) :
    advanceFor n i p s = .ok (s'.finish (todo.foldl Commit.stage c), none) := by
  obtain ⟨j, hj, e⟩ := h.trans (reaches_ending i todo c s')
  obtain ⟨m, rfl⟩ : ∃ m, n = j + (m + 1) := ⟨n - j - 1, by omega⟩
  rw [advanceFor_add, e]
  rfl

/-- The loop of `receive` and the test of what it accumulated, micro-step by micro-step: at most four for each byte. -/
theorem reaches_receiveLoop {i : Instr} {n : Nat} {t : Half} (he : expectedReply i = (n, t)) (k : Nat) (s : State)
    (hk : s.rxbuf.length + k = n) :
    Reaches (4 * k + 1) i (.next (loopHead i s)) s
      (.next (afterReceive i (receiveLoop n t k s).2 (receiveLoop n t k s).1)) (receiveLoop n t k s).1 := by
  induction k generalizing s with
  | zero =>
    rw [show loopHead i s = .check by simp [loopHead, he]; omega]
    exact Reaches.one rfl
  | succ k ih =>
    rw [show loopHead i s = .sampleLoop by simp [loopHead, he]; omega]
    simp only [receiveLoop]
    rw [if_neg (by omega)]
    cases hr : s.remaining t with
    | none =>
      have h₁ : Reaches 1 i (.next .sampleLoop) s (.next .check) s.afterNow := .one (by simp only [perform, he, hr])
      exact (h₁.trans (.one rfl)).mono (by omega)
    | some ms =>
      have h₁ : Reaches 1 i (.next .sampleLoop) s (.next (.rxRead ms)) s.afterNow :=
        .one (by simp only [perform, he, hr])
      dsimp only
      cases ha : s.afterNow.rxAnswer with
      | byte b =>
        have h₂ : Reaches 1 i (.next (.rxRead ms)) s.afterNow (.next (.rxStore b)) (s.afterNow.afterRx ms) :=
          .one (by simp only [perform, ha])
        exact (((h₁.trans h₂).trans ((Reaches.one rfl).trans (.one rfl))).trans
          (ih ((s.afterNow.afterRx ms).pushRx b) (by simp; omega))).mono (by omega)
      | nothing =>
        have h₂ : Reaches 1 i (.next (.rxRead ms)) s.afterNow (.next .check) (s.afterNow.afterRx ms) :=
          .one (by simp only [perform, ha])
        exact ((h₁.trans h₂).trans (.one rfl)).mono (by omega)
      | err => exact (h₁.trans (.one (by simp only [perform, ha]))).mono (by omega)

/-- `receive`, micro-step by micro-step. -/
theorem reaches_receive {i : Instr} {n : Nat} {t : Half} (he : expectedReply i = (n, t)) (s : State) :
    Reaches (4 * n + 4) i (.next .clearCount) s (.next (afterReceive i (receive n t s).2 (receive n t s).1))
      (receive n t s).1 :=
  (((Reaches.one rfl).trans ((Reaches.one rfl).trans (Reaches.one rfl))).trans
    (reaches_receiveLoop he n s.startRx (by simp))).mono (by omega)

end Sys2Proof.Machine
end

