-- ==== Sys2Proof/Laws/PerInstr.lean ====
section
/-!
SUPPORT. One lemma per constructor of Instr: the word of a command is selected by its row of the opcode table
(spec/30_encoding.md R75: every row has the mask 0xFC000000000000FF and matches its OP).
-/

namespace Sys2Proof.Laws.OpcodeRow

/-- The word of `i`, under the table's mask, is the row's match. -/
def Statement (i : Instr) : Prop :=
  encode i &&& 0xFC000000000000FF#64 = (opcode i).zeroExtend 64

/-- The mask keeps the `OP` field of a command word and nothing else. -/
theorem commandWord_masked (op a f : Byte) (b c : Half) (v o : Bool) :
    commandWord op a f b c v o &&& 0xFC000000000000FF#64 = op.zeroExtend 64 := by
  apply BitVec.eq_of_getLsbD_eq
  intro k hk
  have : k ∈ List.range 64 := by simpa using hk
  revert this
  simp only [commandWord, List.range, List.range.loop, List.mem_cons, List.not_mem_nil, or_false]
  rintro (h | h | h | h | h | h | h | h | h | h | h | h | h | h | h | h | h | h | h | h | h | h | h | h | h | h | h | h |
    h | h | h | h | h | h | h | h | h | h | h | h | h | h | h | h | h | h | h | h | h | h | h | h | h | h | h | h | h | h |
    h | h | h | h | h | h) <;> subst h <;> simp

theorem crc16 (len : Half) : Statement (.crc16 len) := commandWord_masked _ _ _ _ _ _ _
theorem validate (len : Half) : Statement (.validate len) := commandWord_masked _ _ _ _ _ _ _
theorem encode8 (addr : Byte) (fc : Byte) (reg : Half) (value : Half) : Statement (.encode8 addr fc reg value) := commandWord_masked _ _ _ _ _ _ _
theorem encode4 (addr : Byte) (fc : Byte) : Statement (.encode4 addr fc) := commandWord_masked _ _ _ _ _ _ _
theorem receive (len : Half) (timeout : Half) : Statement (.receive len timeout) := commandWord_masked _ _ _ _ _ _ _
theorem sendRead (fc : Byte) (reg : Half) (count : Half) (verify : Bool) (override : Bool) (addr : Byte) : Statement (.sendRead fc reg count verify override addr) := commandWord_masked _ _ _ _ _ _ _
theorem writeReg (reg : Half) (value : Half) : Statement (.writeReg reg value) := commandWord_masked _ _ _ _ _ _ _
theorem setAddress (addr : Byte) : Statement (.setAddress addr) := commandWord_masked _ _ _ _ _ _ _
theorem setPowerAlarm (watts : Half) : Statement (.setPowerAlarm watts) := commandWord_masked _ _ _ _ _ _ _
theorem resetEnergy : Statement .resetEnergy := commandWord_masked _ _ _ _ _ _ _
theorem updateValues : Statement .updateValues := commandWord_masked _ _ _ _ _ _ _
theorem decode : Statement .decode := commandWord_masked _ _ _ _ _ _ _
theorem readVoltage : Statement .readVoltage := commandWord_masked _ _ _ _ _ _ _
theorem readCurrent : Statement .readCurrent := commandWord_masked _ _ _ _ _ _ _
theorem readPower : Statement .readPower := commandWord_masked _ _ _ _ _ _ _
theorem readEnergy : Statement .readEnergy := commandWord_masked _ _ _ _ _ _ _
theorem readFrequency : Statement .readFrequency := commandWord_masked _ _ _ _ _ _ _
theorem readPf : Statement .readPf := commandWord_masked _ _ _ _ _ _ _
theorem readAlarms : Statement .readAlarms := commandWord_masked _ _ _ _ _ _ _
theorem getPowerAlarm : Statement .getPowerAlarm := commandWord_masked _ _ _ _ _ _ _

end Sys2Proof.Laws.OpcodeRow
end

