-- ==== Sys2Proof/Tests/Slice0.lean ====
section
/-!
SUPPORT. Tests of the model against spec/95_test_vectors.md and the examples of the rules, and for every obligation with
hypotheses a witness that meets them.
-/

set_option maxRecDepth 20000

namespace Sys2Proof.Machine.Slice0Test

/-! ## Small states -/

/-- An idle block with the factory default address and nothing scripted. -/
def idle : State := { State.reset with sessAddr := 0xF8 }

/-- An idle block in an environment with these answers. -/
def talk (clock : List Time) (tx : List TxAnswer) (rx : List RxAnswer) : State :=
  { idle with env := { Env.initial with clock := clock, tx := tx, rx := rx } }

/-- An idle block whose Transport takes a frame and delivers these bytes and then nothing, all at time 0. -/
def reply (bytes : List Byte) : State :=
  talk (List.replicate (bytes.length + 2) 0) [.ok 0] (bytes.map .byte ++ [.nothing])

/-- An idle block whose host buffer holds these bytes from index `i`. -/
def holding (i : Nat) (bytes : List Byte) : State := { idle with hbuf := Memory.writeBytes [] i bytes }

/-- A block with the snapshot `d`, stored at time `last`. -/
def stored (d : Fields) (last : Time) (s : State) : State := { s with hasSnap := true, snap := d, lastReadMs := last }

/-- A block with this input next. -/
def input (x : Input) (s : State) : State := { s with env := { s.env with inputs := [x] } }

/-- A block with this command in progress. -/
def running (w : CommandWord) (p : Phase) (s : State) : State := { s with latch := some ⟨w, p⟩ }

/-- Whether a next state has a property. -/
def after (o : Host.Outcome State Fault Refusal) (f : State → Bool) : Bool :=
  match o with
  | .next t => f t
  | .fault _ => false
  | .refused _ => false

theorem after_next {o : Host.Outcome State Fault Refusal} {f : State → Bool} (h : after o f = true) :
    ∃ t, o = .next t ∧ f t = true := by
  cases o with
  | next t => exact ⟨t, rfl, h⟩
  | fault _ => simp [after] at h
  | refused _ => simp [after] at h

/-- Samples that stay inside a deadline, by evaluation. -/
theorem within {start t : Time} {samples : List Time}
    (h : samples.all (fun x => decide (start ≤ x ∧ x - start < t)) = true) :
    ∀ x ∈ samples, start ≤ x ∧ x - start < t := fun x hx => of_decide_eq_true (List.all_eq_true.1 h x hx)

/-- Vector DEC-1. -/
def dec1 : List Byte :=
  [0xF8, 0x04, 0x14, 0x00, 0xE6, 0x03, 0xE8, 0x00, 0x00, 0x00, 0x00, 0x00, 0x00, 0x00, 0x00, 0x00, 0x00, 0x01, 0xF4,
   0x00, 0x00, 0x00, 0x00, 0x85, 0xD1]

/-- Vector DEC-2. -/
def dec2 : List Byte :=
  [0xF8, 0x04, 0x14, 0x08, 0xFD, 0x30, 0x39, 0x00, 0x00, 0x6E, 0xBE, 0x00, 0x00, 0x12, 0x06, 0x00, 0x0F, 0x01, 0xF4,
   0x00, 0x5F, 0xFF, 0xFF, 0x77, 0x10]

/-- The snapshot of vector DEC-2. -/
def snap2 : Fields := ⟨2301, 12345, 28350, 987654, 500, 95, 0xFFFF⟩

/-- Vector DEC-3. -/
def dec3 : List Byte :=
  [0xF8, 0x04, 0x14, 0x08, 0xFC, 0x00, 0x02, 0x00, 0x01, 0x56, 0x78, 0x12, 0x34, 0x00, 0x00, 0x00, 0x01, 0x02, 0x58,
   0x00, 0x64, 0x00, 0x00, 0x80, 0x80]

/-- The snapshot of vector DEC-3. -/
def snap3 : Fields := ⟨2300, 65538, 0x12345678, 65536, 600, 100, 0⟩

/-! ## Well-formedness -/

theorem test_wf_crc16_33 : (Instr.crc16 33).wellFormed = false ∧ (Instr.crc16 32).wellFormed = true := by decide
theorem test_wf_validate_33 : (Instr.validate 33).wellFormed = false ∧ (Instr.validate 32).wellFormed = true := by decide
theorem test_wf_receive_33 : (Instr.receive 33 0).wellFormed = false ∧ (Instr.receive 32 0).wellFormed = true := by decide

/-! ## Decoding: one word for each command, its fields written out at the places of R71 -/

theorem test_decode_crc16 : decode 0x0000060000000001 = .ok (.crc16 6) := by decide
theorem test_decode_validate : decode 0x0000280000000002 = .ok (.validate 40) := by decide
theorem test_decode_encode8 : decode 0x00000A000004F803 = .ok (.encode8 0xF8 0x04 0 10) := by decide
theorem test_decode_encode4 : decode 0x000000000042F804 = .ok (.encode4 0xF8 0x42) := by decide
theorem test_decode_receive : decode 0x0000210064000005 = .ok (.receive 33 100) := by decide
theorem test_decode_sendRead : decode 0x01000A0000040006 = .ok (.sendRead 0x04 0 10 true false 0) := by decide
theorem test_decode_sendRead_override : decode 0x02000A000004F706 = .ok (.sendRead 0x04 0 10 false true 0xF7) := by
  decide
theorem test_decode_writeReg : decode 0x0003E80001000007 = .ok (.writeReg 1 1000) := by decide
theorem test_decode_setAddress : decode 0x0000000000000108 = .ok (.setAddress 1) := by decide
theorem test_decode_setPowerAlarm : decode 0x0061A80000000009 = .ok (.setPowerAlarm 25000) := by decide
theorem test_decode_resetEnergy : decode 0x000000000000000A = .ok .resetEnergy := by decide
theorem test_decode_updateValues : decode 0x000000000000000B = .ok .updateValues := by decide
theorem test_decode_decode : decode 0x000000000000000C = .ok .decode := by decide
theorem test_decode_readVoltage : decode 0x0000000000000010 = .ok .readVoltage := by decide
theorem test_decode_readCurrent : decode 0x0000000000000011 = .ok .readCurrent := by decide
theorem test_decode_readPower : decode 0x0000000000000012 = .ok .readPower := by decide
theorem test_decode_readEnergy : decode 0x0000000000000013 = .ok .readEnergy := by decide
theorem test_decode_readFrequency : decode 0x0000000000000014 = .ok .readFrequency := by decide
theorem test_decode_readPf : decode 0x0000000000000015 = .ok .readPf := by decide
theorem test_decode_readAlarms : decode 0x0000000000000016 = .ok .readAlarms := by decide
theorem test_decode_getPowerAlarm : decode 0x0000000000000017 = .ok .getPowerAlarm := by decide

theorem test_decode_reserved_bit : decode 0x0400000000000001 = .error .reservedBits := by decide
theorem test_decode_illegal_op :
    decode 0x00 = .error (.illegalOp 0x00) ∧ decode 0x0D = .error (.illegalOp 0x0D) ∧
      decode 0x18 = .error (.illegalOp 0x18) := by decide

theorem test_table_word : decodeTableWord 64 0x0003E80001000007 = some (.writeReg 1 1000) := by decide
theorem test_fetch_word_runs :
    after (step (State.reset.withFetchWord 64 0x000000000042F804)) (fun t => t.hlen == 4 && t.status == .ok) = true := by
  decide

/-- R86, R89: host actions as assembler lines. -/
theorem test_host_lines :
    Assembler.hostAction "wbuf 31, 0xA5" = some (.writeBuf 31 0xA5) ∧
      Assembler.hostAction "rbuf 0" = some (.readBuf 0) ∧
      Assembler.hostAction "rreg SNAP_ALM" = some (.readReg 0x0C) ∧
      Assembler.hostAction "rstenergy" = some (.issue 0x0A) := by decide

/-! ## The CRC and frames -/

/-- CRC-1, CRC-3, CRC-9. -/
theorem test_crc_vectors :
    crc16 [] = 0xFFFF ∧ crc16 [0x31, 0x32, 0x33, 0x34, 0x35, 0x36, 0x37, 0x38, 0x39] = 0x4B37 ∧
      crc16 [0x01, 0x42] = 0x1180 := by decide

/-- CRC-2, as the example of R104. -/
theorem test_crc16 :
    after (exec (.crc16 6) (holding 0 [0x01, 0x03, 0x00, 0x00, 0x00, 0x0A]))
      (fun t => t.result == 0x0000CDC5 && t.status == .ok) = true := by decide
/-- R104: `C = 0` reads no byte. -/
theorem test_crc16_empty : after (exec (.crc16 0) idle) (fun t => t.result == 0xFFFF) = true := by decide

/-- VAL-4, VAL-5. -/
theorem test_validate :
    after (exec (.validate 3) (holding 0 [0x00, 0xBF, 0x40])) (fun t => t.result == 1) = true ∧
      after (exec (.validate 3) (holding 0 [0x00, 0x40, 0xBF])) (fun t => t.result == 0) = true := by decide
/-- VAL-3. -/
theorem test_validate_two :
    after (exec (.validate 2) (holding 0 [0xFF, 0xFF])) (fun t => t.result == 0 && t.status == .ok) = true := by decide

/-- The example of R121. -/
theorem test_encode8 :
    after (exec (.encode8 0xF8 0x04 0 10) idle)
      (fun t => t.hbuf.readBytes 0 8 == some [0xF8, 0x04, 0x00, 0x00, 0x00, 0x0A, 0x64, 0x64] && t.hlen == 8) = true := by
  decide
/-- R121: every operand value is encoded. -/
theorem test_encode8_ones : frame8 0xFF 0xFF 0xFFFF 0xFFFF = [0xFF, 0xFF, 0xFF, 0xFF, 0xFF, 0xFF, 0x01, 0x94] := by decide
/-- The example of R123. -/
theorem test_encode4 :
    after (exec (.encode4 0xF8 0x42) (holding 4 [0x77]))
      (fun t => t.hbuf.readBytes 0 5 == some [0xF8, 0x42, 0xC2, 0x41, 0x77] && t.hlen == 4) = true := by decide

/-! ## Receive -/

/-- RCV-9: ten bytes waiting, eight read. -/
theorem test_receive_echo :
    after (exec (.receive 8 100) (reply [0xF8, 0x06, 0x00, 0x02, 0x00, 0x01, 0xFD, 0xA3, 0xAA, 0xBB]))
      (fun t => t.result == 8 && t.hlen == 8 && t.status == .ok && t.env.rx == [.byte 0xAA, .byte 0xBB, .nothing] &&
        t.hbuf.readBytes 0 8 == some [0xF8, 0x06, 0x00, 0x02, 0x00, 0x01, 0xFD, 0xA3]) = true := by decide
/-- RCV-5: the deadline test exits at exactly 100 ms. -/
theorem test_receive_deadline :
    after (exec (.receive 8 100) (talk [0, 0, 100] [] [.byte 0xF8, .byte 0x06]))
      (fun t => t.result == 0 && t.status == .rxFail && t.env.rx == [.byte 0x06] &&
        t.env.history == [.now 0, .now 0, .rxRead 100 (.byte 0xF8), .now 100]) = true := by decide

/-! ## The dispatcher -/

/-- DSP-5 and DSP-6: a valid override, and one that is ignored. -/
theorem test_sendRead_override :
    after (exec (.sendRead 0x04 0 10 false true 0xF7) (reply []))
        (fun t => t.env.history == [.txWrite [0xF7, 0x04, 0x00, 0x00, 0x00, 0x0A, 0x64, 0x9B] (.ok 0)]) = true ∧
      after (exec (.sendRead 0x04 0 10 false true 0) (reply []))
        (fun t => t.env.history == [.txWrite [0xF8, 0x04, 0x00, 0x00, 0x00, 0x0A, 0x64, 0x64] (.ok 0)]) = true := by decide
/-- DSP-3: a reply that validates and differs. -/
theorem test_sendRead_verify :
    after (exec (.sendRead 0x04 0 10 true false 0) (reply [0xF8, 0x04, 0x00, 0x00, 0x00, 0x0B, 0xA5, 0xA4]))
      (fun t => t.status == .verifyError) = true := by decide

/-- DSP-10. -/
theorem test_writeReg :
    after (exec (.writeReg 1 0) (reply [0xF8, 0x06, 0x00, 0x01, 0x00, 0x00, 0xCC, 0x63])) (fun t => t.status == .ok) = true := by
  decide
/-- DSP-11: five bytes that validate are no echo. -/
theorem test_writeReg_short :
    after (exec (.writeReg 1 1000) (reply [0xF8, 0x86, 0x02, 0x13, 0x90])) (fun t => t.status == .rxFail) = true := by decide

/-- R164: the addresses at both ends of the range, before any I/O. -/
theorem test_setAddress_range :
    after (exec (.setAddress 0) idle) (fun t => t.status == .rangeError && t.env.history == []) = true ∧
      after (exec (.setAddress 0xF8) idle) (fun t => t.status == .rangeError && t.env.history == []) = true := by decide

/-- DSP-16, DSP-17: the value of the frame's bytes 4 and 5. -/
theorem test_setPowerAlarm_clamp :
    ((setPowerAlarmFrame 25001 idle).drop 4).take 2 = [0x61, 0xA8] ∧ clampAlarm 0xFFFF = 0x61A8 ∧
      clampAlarm 1000 = 1000 := by decide

/-- DSP-9d. -/
theorem test_resetEnergy_rejected :
    after (exec .resetEnergy (reply [0xF8, 0xC2, 0x02, 0x20, 0x90])) (fun t => t.status == .replyRejected) = true := by decide
/-- DSP-9c. -/
theorem test_resetEnergy_ok :
    after (exec .resetEnergy (reply [0xF8, 0x42, 0xC2, 0x41]))
      (fun t => t.status == .ok && t.env.history.head? == some (.txWrite [0xF8, 0x42, 0xC2, 0x41] (.ok 0))) = true := by decide

/-! ## The decoder and the cache -/

/-- DEC-3, with bytes 0 to 2 and 23 on unwritten (DEC-6). -/
theorem test_decode_registers :
    after (exec .decode (holding 3 ((dec3.drop 3).take 20))) (fun t => t.dec == snap3 && t.decWritten) = true := by decide

/-- CCH-2 and CCH-3: 199 ms is fresh; at 200 ms the response is stored with the later sample. -/
theorem test_updateValues_fresh :
    after (exec .updateValues (stored snap3 1040 (talk [1239] [] [])))
      (fun t => t.status == .ok && t.snap == snap3 && t.env.history == [.now 1239]) = true := by decide
theorem test_updateValues_stale :
    after (exec .updateValues
        (stored snap3 1040 (talk (List.replicate 27 1240 ++ [1250]) [.ok 8] (dec2.map .byte))))
      (fun t => t.status == .ok && t.snap == snap2 && t.lastReadMs == 1250 &&
        t.env.history.getLast? == some (.now 1250)) = true := by decide

/-- CCH-5: the age is taken modulo 2^64. -/
theorem test_fresh_wraps : (stored snap2 0xFFFFFFFFFFFFFF9C idle).fresh 50 = true := by decide

/-- ACC-1 to ACC-8. -/
theorem test_readVoltage :
    after (exec .readVoltage (stored snap2 0 (talk [5] [] []))) (fun t => t.result == 0x08FD && t.resultValid) = true := by
  decide
theorem test_readCurrent :
    after (exec .readCurrent (stored snap2 0 (talk [5] [] []))) (fun t => t.result == 0x3039 && t.resultValid) = true := by
  decide
theorem test_readPower :
    after (exec .readPower (stored snap2 0 (talk [5] [] []))) (fun t => t.result == 0x6EBE && t.resultValid) = true := by
  decide
theorem test_readEnergy :
    after (exec .readEnergy (stored snap2 0 (talk [5] [] []))) (fun t => t.result == 0xF1206 && t.resultValid) = true := by
  decide
theorem test_readFrequency :
    after (exec .readFrequency (stored snap2 0 (talk [5] [] []))) (fun t => t.result == 0x1F4 && t.resultValid) = true := by
  decide
theorem test_readPf :
    after (exec .readPf (stored snap2 0 (talk [5] [] []))) (fun t => t.result == 0x5F && t.resultValid) = true := by decide
theorem test_readAlarms :
    after (exec .readAlarms (stored snap2 0 (talk [5] [] []))) (fun t => t.result == 0xFFFF && t.resultValid) = true := by
  decide
/-- ACC-8, ACC-11. -/
theorem test_getPowerAlarm :
    after (exec .getPowerAlarm (stored snap2 0 (talk [5] [] []))) (fun t => t.result == 1 && t.resultValid) = true ∧
      after (exec .getPowerAlarm (stored snap3 0 (talk [5] [] []))) (fun t => t.result == 0 && t.resultValid) = true := by
  decide
/-- ACC-9: no data is not a zero reading. -/
theorem test_readVoltage_no_data :
    after (exec .readVoltage (talk [0, 0, 0] [.ok 8] [.nothing]))
      (fun t => t.status == .rxFail && !t.resultValid && t.result == 0) = true := by decide
/-- ACC-10. -/
theorem test_getPowerAlarm_no_data :
    after (exec .getPowerAlarm (talk [0] [.err] []))
      (fun t => t.status == .transportError && !t.resultValid && t.result == 0) = true := by decide

/-- R265: a command still to be issued, and one in progress, keep a run from its end; a host action and a RESET after the
last finish do not. -/
theorem test_ended :
    (input (.host (.issue 0x0A)) idle).ended = false ∧ (running 0x0A (.next .clearCount) idle).ended = false ∧
      (input (.host (.writeBuf 0 1)) idle).ended = true ∧ (input .reset idle).ended = true := by decide

/-! ## Witnesses: for each obligation with hypotheses, inputs that meet them -/

theorem test_witness_CommandWordIsItsFields :
    fieldReserved 0x0000000000000000 = 0#6 ∧ fieldReserved 0x03FFFFFFFFFFFFFF = 0#6 := by decide

/-- The words at the ends of the illegal ranges, and one reserved bit. -/
theorem test_witness_IllegalWordsCompleteAtOnce :
    ([0x0400000000000001, 0x8000000000000001, 0x00, 0x0D, 0x0F, 0x18, 0xFF] : List CommandWord).all (fun w => decide
      ((running w .start idle).latch = some ⟨w, .start⟩ ∧
        (fieldReserved w ≠ 0#6 ∨ (fieldOp w).toNat = 0x00 ∨
          (0x0D ≤ (fieldOp w).toNat ∧ (fieldOp w).toNat ≤ 0x0F) ∨ 0x18 ≤ (fieldOp w).toNat))) = true := by decide

theorem test_witness_OnlyLengthsOverTheBoundAreIllegal :
    32 < (33 : Half).toNat ∧ 32 < (0xFFFF : Half).toNat ∧ (Instr.crc16 0).wellFormed = true ∧
      ∃ t, exec (.crc16 0) idle = .next t := by
  refine ⟨by decide, by decide, by decide, _, rfl⟩

theorem test_witness_BytesWithTheirCrcValidate : ([0x00] : List Byte) ≠ [] := by decide

theorem test_witness_Crc16ReportsTheCrcOfHbuf :
    (idle.hbuf.holds 0 []) ∧
      ((holding 0 (List.replicate 32 0xA5)).hbuf.holds 0 (List.replicate 32 0xA5)) ∧
      (∃ k, k < (32 : Half).toNat ∧ (holding 0 (List.replicate 31 0xA5)).hbuf.read k = none) ∧
      32 < (33 : Half).toNat :=
  ⟨Memory.holds_nil _ _, Memory.writeBytes_holds _ _ _, ⟨31, by decide, by decide⟩, by decide⟩

theorem test_witness_ValidateReportsTheVerdictOnHbuf :
    (2 : Half).toNat ≤ 2 ∧ ((holding 0 [0x00, 0xBF, 0x40]).hbuf.holds 0 [0x00, 0xBF, 0x40]) ∧
      ((holding 0 (List.replicate 32 0xA5)).hbuf.holds 0 (List.replicate 32 0xA5)) ∧
      (∃ k, k < (3 : Half).toNat ∧ (holding 0 [0x00, 0xBF]).hbuf.read k = none) ∧ 32 < (33 : Half).toNat :=
  ⟨by decide, Memory.writeBytes_holds _ _ _, Memory.writeBytes_holds _ _ _, ⟨2, by decide, by decide⟩, by decide⟩

/-- Each end of a receive, at both ends of the range of lengths. -/
theorem test_witness_ReceiveReturnsTheAcceptedBytes :
    (talk [0] [] []).env.delivers 0 100 [] .full [] [] ∧
      (talk (List.replicate 33 0) [] ((List.replicate 32 0xA5).map .byte)).env.delivers 32 100
        (List.replicate 32 0xA5) .full [] [] ∧
      (talk [7, 8, 106] [] [.byte 0x00, .nothing]).env.delivers 2 100 [0x00] .nothing [] [] ∧
      (talk [7, 106, 107] [] [.byte 0x00, .byte 0x01]).env.delivers 2 100 [0x00] .deadline [] [.byte 0x01] ∧
      (talk [7, 8, 9] [] [.byte 0x00, .err]).env.delivers 2 100 [0x00] .error [] [] ∧
      32 < (33 : Half).toNat :=
  ⟨⟨0, [], by decide, within (by decide), by decide, by decide, rfl, rfl⟩,
    ⟨0, List.replicate 32 0, by decide, within (by decide), by decide, by decide, rfl, rfl⟩,
    ⟨7, [8, 106], by decide, within (by decide), by decide, by decide, rfl, rfl⟩,
    ⟨7, [106], by decide, within (by decide), by decide, by decide, rfl, 107, by decide, by decide, rfl⟩,
    ⟨7, [8, 9], by decide, within (by decide), by decide, by decide, rfl, rfl⟩, by decide⟩

theorem test_witness_ReceiveReportsWhatItAccepted : (0 : Half).toNat ≤ 32 ∧ (32 : Half).toNat ≤ 32 := by decide

/-- R152: three bytes that validate (RCV-4), then `RxErr`: they are discarded. -/
theorem test_receive_error :
    after (exec (.receive 8 100) (talk [0, 0, 0, 0, 0] [] [.byte 0x00, .byte 0xBF, .byte 0x40, .err]))
      (fun t => t.status == .transportError && t.result == 0 && t.hlen == 0 && t.hbuf == [] &&
        validate t.rxbuf && t.env.history.getLast? == some (.rxRead 100 .err)) = true := by decide

/-- A second read, at 30 of 100 ms. -/
theorem test_witness_ReceiveAsksForTheRemainingTime :
    ∃ events before after a,
      (receive 2 100 (talk [7, 17, 37] [] [.byte 0x00, .err])).1.env.history = [] ++ .now 7 :: events ∧
        events = before ++ .rxRead 70 a :: after :=
  ⟨_, [.now 17, .rxRead 90 (.byte 0x00), .now 37], [], .err, by decide, rfl⟩

theorem test_witness_ReceiveCornerCases : ((1 : Nat) = 1 ∨ (1 : Nat) = 2) ∧ ((2 : Nat) = 1 ∨ (2 : Nat) = 2) := by decide

theorem test_witness_VerifiedCommandsJudgeTheEcho :
    (talk (List.replicate 9 0) [.ok 0] ((List.replicate 8 0xA5).map .byte)).env.takesFrame ∧
      (talk (List.replicate 9 0) [.ok 0] ((List.replicate 8 0xA5).map .byte)).env.delivers 8 100
        (List.replicate 8 0xA5) .full [] [] ∧
      (talk [0, 0] [.ok 8] [.nothing]).env.delivers 8 100 [] .nothing [] [] ∧
      (talk [0, 100] [.ok 8] []).env.delivers 8 100 [] .deadline [] [] ∧
      (talk [0, 0] [.ok 8] [.err]).env.delivers 8 100 [] .error [] [] ∧
      (0x01 ≤ (0x01 : Byte).toNat ∧ (0x01 : Byte).toNat ≤ 0xF7) ∧
      (0x01 ≤ (0xF7 : Byte).toNat ∧ (0xF7 : Byte).toNat ≤ 0xF7) ∧
      ((0x00 : Byte).toNat < 0x01 ∧ 0xF7 < (0xF8 : Byte).toNat) :=
  ⟨⟨0, [], rfl⟩, ⟨0, List.replicate 8 0, by decide, within (by decide), by decide, by decide, rfl, rfl⟩,
    ⟨0, [0], by decide, within (by decide), by decide, by decide, rfl, rfl⟩,
    ⟨0, [], by decide, within (by decide), by decide, by decide, rfl, 100, by decide, by decide, rfl⟩,
    ⟨0, [0], by decide, within (by decide), by decide, by decide, rfl, rfl⟩, by decide, by decide, by decide⟩

/-- Both ends of the addresses, a cache that is stale at exactly 200 ms, and a block without a snapshot. -/
theorem test_witness_FailedWriteEndsTheCommand :
    (talk [0] [.err] []).env.failsFrame ∧ (0x01 ≤ (0x01 : Byte).toNat ∧ (0xF7 : Byte).toNat ≤ 0xF7) ∧
      (talk [0] [.err] []).hasSnap = false ∧
      (stored snap2 1040 (talk [1240] [.err] [])).env.failsFrame ∧
      200 ≤ (stored snap2 1040 (talk [1240] [.err] [])).env.now -
        (stored snap2 1040 (talk [1240] [.err] [])).lastReadMs :=
  ⟨⟨[], rfl⟩, by decide, by decide, ⟨[], rfl⟩, by decide⟩

theorem test_witness_UnverifiedRequestOnlyWrites : (talk [] [.ok 3] []).env.takesFrame := ⟨3, [], rfl⟩

theorem test_witness_ResetEnergyJudgesTheReplyLength :
    (talk (List.replicate 6 0) [.ok 4] ((List.replicate 5 0xA5).map .byte)).env.takesFrame ∧
      (talk (List.replicate 6 0) [.ok 4] ((List.replicate 5 0xA5).map .byte)).env.delivers 5 100
        (List.replicate 5 0xA5) .full [] [] ∧
      (talk [0, 0] [.ok 4] [.nothing]).env.delivers 5 100 [] .nothing [] [] ∧ (talk [] [.err] []).env.failsFrame :=
  ⟨⟨4, [], rfl⟩, ⟨0, List.replicate 5 0, by decide, within (by decide), by decide, by decide, rfl, rfl⟩,
    ⟨0, [0], by decide, within (by decide), by decide, by decide, rfl, rfl⟩, ⟨[], rfl⟩⟩

/-- Every instruction but SET_ADDRESS on its `OK` path completes in a state written out; this one serves the statements
about every command. -/
theorem test_witness_EveryCommandWritesAtMostOneFrame :
    ∃ t, exec .resetEnergy (reply [0xF8, 0x42, 0xC2, 0x41]) = .next t ∧ (t.status == .ok) = true :=
  after_next (by decide)

theorem test_witness_OnlyHbufReadersCanStop :
    (∀ len, Instr.resetEnergy ≠ .crc16 len) ∧ (∀ len, Instr.resetEnergy ≠ .validate len) ∧
      Instr.resetEnergy ≠ .decode := ⟨by simp, by simp, by decide⟩

theorem test_witness_CommandsEndWithTheirStatuses :
    (∃ t, exec (.setAddress 0) idle = .next t ∧ (t.status == .rangeError) = true) ∧
      (running 0x0D .start idle).latch = some ⟨0x0D, .start⟩ ∧ decode 0x0D = .error (.illegalOp 0x0D) :=
  ⟨after_next (by decide), rfl, by decide⟩

/-- A SET_ADDRESS that ends `OK` (DSP-13, for any device register): the Transport echoes the frame. -/
theorem test_witness_OnlySetAddressMovesTheSession :
    ∃ s t, exec (.setAddress 1) s = .next t ∧ t.status = .ok ∧ t.sessAddr = 1 := by
  let frame := frame8 0xF8 0x06 Config.addrReg 1
  let s := talk (List.replicate 9 0) [.ok 8] (frame.map .byte)
  have hv : validate frame = true := by simp [frame, validate, frame8, crcBytes]
  obtain ⟨k, events, -, h, -⟩ := verifiedExchange_delivers (s := s) (frame := frame) (bytes := frame) (ending := .full)
    (later := []) (more := []) rfl ⟨8, [], rfl⟩
    ⟨0, List.replicate 8 0, by decide, within (by decide), rfl, by decide, rfl, (List.append_nil _).symm⟩
  have hok : (verifiedExchange (setAddressFrame 1 s) s).2 = .ok := by
    refine h.trans ?_
    simp [echoOutcome, hv]
    rfl
  refine ⟨s, _, rfl, ?_, ?_⟩
  · simpa [setAddressCommit_eq] using hok
  · show (setAddressCommit 1 _).sessAddr.getD _ = 1
    rw [setAddressCommit_eq, hok]
    rfl

theorem test_witness_DecodeReadsTheTwentyDataBytes :
    (holding 3 ((dec3.drop 3).take 20)).hbuf.holds 3
        [0x08, 0xFC, 0x00, 0x02, 0x00, 0x01, 0x56, 0x78, 0x12, 0x34, 0x00, 0x00, 0x00, 0x01, 0x02, 0x58, 0x00, 0x64,
          0x00, 0x00] ∧
      (∃ k, 3 ≤ k ∧ k < 23 ∧ (holding 4 (List.replicate 28 0)).hbuf.read k = none) ∧
      (∃ k, 3 ≤ k ∧ k < 23 ∧ (holding 0 (List.replicate 22 0)).hbuf.read k = none) :=
  ⟨Memory.writeBytes_holds _ _ _, ⟨3, by decide⟩, ⟨22, by decide⟩⟩

theorem test_witness_FreshUpdateDoesNoInput :
    (stored snap2 1040 (talk [1239] [] [])).hasSnap = true ∧
      (stored snap2 1040 (talk [1239] [] [])).env.now - (stored snap2 1040 (talk [1239] [] [])).lastReadMs < 200 := by
  decide

/-- A stale cache at exactly 200 ms, and a block without a snapshot. -/
theorem test_witness_StaleUpdateStoresOnlyTheWholeResponse :
    200 ≤ (stored snap2 1040 (talk [1240] [] [])).env.now - (stored snap2 1040 (talk [1240] [] [])).lastReadMs ∧
      idle.hasSnap = false ∧
      (talk (List.replicate 27 0) [.ok 8] (dec2.map .byte)).env.takesFrame ∧
      (talk (List.replicate 27 0) [.ok 8] (dec2.map .byte)).env.afterNow.delivers 25 100 dec2 .full [] [] ∧
      (talk [0, 0, 0] [.ok 8] [.nothing]).env.afterNow.delivers 25 100 [] .nothing [] [] ∧
      (talk [0] [.err] []).env.failsFrame :=
  ⟨by decide, by decide, ⟨8, [], rfl⟩,
    ⟨0, List.replicate 25 0, by decide, within (by decide), by decide, by decide, rfl, rfl⟩,
    ⟨0, [0], by decide, within (by decide), by decide, by decide, rfl, rfl⟩, ⟨[], rfl⟩⟩

theorem test_witness_FailedUpdateKeepsTheCache :
    ∃ t, exec .updateValues (stored snap2 1040 (talk [1500] [.err] [])) = .next t ∧ (t.status != .ok) = true :=
  after_next (by decide)

theorem test_witness_SecondUpdateInTheWindowIsServedFromTheCache :
    ∃ t, exec .updateValues (stored snap2 1040 (talk [1100, 1239] [] [])) = .next t ∧
      (t.status == .ok && decide (t.env.now - t.lastReadMs < 200)) = true := after_next (by decide)

theorem test_witness_NoDataBeforeTheFirstSnapshot :
    (talk [0] [.err] []).hasSnap = false ∧
      ∃ t, exec .getPowerAlarm (talk [0] [.err] []) = .next t ∧ (!t.hasSnap) = true :=
  ⟨by decide, after_next (by decide)⟩

theorem test_witness_OnlyUpdatesReplaceTheSnapshot :
    (stored snap2 0 idle).hasSnap = true ∧
      ∃ t, exec (.crc16 0) (stored snap2 0 idle) = .next t ∧ (t.snap == snap2) = true :=
  ⟨by decide, after_next (by decide)⟩

theorem test_witness_HbufReadersWriteResultOnly :
    ∃ t, exec (.validate 3) (holding 0 [0x00, 0xBF, 0x40]) = .next t ∧ (t.result == 1) = true := after_next (by decide)

/-- RCV-4: three bytes stored, and a longer buffer kept behind them. -/
theorem test_witness_ReceiveStoresOnlyTheAcceptedBytes :
    ∃ t, exec (.receive 8 100) (reply [0x00, 0xBF, 0x40]) = .next t ∧ (t.status == .ok && t.result == 3) = true :=
  after_next (by decide)

theorem test_witness_DispatcherCommandsWriteStatusOnly :
    ∃ t, exec (.writeReg 1 0) (reply [0xF8, 0x06, 0x00, 0x01, 0x00, 0x00, 0xCC, 0x63]) = .next t ∧
      (t.status == .ok) = true := after_next (by decide)

theorem test_witness_CacheCommandsKeepTheRest :
    ∃ t, exec .readPower (stored snap2 0 (talk [5] [] [])) = .next t ∧ (t.result == 28350) = true :=
  after_next (by decide)

theorem test_witness_CommandsLeaveTheHostAlone :
    ∃ t, exec (.encode4 0xF8 0x42) idle = .next t ∧ (t.hlen == 4) = true := after_next (by decide)

theorem test_witness_ResetInputKeepsTheEnvironment :
    (input .reset (running 0x0A (.next (.rxRead 100)) idle)).env.inputs = .reset :: [] := rfl

theorem test_witness_IssuedWordRunsItsCommand :
    (running 0x0A .start idle).latch = some ⟨0x0A, .start⟩ ∧ decode 0x0A = .ok .resetEnergy ∧
      (running 0x0A .start idle).env.inputs = [] ∧
      (input .wait (running 0x0A .start idle)).env.inputs = .wait :: [] ∧
      (running 0x0A (.next .clearCount) idle).latch = some ⟨0x0A, .next .clearCount⟩ ∧
      Phase.next .clearCount ≠ .start ∧
      (input .wait (running 0x0A (.next .clearCount) idle)).env.inputs = .wait :: [] := by decide

/-- The input `tick`: a micro-step that leaves the command in progress, one that finishes it, one that faults, a word
that selects no command, and an idle block. -/
theorem test_witness_IssuedWordRunsItsCommand_tick :
    (input .tick (running 0x0A (.next .clearCount) idle)).env.inputs = .tick :: [] ∧
      (∃ t, advance .resetEnergy (.next .clearCount) (running 0x0A (.next .clearCount) idle) =
        .ok (t, some (.next .sampleStart))) ∧
      (∃ t, advance .resetEnergy (.next (.ending [] illegal)) (running 0x0A (.next (.ending [] illegal)) idle) =
        .ok (t, none)) ∧
      decode 0x0000010000000001 = .ok (.crc16 1) ∧
      advance (.crc16 1) .start (running 0x0000010000000001 .start idle) = .error .unwrittenRead ∧
      decode 0x0D = .error (.illegalOp 0x0D) ∧ (input .tick idle).latch = none :=
  ⟨rfl, ⟨_, rfl⟩, ⟨_, rfl⟩, by decide, rfl, by decide, rfl⟩

/-- R11, R37, R89: a `tick` makes one micro-step of the command in the latch, here `encode4`, and keeps its new phase
there. -/
theorem test_tick :
    after (step (input .tick (running 0x0A .start idle)))
      (fun t => t.latch == some ⟨0x0A, .next (.txWrite [0xF8, 0x42, 0xC2, 0x41])⟩ && t.env.history == []) = true := by
  decide

/-- The phase of the command in progress after `k` micro-steps from its start. -/
def phaseAfter (k : Nat) (i : Instr) (s : State) : Option Phase :=
  match advanceFor k i .start s with
  | .ok (_, p) => p
  | .error _ => none

/-- R11, R104: `MemRead`, `crc16`, `RESULT <- v` and `finish` of CRC16 are four micro-steps. -/
theorem test_crc16_micro_steps :
    phaseAfter 1 (.crc16 1) (holding 0 [0x00]) = some (.next (.compute [0x00])) ∧
      phaseAfter 2 (.crc16 1) (holding 0 [0x00]) = some (.next (.ending [.result 0x40BF] { status := .ok })) ∧
      phaseAfter 3 (.crc16 1) (holding 0 [0x00]) =
        some (.next (.ending [] { status := .ok, result := some 0x40BF })) ∧
      after (resumeCommand (.crc16 1) .start (holding 0 [0x00])) (fun t => t.result == 0x40BF && t.latch == none) = true := by
  decide

/-- R11, R145: `RXCNT <- 0`, `Now()`, `RX_START <- t`, `Now()`, `RxRead`, `RXBUF[RXCNT] <- b`, `RXCNT <- RXCNT + 1`. -/
theorem test_receive_micro_steps :
    (List.range 8).map (fun k => phaseAfter k (.receive 2 100) (talk [7, 17] [] [.byte 0x5A])) =
      [.start, .next .sampleStart, .next (.setStart 7), .next .sampleLoop, .next (.rxRead 90), .next (.rxStore 0x5A),
        .next (.rxCount 0x5A), .next .sampleLoop].map some := by decide

/-- Idle and busy blocks, a byte that is held and one that is not, and both sides of the bound of the host buffer. -/
theorem test_witness_HostPortActions :
    (input (.host (.issue 0x0A)) idle).env.inputs = .host (.issue 0x0A) :: [] ∧
      (input (.host (.writeBuf 31 7)) idle).env.inputs = .host (.writeBuf 31 7) :: [] ∧
      (input (.host (.readBuf 31)) idle).env.inputs = .host (.readBuf 31) :: [] ∧ idle.latch = none ∧
      (running 0x0A .start idle).latch ≠ none ∧ (holding 31 [7]).hbuf.read 31 = some 7 ∧ idle.hbuf.read 31 = none ∧
      31 < 32 ∧ 32 ≤ 32 := by decide

theorem test_witness_HostRegisterReads :
    (input (.host (.readReg 0x0C)) (stored snap2 0 idle)).env.inputs = .host (.readReg 0x0C) :: [] ∧
      (stored snap2 0 idle).hasSnap = true ∧ (0x0C : Byte) = 0x0C ∧
      idle.hasSnap = false ∧ idle.decWritten = false ∧ (0x06 ≤ (0x06 : Byte).toNat ∧ (0x06 : Byte).toNat ≤ 0x0C) ∧
      (0x10 ≤ (0x16 : Byte).toNat ∧ (0x16 : Byte).toNat ≤ 0x16) ∧ 0x0D ≤ (0x0D : Byte).toNat ∧
      0x17 ≤ (0x17 : Byte).toNat := by decide

theorem test_witness_IdleBlockKeepsItsState : idle.env.inputs = [] ∧ idle.latch = none := by decide

/-- A command in the middle of its receive, at its bounds: the invariant holds and the step answers a next state. -/
theorem test_witness_EveryStepKeepsTheInvariant :
    ∃ s : State, s.Inv ∧ s.env.clockOk ∧ s.rxbuf.length = 4 ∧ ∃ t, step s = .next t ∧ (t.status == .ok) = true := by
  let s : State :=
    { running 0x0A (.next (.rxRead 100)) (talk [0] [] [.nothing]) with
      rxbuf := [0xF8, 0x42, 0xC2, 0x41], hlen := 32, hbuf := [(0, 1), (31, 2)] }
  refine ⟨s, ⟨by decide, by decide, by decide, by decide, by decide, .inl rfl, by decide, by decide, ?_⟩,
    ⟨by decide, by simp [clockSamples, s, running, talk, Env.initial]⟩, rfl, after_next (by decide)⟩
  intro c hc
  obtain rfl : c = ⟨0x0A, .next (.rxRead 100)⟩ := by simpa [s, running] using hc.symm
  intro i hi
  obtain rfl : i = .resetEnergy := by
    have : decode 0x0A = .ok .resetEnergy := by decide
    rw [this] at hi
    simpa using hi.symm
  exact ⟨rfl, by decide⟩

theorem test_witness_EveryStepKeepsTheClockOrdered :
    ∃ s : State, s.env.clockOk ∧ ∃ t, step s = .next t ∧ (t.env.history == [.now 5]) = true :=
  ⟨running 0x0B .start (stored snap2 0 (talk [5] [] [])), ⟨by decide, by simp [clockSamples, running, stored, talk, Env.initial]⟩,
    after_next (by decide)⟩

theorem test_witness_EveryStepOnlyAddsEvents :
    ∃ t, step (running 0x10 .start (talk [5] [.err] [])) = .next t ∧ (t.env.history.length == 2) = true :=
  after_next (by decide)

/-- RESET_ENERGY stopped after its write, before the receive starts. -/
theorem test_witness_StoppedCommandsEndTheSame :
    ∃ s' p, advanceFor 2 .resetEnergy .start (reply [0xF8, 0x42, 0xC2, 0x41]) = .ok (s', some p) ∧
      p = .next .clearCount := ⟨_, _, rfl, rfl⟩

/-- ENCODE4 stopped with its first write staged. -/
theorem test_witness_NothingShowsBeforeTheFinish :
    ∃ s' p, advanceFor 2 (.encode4 0xF8 0x42) .start idle = .ok (s', some p) ∧
      p = .next (.ending [.hlen 4] { status := .ok, hbuf := frame4 0xF8 0x42 }) := ⟨_, _, rfl, rfl⟩

end Sys2Proof.Machine.Slice0Test
end

/-!
PROOFS of the statements of spec/00_scope.md. A command taken micro-step by micro-step is followed through the pseudocode of
its rule: where it begins, what its exchange comes to, which writes it stages. Each path leads to an `ending`, from which the
command finishes within the bound on micro-steps.
-/

namespace Sys2Proof.Machine

/-! ## Commands that end within the bound -/

/-- The micro-steps of a command from a phase are all made within the bound, and come to the outcome `o`. -/
structure EndsAs (i : Instr) (p : Phase) (s : State) (o : Host.Outcome State Fault Refusal) : Prop where
  outcome : resumeCommand i p s = o
  ended : ∀ s' p', advanceFor microSteps i p s ≠ .ok (s', some p')

/-- A command at its start ends as it does at its first primitive. -/
theorem EndsAs.of_entry {i : Instr} {s : State} {o : Host.Outcome State Fault Refusal}
    (h : EndsAs i (.next (entry i)) s o) : EndsAs i .start s o := ⟨h.outcome, h.ended⟩

/-- A command that reaches its `ending` soon enough ends with the finish of the writes it stages. -/
theorem EndsAs.of_ending {k : Nat} {i : Instr} {p : Phase} {s s' : State} {todo : List Write} {code : Status}
    (h : Reaches k i p s (.next (.ending todo { status := code })) s') (hk : k + todo.length < microSteps) :
    EndsAs i p s (.next (s'.finish (.of code todo))) := by
  have e := advanceFor_ending h hk
  exact ⟨by rw [resumeCommand, e]; rfl, by simp [e]⟩

/-- A command whose first test fails finishes with a code and nothing staged. -/
theorem EndsAs.raise (i : Instr) (code : Status) (s : State) :
    EndsAs i (.next (.raise code)) s (.next (s.finish { status := code })) :=
  .of_ending (k := 0) (todo := []) ⟨0, le_refl _, rfl⟩ (by decide)

/-- A command that ends within the bound ends the same from wherever its micro-steps have brought it. -/
theorem EndsAs.of_stopped {k : Nat} {i : Instr} {p p' : Phase} {s s' : State} {o : Host.Outcome State Fault Refusal}
    (h : EndsAs i p s o) (hk : advanceFor k i p s = .ok (s', some p')) : EndsAs i p' s' o := by
  have hstop : advanceFor (k + microSteps) i p s = advanceFor microSteps i p' s' := by rw [advanceFor_add, hk]
  have hend : advanceFor (microSteps + k) i p s = advanceFor microSteps i p s := by
    rw [advanceFor_add]
    rcases hr : advanceFor microSteps i p s with f | ⟨s₁, _ | p₁⟩
    · rfl
    · rfl
    · exact absurd hr (h.ended s₁ p₁)
  have e : advanceFor microSteps i p' s' = advanceFor microSteps i p s := by rw [← hstop, ← hend, Nat.add_comm]
  exact ⟨by rw [resumeCommand, e]; exact h.outcome, by rw [e]; exact h.ended⟩

/-! ## Commands on the host buffer -/

/-- No command computes more writes from the bytes it has read than the seven of DECODE. -/
theorem computedWrites_length_le (i : Instr) (bytes : List Byte) : (computedWrites i bytes).length ≤ 7 := by
  cases i <;> simp [computedWrites, crc16Writes, validateWrites, decodeWrites, Fields.writes]

/-- A command whose `MemRead` finds its bytes stages what it computes from them. -/
theorem EndsAs.memRead_written {i : Instr} {s : State} {bytes : List Byte}
    (h : s.hbuf.readBytes (memReadRange i).1 (memReadRange i).2 = some bytes) :
    EndsAs i (.next .memRead) s (.next (s.finish (.of .ok (computedWrites i bytes)))) := by
  have h₁ : Reaches 1 i (.next .memRead) s (.next (.compute bytes)) s := .one (by simp only [perform, h])
  have := computedWrites_length_le i bytes
  exact .of_ending (h₁.trans (.one rfl)) (by unfold microSteps; omega)

/-- A command whose `MemRead` meets an unwritten byte stops with the fault. -/
theorem EndsAs.memRead_unwritten {i : Instr} {s : State}
    (h : s.hbuf.readBytes (memReadRange i).1 (memReadRange i).2 = none) :
    EndsAs i (.next .memRead) s (.fault .unwrittenRead) := by
  have e : advanceFor microSteps i (.next .memRead) s = .error .unwrittenRead := by
    simp [microSteps, advanceFor, advance, Phase.primitive, perform, h, Except.map]
  exact ⟨by rw [resumeCommand, e]; rfl, by simp [e]⟩

/-! ## Exchanges -/

/-- A write the Transport fails ends the exchange. -/
theorem reaches_sendFailed {i : Instr} {s : State} {frame : List Byte} (h : s.txAnswer frame = .err) :
    Reaches 1 i (.next (.txWrite frame)) s (.next (conclude i s ⟨.transportError, none⟩)) (s.afterTx frame) :=
  .one (by simp only [perform, h, afterSend])

/-- A write the Transport takes is followed by the receive. -/
theorem reaches_reply {i : Instr} {s : State} {frame : List Byte} {len n : Nat} {t : Half}
    (h : s.txAnswer frame = .ok len) (hc : collectsReply i = true) (he : expectedReply i = (n, t)) :
    Reaches (4 * n + 5) i (.next (.txWrite frame)) s
      (.next (afterReceive i (receive n t (s.afterTx frame)).2 (receive n t (s.afterTx frame)).1))
      (receive n t (s.afterTx frame)).1 := by
  have h₁ : Reaches 1 i (.next (.txWrite frame)) s (.next .clearCount) (s.afterTx frame) :=
    .one (by simp only [perform, h, afterSend, hc, if_true])
  exact (h₁.trans (reaches_receive he _)).mono (by omega)

/-- What makes `i` a command on the verified exchange: it expects the echo of its frame, and stages `writes` of the code the
exchange ends with (spec/43_dispatcher.md R162). -/
structure VerifiesEcho (i : Instr) (writes : Status → List Write) : Prop where
  collects : collectsReply i = true
  expects : expectedReply i = (Config.frame8Len, Config.rxTimeoutMs)
  sendFailed : ∀ s, conclude i s ⟨.transportError, none⟩ =
    .ending (writes .transportError) { status := .transportError }
  received : ∀ r s, afterReceive i r s = .ending (writes (echoStatus s r)) { status := echoStatus s r }

/-- The verified exchange, micro-step by micro-step. -/
theorem reaches_verifiedExchange {i : Instr} {writes : Status → List Write} (hi : VerifiesEcho i writes)
    (frame : List Byte) (s : State) :
    Reaches 38 i (.next (.loadTx frame)) s
      (.next (.ending (writes (verifiedExchange frame s).2) { status := (verifiedExchange frame s).2 }))
      (verifiedExchange frame s).1 := by
  have h₁ : Reaches 1 i (.next (.loadTx frame)) s (.next (.txWrite frame)) (s.loadTx frame) := .one rfl
  unfold verifiedExchange
  dsimp only
  cases ha : (s.loadTx frame).txAnswer frame with
  | err =>
    have h₂ := h₁.trans (reaches_sendFailed ha)
    rw [hi.sendFailed] at h₂
    exact h₂.mono (by decide)
  | ok len =>
    have h₂ := h₁.trans (reaches_reply ha hi.collects hi.expects)
    rw [hi.received] at h₂
    exact h₂.mono (by decide)

/-- A command on the verified exchange ends with the writes for the code of its exchange. -/
theorem EndsAs.verified {i : Instr} {writes : Status → List Write} {frame : List Byte} {s : State}
    (hi : VerifiesEcho i writes) (hf : afterEncode i s = .loadTx frame) (hw : ∀ code, (writes code).length ≤ 1) :
    EndsAs i (.next .encode) s
      (.next ((verifiedExchange frame s).1.finish
        (.of (verifiedExchange frame s).2 (writes (verifiedExchange frame s).2)))) := by
  have h₁ : Reaches 1 i (.next .encode) s (.next (.loadTx frame)) s := .one (by simp only [perform, hf])
  have := hw (verifiedExchange frame s).2
  exact .of_ending (h₁.trans (reaches_verifiedExchange hi frame s)) (by unfold microSteps; omega)

/-- A request that is not verified ends at the answer to its write (spec/43_dispatcher.md R160). -/
theorem afterSend_unverified (fc : Byte) (reg count : Half) (override : Bool) (addr : Byte) (a : TxAnswer) (s : State) :
    afterSend (.sendRead fc reg count false override addr) a s = .ending [] { status := sentStatus a } := by
  cases a <;> rfl

/-- A request that is not verified, micro-step by micro-step. -/
theorem reaches_unverifiedSend (fc : Byte) (reg count : Half) (override : Bool) (addr : Byte) (s : State) :
    let frame := sendReadFrame fc reg count override addr s
    Reaches 3 (.sendRead fc reg count false override addr) (.next .encode) s
      (.next (.ending [] { status := sentStatus ((s.loadTx frame).txAnswer frame) }))
      ((s.loadTx frame).afterTx frame) :=
  ((Reaches.one rfl).trans (.one rfl)).trans (.one (by rw [perform, afterSend_unverified]))

/-- The reset-energy exchange, micro-step by micro-step. -/
theorem reaches_resetExchange (s : State) :
    Reaches 26 .resetEnergy (.next .encode) s (.next (.ending [] { status := (resetExchange s).2 }))
      (resetExchange s).1 := by
  have h₁ : Reaches 1 .resetEnergy (.next .encode) s (.next (.txWrite (resetEnergyFrame s))) s := .one rfl
  unfold resetExchange
  dsimp only
  cases ha : s.txAnswer (resetEnergyFrame s) with
  | err => exact (h₁.trans (reaches_sendFailed ha)).mono (by decide)
  | ok len => exact (h₁.trans (reaches_reply ha rfl rfl)).mono (by decide)

/-! ## Commands on the cache -/

/-- What makes `i` a command that begins with `updateValues()` (spec/44_cache_decoder.md R197, R200, R201). -/
structure RefreshesCache (i : Instr) : Prop where
  frame : ∀ s, afterEncode i s = .loadTx (bulkRequest s)
  collects : collectsReply i = true
  expects : expectedReply i = (Config.bulkRespLen, Config.rxTimeoutMs)
  failed : ∀ r s code, bulkFailure r = some code → afterReceive i r s = conclude i s ⟨code, none⟩
  stored : ∀ r s, bulkFailure r = none → afterReceive i r s = .decodeReply

/-- A command that begins with a clock sample is one on the cache. -/
theorem refreshesCache_of_entry {i : Instr} (h : entry i = .sampleBefore) : RefreshesCache i := by
  cases i with
  | crc16 | validate | receive | setAddress => simp only [entry] at h; split_ifs at h; cases h
  | encode8 | encode4 | sendRead | writeReg | setPowerAlarm | resetEnergy | decode => cases h
  | updateValues | readVoltage | readCurrent | readPower | readEnergy | readFrequency | readPf | readAlarms
  | getPowerAlarm =>
    exact ⟨fun _ => rfl, rfl, rfl, fun r s code hr => by simp [afterReceive, hr], fun r s hr => by simp [afterReceive, hr]⟩

/-- Where a command concludes depends on the registers only. -/
theorem conclude_of_sameRegisters {s s' : State} (h : SameRegisters s s') (i : Instr) (u : Update) :
    conclude i s u = conclude i s' u := by
  rw [h]
  cases i <;> rfl

/-- A command on the cache concludes with the nine writes of a snapshot and two more at most. -/
theorem concludeWrites_length_le (i : Instr) (s : State) (u : Update) : (concludeWrites i s u).length ≤ 11 := by
  have hu : (updateWrites u).length ≤ 9 := by
    unfold updateWrites
    split <;> simp [Fields.writes]
  have ha : ∀ f, (accessorWrites f s u).length ≤ 11 := by
    intro f
    unfold accessorWrites
    split <;> (simp; omega)
  cases i with
  | readVoltage | readCurrent | readPower | readEnergy | readFrequency | readPf | readAlarms | getPowerAlarm => exact ha _
  | _ => exact hu.trans (by decide)

/-- `updateValues()`, micro-step by micro-step. -/
theorem reaches_updateValues {i : Instr} (hi : RefreshesCache i) (s : State) :
    Reaches 110 i (.next .sampleBefore) s (.next (conclude i (updateValues s).1 (updateValues s).2))
      (updateValues s).1 := by
  unfold updateValues
  dsimp only
  split
  · next hf =>
    rw [← conclude_of_sameRegisters (.afterNow s)]
    have h₁ : Reaches 1 i (.next .sampleBefore) s (.next (conclude i s ⟨.ok, none⟩)) s.afterNow :=
      .one (by simp only [perform, hf, if_true])
    exact h₁.mono (by decide)
  · next hf =>
    have h₁ : Reaches 1 i (.next .sampleBefore) s (.next .encode) s.afterNow :=
      .one (by simp only [perform, if_neg hf])
    have h₂ : Reaches 1 i (.next .encode) s.afterNow (.next (.loadTx (bulkRequest s))) s.afterNow :=
      .one (by rw [perform, hi.frame]; rfl)
    have h₃ := (h₁.trans h₂).trans (.one (p' := .txWrite (bulkRequest s)) rfl)
    cases ha : (s.afterNow.loadTx (bulkRequest s)).txAnswer (bulkRequest s) with
    | err =>
      rw [← conclude_of_sameRegisters (.afterTx (s.afterNow.loadTx (bulkRequest s)) _)]
      exact (h₃.trans (reaches_sendFailed ha)).mono (by decide)
    | ok len =>
      have h₄ := h₃.trans (reaches_reply ha hi.collects hi.expects)
      dsimp only
      split
      · next code hb =>
        rw [hi.failed _ _ _ hb] at h₄
        exact h₄.mono (by decide)
      · next hb =>
        rw [hi.stored _ _ hb] at h₄
        rw [← conclude_of_sameRegisters (.afterNow _)]
        exact (h₄.trans ((Reaches.one rfl).trans (Reaches.one rfl))).mono (by decide)

/-- A command on the cache ends with the writes for what `updateValues()` returns. -/
theorem EndsAs.refreshed {i : Instr} (h : entry i = .sampleBefore) (s : State) :
    EndsAs i .start s
      (.next ((updateValues s).1.finish
        (.of (updateValues s).2.code (concludeWrites i (updateValues s).1 (updateValues s).2)))) := by
  apply EndsAs.of_entry
  rw [h]
  have := concludeWrites_length_le i (updateValues s).1 (updateValues s).2
  exact .of_ending (reaches_updateValues (refreshesCache_of_entry h) s) (by unfold microSteps; omega)

/-! ## Every command -/

/-- The micro-steps of every command are all made within the bound, and come to what its meaning says. -/
theorem endsAs_exec (i : Instr) (s : State) : EndsAs i .start s (exec i s) := by
  cases i with
  | crc16 len =>
    apply EndsAs.of_entry
    simp only [entry, exec, execCrc16, crc16Commit]
    split
    · split
      · next hb => exact .memRead_written (i := .crc16 len) hb
      · next hb => exact .memRead_unwritten (i := .crc16 len) hb
    · exact .raise _ _ s
  | validate len =>
    apply EndsAs.of_entry
    simp only [entry, exec, execValidate, validateCommit]
    split
    · split
      · exact .of_ending (k := 0) ⟨0, le_refl _, rfl⟩ (by decide)
      · split
        · next hb => exact .memRead_written (i := .validate len) hb
        · next hb => exact .memRead_unwritten (i := .validate len) hb
    · exact .raise _ _ s
  | decode =>
    apply EndsAs.of_entry
    simp only [entry, exec, execDecode, decodeCommit]
    split
    · next hb => exact .memRead_written (i := .decode) hb
    · next hb => exact .memRead_unwritten (i := .decode) hb
  | encode8 | encode4 => exact .of_entry (.of_ending (k := 1) (.one rfl) (by simp [encodeWrites, microSteps]))
  | receive len timeout =>
    apply EndsAs.of_entry
    simp only [entry, exec, execReceive]
    split
    · next hl =>
      have hl : len.toNat ≤ 32 := of_decide_eq_true hl
      refine .of_ending (reaches_receive (i := .receive len timeout) rfl s) ?_
      unfold receiveWrites microSteps
      split <;> simp <;> omega
    · exact .raise _ _ s
  | sendRead fc reg count verify override addr =>
    apply EndsAs.of_entry
    cases verify with
    | true =>
      exact .verified (writes := fun _ => []) ⟨rfl, rfl, fun _ => rfl, fun _ _ => rfl⟩ rfl (by simp)
    | false => exact .of_ending (reaches_unverifiedSend fc reg count override addr s) (by decide)
  | writeReg | setPowerAlarm =>
    exact .of_entry (.verified (writes := fun _ => []) ⟨rfl, rfl, fun _ => rfl, fun _ _ => rfl⟩ rfl (by simp))
  | setAddress addr =>
    apply EndsAs.of_entry
    simp only [entry, exec, execSetAddress]
    split
    · refine .verified (writes := setAddressWrites addr) ⟨rfl, rfl, fun _ => rfl, fun _ _ => rfl⟩ rfl fun code => ?_
      unfold setAddressWrites
      split <;> simp
    · exact .raise _ _ s
  | resetEnergy => exact .of_entry (.of_ending (reaches_resetExchange s) (by decide))
  | updateValues | readVoltage | readCurrent | readPower | readEnergy | readFrequency | readPf | readAlarms
  | getPowerAlarm => exact .refreshed rfl s

/-- Settles O58: the path of each command through its primitives ends within the bound (`endsAs_exec`). -/
theorem microStepsEndAsTheMeaningSays : Obligations.MicroStepsEndAsTheMeaningSays := by
  intro i s
  exact (endsAs_exec i s).outcome

/-- Settles O59: a whole run within the bound passes through every point at which the command can be stopped. -/
theorem stoppedCommandsEndTheSame : Obligations.StoppedCommandsEndTheSame := by
  intro k i s s' p h
  exact ((endsAs_exec i s).of_stopped h).outcome

/-! ## What the host sees before the finish -/

/-- Micro-steps that do not finish the command change the hidden buffers and the environment only. -/
theorem advanceFor_sameRegisters {k : Nat} {i : Instr} {p p' : Phase} {s s' : State}
    (h : advanceFor k i p s = .ok (s', some p')) : SameRegisters s s' :=
  advanceFor_induction (P := fun _ x => SameRegisters s x) (Q := fun _ => True)
    (fun _ _ _ _ hs h => hs.trans (advance_sameRegisters h)) (fun _ _ _ _ _ => trivial) k p s s' (some p') (.refl s) h

/-- The host reads none of the hidden buffers and nothing of the environment. -/
theorem SameRegisters.readReg {s s' : State} (h : SameRegisters s s') (n : Byte) : s'.readReg n = s.readReg n := by
  rw [h]
  rfl

/-- Settles O60: no micro-step but the finish changes a register the host can read. -/
theorem nothingShowsBeforeTheFinish : Obligations.NothingShowsBeforeTheFinish := by
  intro k i s s' p h
  have hs := advanceFor_sameRegisters h
  exact ⟨hs, hs.readReg⟩

/-! ## Steps of the machine -/

/-- With no input left the engine runs. -/
theorem step_of_no_input {s : State} (h : s.env.inputs = []) : step s = runEngine s := by
  simp only [step, h]

/-- An input is taken away and takes effect. -/
theorem step_of_input {s : State} {x : Input} {rest : List Input} (h : s.env.inputs = x :: rest) :
    step s = applyInput x { s with env := { s.env with inputs := rest } } := by
  simp only [step, State.popInput, h, List.tail_cons]

/-- An issued word that decodes runs as its command. -/
theorem runEngine_issued {s : State} {w : CommandWord} {i : Instr} (hl : s.latch = some ⟨w, .start⟩)
    (hd : decode w = .ok i) : runEngine s = exec i s := by
  simp only [runEngine, hl, runCommand, hd]

/-- A command stopped at a later phase is resumed there. -/
theorem runEngine_stopped {s : State} {w : CommandWord} {p : Phase} {i : Instr} (hl : s.latch = some ⟨w, p⟩)
    (hp : p ≠ .start) (hd : decode w = .ok i) : runEngine s = resumeCommand i p s := by
  cases p with
  | start => exact absurd rfl hp
  | next q => simp only [runEngine, hl, runCommand, hd]

/-- A micro-step of the engine is the micro-step of the command in the latch. -/
theorem tickEngine_command {s : State} {w : CommandWord} {p : Phase} {i : Instr} (hl : s.latch = some ⟨w, p⟩)
    (hd : decode w = .ok i) : tickEngine s = settle (advance i p s) := by
  simp only [tickEngine, hl, tickCommand, hd]

/-- A micro-step short of the finish leaves the word in the latch, at its new phase. -/
theorem setPhase_of_advance {i : Instr} {w : CommandWord} {p q : Phase} {s t : State} (h : advance i p s = .ok (t, some q))
    (hl : s.latch = some ⟨w, p⟩) : t.setPhase q = { t with latch := some ⟨w, q⟩ } := by
  have ht : t.latch = some ⟨w, p⟩ := by rw [advance_sameRegisters h]; exact hl
  simp only [State.setPhase, ht, Option.map_some]

/-- R225: `ILLEGAL_COMMAND` writes `STATUS` and ends the command. -/
theorem State.finish_illegal (s : State) : s.finish illegal = { s with status := .illegalCommand, latch := none } := by
  simp [State.finish, illegal, Memory.writeBytes]

/-- Settles O49: each part reads off what `step` does with the input, or without one. -/
theorem issuedWordRunsItsCommand : Obligations.IssuedWordRunsItsCommand := by
  refine ⟨fun s w i hl hd => ⟨fun h => ?_, fun rest h => ?_⟩, fun s => ⟨step_of_no_input, fun rest h => step_of_input h⟩,
    fun s w p i hl hp hd => ⟨fun h => ?_, fun rest h => ?_⟩,
    fun s rest h => ⟨fun w p i hl hd => ?_, fun w p e hl hd => ?_, fun hl => ?_⟩⟩
  · rw [step_of_no_input h, runEngine_issued hl hd]
  · rw [step_of_input h]
    exact runEngine_issued hl hd
  · rw [step_of_no_input h, runEngine_stopped hl hp hd]
  · rw [step_of_input h]
    exact runEngine_stopped hl hp hd
  · have hstep : step s = settle (advance i p { s with env := { s.env with inputs := rest } }) := by
      rw [step_of_input h]
      exact tickEngine_command hl hd
    refine ⟨fun t q ha => ?_, fun t ha => ?_, fun f ha => ?_⟩
    · rw [hstep, ha, settle, setPhase_of_advance ha hl]
    · rw [hstep, ha, settle]
    · rw [hstep, ha, settle]
  · simp only [step_of_input h, applyInput, tickEngine, hl, tickCommand, hd, State.finish_illegal]
  · simp only [step_of_input h, applyInput, tickEngine, hl]

end Sys2Proof.Machine

/-!
PROOFS of the statements of spec/10_state.md. The invariant is taken through one primitive at a time: the writes of every
command are legal, a legal primitive leads to a legal one, and so a legal phase does however many micro-steps are made.
What a whole command changes is read off the writes its rule allows (`exec_next`).
-/

namespace Sys2Proof.Machine

/-! ## Staged writes that keep the invariant -/

/-- Writes of the registers that the invariant does not bound are legal at any time. -/
theorem Commit.legal_of_unbounded {c : Commit} (ha : c.sessAddr = none) (hh : c.hlen = none) (hb : c.hbuf = [])
    (ht : c.lastReadMs = none) (lastNow : Time) : c.legal lastNow := by
  simp [Commit.legal, ha, hh, hb, ht]

/-- What a command computes from the bytes it has read goes to `RESULT` or `DEC_*`. -/
theorem computedWrites_legal (i : Instr) (bytes : List Byte) (lastNow : Time) :
    (Commit.of .ok (computedWrites i bytes)).legal lastNow := by
  cases i <;> exact Commit.legal_of_unbounded rfl rfl rfl rfl _

/-- An encoded frame fits the host buffer, and `HLEN` is its length. -/
theorem encodeWrites_legal {frame : List Byte} (h : frame.length ≤ Config.hbufDepth) (lastNow : Time) :
    (Commit.of .ok (encodeWrites frame)).legal lastNow := by
  refine ⟨by simp [Commit.of, encodeWrites, Commit.stage], ?_, h, by simp [Commit.of, encodeWrites, Commit.stage]⟩
  rintro _ ⟨⟩
  exact (Nat.mod_le _ _).trans h

/-- RECEIVE stages no more bytes than it has accumulated. -/
theorem receiveCommit_legal (s : State) {r : Received} (hl : r.len ≤ Config.hbufDepth)
    (lastNow : Time) : (receiveCommit s r).legal lastNow := by
  rw [receiveCommit_eq]
  refine ⟨by simp, ?_, (List.length_take_le _ _).trans hl, by simp⟩
  rintro _ ⟨⟩
  exact (Nat.mod_le _ _).trans hl

/-- SET_ADDRESS stages an address that the host may supply. -/
theorem setAddressCommit_legal {addr : Byte} (h : isHostAddr addr = true) (code : Status) (lastNow : Time) :
    (setAddressCommit addr code).legal lastNow := by
  rw [setAddressCommit_eq]
  refine ⟨fun a ha => ?_, by simp, by simp, by simp⟩
  split at ha <;> cases ha
  exact h

/-- The stamp of an update, if it stores a snapshot, is a past sample. -/
def Update.past (u : Update) (lastNow : Time) : Prop := ∀ d t, u.snap = some (d, t) → t ≤ lastNow

theorem Update.past.of_unstored (code : Status) (lastNow : Time) : Update.past ⟨code, none⟩ lastNow := by
  simp [Update.past]

theorem updateCommit_legal {u : Update} {lastNow : Time} (h : u.past lastNow) : (updateCommit u).legal lastNow := by
  obtain ⟨code, _ | ⟨d, t⟩⟩ := u
  · exact Commit.legal_of_unbounded rfl rfl rfl rfl _
  · simpa [Commit.legal] using h d t rfl

theorem accessorWrites_legal (f : Fields → Word) (s : State) {u : Update} {lastNow : Time} (h : u.past lastNow) :
    (Commit.of u.code (accessorWrites f s u)).legal lastNow := by
  rw [accessorWrites_commit]
  exact updateCommit_legal h

theorem concludeWrites_legal (i : Instr) (s : State) {u : Update} {lastNow : Time} (h : u.past lastNow) :
    (Commit.of u.code (concludeWrites i s u)).legal lastNow := by
  cases i with
  | readVoltage | readCurrent | readPower | readEnergy | readFrequency | readPf | readAlarms | getPowerAlarm =>
    exact accessorWrites_legal _ s h
  | _ => exact updateCommit_legal h

/-! ## Where a command goes is a primitive that fits it -/

theorem raise_legal (i : Instr) (code : Status) (s : State) : (Primitive.raise code).legal i s :=
  Commit.legal_of_unbounded rfl rfl rfl rfl _

theorem conclude_legal (i : Instr) (s s' : State) {u : Update} (h : u.past s'.env.lastNow) :
    (conclude i s u).legal i s' := concludeWrites_legal i s h

/-- A command begins at a primitive that fits it. -/
theorem entry_legal (i : Instr) (s : State) : (entry i).legal i s := by
  cases i with
  | crc16 =>
    simp only [entry]
    split
    · trivial
    · exact raise_legal _ _ s
  | receive | setAddress =>
    simp only [entry]
    split
    · assumption
    · exact raise_legal _ _ s
  | validate =>
    simp only [entry]
    split_ifs
    · exact computedWrites_legal (.validate 0) [] _
    · trivial
    · exact raise_legal _ _ s
  | decode => trivial
  | _ => rfl

/-- A frame for `TXBUF` has 8 bytes. -/
theorem afterEncode_legal {i : Instr} (s : State) (h : passesChecks i = true) : (afterEncode i s).legal i s := by
  cases i with
  | encode8 addr fc reg value => exact encodeWrites_legal (frame := frame8 addr fc reg value) (of_decide_eq_true rfl) _
  | encode4 addr fc => exact encodeWrites_legal (frame := frame4 addr fc) (of_decide_eq_true rfl) _
  | crc16 | validate | receive | decode => exact raise_legal _ _ s
  | resetEnergy => exact h
  | _ => exact ⟨h, rfl⟩

theorem afterSend_legal {i : Instr} (a : TxAnswer) (s s' : State) (h : passesChecks i = true) :
    (afterSend i a s).legal i s' := by
  cases a with
  | err => exact conclude_legal i s s' (.of_unstored _ _)
  | ok n =>
    simp only [afterSend]
    split
    · exact h
    · exact raise_legal _ _ s'

/-- A command that has passed its checks expects no more than the receive buffer holds. -/
theorem expectedReply_le {i : Instr} (h : passesChecks i = true) : (expectedReply i).1 ≤ Config.rxDepth := by
  cases i with
  | receive => exact of_decide_eq_true h
  | _ => exact of_decide_eq_true rfl

theorem loopHead_legal {i : Instr} {s : State} (h : passesChecks i = true)
    (hr : s.rxbuf.length ≤ (expectedReply i).1) : (loopHead i s).legal i s := by
  unfold loopHead
  split
  · exact ⟨h, hr⟩
  · next hne => exact ⟨h, by omega⟩

theorem afterReceive_legal {i : Instr} {r : Received} {s : State} (h : passesChecks i = true)
    (hb : s.rxbuf.length ≤ Config.rxDepth) (hr : r.len ≤ s.rxbuf.length) : (afterReceive i r s).legal i s := by
  cases i with
  | receive => exact receiveCommit_legal s (hr.trans hb) _
  | setAddress => exact setAddressCommit_legal h _ _
  | updateValues | readVoltage | readCurrent | readPower | readEnergy | readFrequency | readPf | readAlarms
  | getPowerAlarm =>
    simp only [afterReceive]
    split
    · exact conclude_legal _ s s (.of_unstored _ _)
    · trivial
  | _ => exact raise_legal _ _ s

theorem State.verdict_len_le (s : State) : s.verdict.len ≤ s.rxbuf.length := by
  unfold State.verdict
  split <;> simp

/-! ## The invariant apart from the command in progress -/

/-- The block with its command latch emptied. -/
def State.unlatched (s : State) : State := { s with latch := none }

@[simp] theorem State.unlatched_latch (s : State) : s.unlatched.latch = none := rfl

theorem State.inv_iff {s : State} : s.Inv ↔ s.unlatched.Inv ∧ ∀ c, s.latch = some c → c.legal s :=
  ⟨fun h => ⟨{ h with command := by simp }, h.command⟩, fun h => { h.1 with command := h.2 }⟩

theorem State.Inv.afterNow {s : State} (h : s.unlatched.Inv) : s.afterNow.unlatched.Inv :=
  { h with
    lastRead := BitVec.le_trans h.lastRead s.env.lastNow_le_now
    rxStart := BitVec.le_trans h.rxStart s.env.lastNow_le_now
    command := by simp }

theorem State.Inv.afterTx {s : State} (h : s.unlatched.Inv) (bytes : List Byte) : (s.afterTx bytes).unlatched.Inv :=
  { h with command := by simp }

theorem State.Inv.afterRx {s : State} (h : s.unlatched.Inv) (ms : Time) : (s.afterRx ms).unlatched.Inv :=
  { h with command := by simp }

theorem State.Inv.loadTx {s : State} (h : s.unlatched.Inv) {frame : List Byte} (hf : frame.length = Config.frame8Len) :
    (s.loadTx frame).unlatched.Inv :=
  { h with txbuf := .inr hf, command := by simp }

theorem State.Inv.clearRx {s : State} (h : s.unlatched.Inv) : s.clearRx.unlatched.Inv :=
  { h with rxbuf := Nat.zero_le _, command := by simp }

theorem State.Inv.setStart {s : State} (h : s.unlatched.Inv) {t : Time} (ht : t ≤ s.env.lastNow) :
    (s.setStart t).unlatched.Inv :=
  { h with rxStart := ht, command := by simp }

theorem State.Inv.pushRx {s : State} (h : s.unlatched.Inv) (hl : s.rxbuf.length < Config.rxDepth) (b : Byte) :
    (s.pushRx b).unlatched.Inv :=
  { h with rxbuf := by simpa [State.unlatched] using hl, command := by simp }

theorem isSessionAddr_of_isHostAddr {a : Byte} (h : isHostAddr a = true) : isSessionAddr a = true := by
  rw [isHostAddr_iff] at h
  rw [isSessionAddr_iff]
  omega

/-- What holds of a register, and of the value staged for it if there is one, holds of the register afterwards. -/
theorem getD_of_forall {α : Type} {P : α → Prop} {x : α} {staged : Option α} (hx : P x)
    (hs : ∀ a, staged = some a → P a) : P (staged.getD x) := by
  cases staged with
  | none => exact hx
  | some a => exact hs a rfl

/-- Legal writes keep the invariant when they take effect, and no command is in progress afterwards. -/
theorem State.Inv.finish {s : State} (h : s.unlatched.Inv) {c : Commit} (hc : c.legal s.env.lastNow) :
    (s.finish c).Inv := by
  obtain ⟨haddr, hhlen, hhbuf, hstamp⟩ := hc
  exact { h with
    hbufWf := Memory.writeBytes_wf h.hbufWf 0 c.hbuf
    hbufBound := Memory.writeBytes_bound 0 c.hbuf h.hbufBound (by omega)
    sessAddr := getD_of_forall (P := (isSessionAddr · = true)) h.sessAddr
      fun a ha => isSessionAddr_of_isHostAddr (haddr a ha)
    hlen := getD_of_forall (P := fun n : Byte => n.toNat ≤ Config.hbufDepth) h.hlen hhlen
    lastRead := getD_of_forall (P := (· ≤ s.env.lastNow)) h.lastRead hstamp
    command := by simp }

/-! ## Micro-steps -/

/-- The invariant of a block at a primitive of command `i`, and of the block alone once the command has finished. -/
def InvAt (i : Instr) (s : State) : Option Primitive → Prop
  | some p => s.unlatched.Inv ∧ p.legal i s
  | none => s.Inv

/-- One primitive that fits its command keeps the invariant, and leads to a primitive that fits. -/
theorem perform_keeps_inv {i : Instr} {p : Primitive} {s s' : State} {o : Option Primitive} (hs : s.unlatched.Inv)
    (hp : p.legal i s) (h : perform i p s = .ok (s', o)) : InvAt i s' o := by
  cases p with
  | memRead =>
    simp only [perform] at h
    split at h <;> cases h
    exact ⟨hs, trivial⟩
  | compute bytes => cases h; exact ⟨hs, computedWrites_legal i bytes _⟩
  | encode => cases h; exact ⟨hs, afterEncode_legal s hp⟩
  | loadTx frame => cases h; exact ⟨.loadTx hs hp.2, hp.1⟩
  | txWrite frame => cases h; exact ⟨.afterTx hs frame, afterSend_legal _ s _ hp⟩
  | clearCount => cases h; exact ⟨.clearRx hs, hp, rfl⟩
  | sampleStart => cases h; exact ⟨.afterNow hs, hp.1, hp.2, BitVec.le_refl _⟩
  | setStart t =>
    obtain ⟨hc, hempty, ht⟩ := hp
    cases h
    exact ⟨.setStart hs ht, loopHead_legal hc (by simp [hempty])⟩
  | sampleLoop =>
    obtain ⟨hc, hlt⟩ := hp
    simp only [perform] at h
    split at h <;> cases h
    · exact ⟨.afterNow hs, hc, hlt.le⟩
    · exact ⟨.afterNow hs, hc, hlt⟩
  | rxRead ms =>
    obtain ⟨hc, hlt⟩ := hp
    simp only [perform] at h
    split at h <;> cases h
    · exact ⟨.afterRx hs ms, hc, hlt⟩
    · exact ⟨.afterRx hs ms, hc, hlt.le⟩
    · exact ⟨.afterRx hs ms, afterReceive_legal hc hs.rxbuf (Nat.zero_le _)⟩
  | rxStore b => cases h; exact ⟨hs, hp⟩
  | rxCount b =>
    obtain ⟨hc, hlt⟩ := hp
    cases h
    exact ⟨.pushRx hs (hlt.trans_le (expectedReply_le hc)) b, loopHead_legal hc (by simpa using hlt)⟩
  | check => cases h; exact ⟨hs, afterReceive_legal hp.1 hs.rxbuf s.verdict_len_le⟩
  | sampleBefore =>
    cases h
    refine ⟨.afterNow hs, ?_⟩
    split
    · exact conclude_legal i s _ (.of_unstored _ _)
    · exact hp
  | decodeReply => cases h; exact ⟨hs, trivial⟩
  | sampleAfter d =>
    cases h
    refine ⟨.afterNow hs, conclude_legal i s _ ?_⟩
    rintro _ _ ⟨⟩
    exact BitVec.le_refl _
  | ending todo c =>
    cases todo with
    | nil => cases h; exact .finish hs hp
    | cons w todo => cases h; exact ⟨hs, hp⟩

/-- A legal phase is at a primitive that fits. -/
theorem Command.legal_primitive {c : Command} {i : Instr} {s : State} (h : c.legal s) (hd : decode c.word = .ok i) :
    (c.phase.primitive i).legal i s := by
  obtain ⟨w, _ | p⟩ := c
  · exact entry_legal i s
  · exact h i hd

/-- A command at a primitive that fits it is in a legal phase. -/
theorem Command.legal_of_primitive {w : CommandWord} {p : Phase} {i : Instr} {s : State} (hd : decode w = .ok i)
    (h : (p.primitive i).legal i s) : Command.legal ⟨w, p⟩ s := by
  cases p with
  | start => trivial
  | next q =>
    intro j hj
    obtain rfl : i = j := by simpa [hd] using hj
    exact h

/-- However many micro-steps of a command are made, the invariant is kept, and the latch until the finish. -/
theorem advanceFor_keeps_inv {k : Nat} {i : Instr} {p : Phase} {s s' : State} {o : Option Phase} (hs : s.unlatched.Inv)
    (hp : (p.primitive i).legal i s) (h : advanceFor k i p s = .ok (s', o)) :
    InvAt i s' (o.map (·.primitive i)) := by
  have := advanceFor_induction (P := fun p s => InvAt i s (some (p.primitive i))) (Q := State.Inv)
    (fun p s s' p' hs h => by
      obtain ⟨q, rfl, hq⟩ := advance_ok h
      exact perform_keeps_inv hs.1 hs.2 hq)
    (fun p s s' hs h => perform_keeps_inv hs.1 hs.2 (advance_finished h)) k p s s' o ⟨hs, hp⟩ h
  cases o <;> exact this

/-- The engine keeps the invariant however many micro-steps it makes before it stops. -/
theorem settle_keeps_inv {k : Nat} {i : Instr} {c : Command} {s t : State} (hs : s.Inv) (hl : s.latch = some c)
    (hd : decode c.word = .ok i) (h : settle (advanceFor k i c.phase s) = .next t) : t.Inv := by
  obtain ⟨hu, hc⟩ := State.inv_iff.1 hs
  rcases ha : advanceFor k i c.phase s with f | ⟨s', _ | p'⟩ <;> rw [ha] at h <;> cases h
  · exact advanceFor_keeps_inv hu (Command.legal_primitive (hc c hl) hd) ha
  · obtain ⟨hu', hp'⟩ := advanceFor_keeps_inv hu (Command.legal_primitive (hc c hl) hd) ha
    have hl' : s'.latch = some c := by rw [advanceFor_sameRegisters ha]; exact hl
    refine State.inv_iff.2 ⟨hu', fun c' hc' => ?_⟩
    obtain rfl : { c with phase := p' } = c' := by simpa [hl'] using hc'
    exact Command.legal_of_primitive hd hp'

/-! ## Steps -/

/-- A command runs to its finish by micro-steps, from its start and from any later phase. -/
theorem runCommand_eq_resumeCommand {c : Command} {i : Instr} (hd : decode c.word = .ok i) (s : State) :
    runCommand c s = resumeCommand i c.phase s := by
  obtain ⟨w, _ | p⟩ := c
  · simpa [runCommand, hd] using (endsAs_exec i s).outcome.symm
  · simp only [runCommand, hd]

theorem tickCommand_eq_settle {c : Command} {i : Instr} (hd : decode c.word = .ok i) (s : State) :
    tickCommand c s = settle (advanceFor 1 i c.phase s) := by
  simp only [tickCommand, hd, advanceFor]
  rcases advance i c.phase s with f | ⟨s', _ | p'⟩ <;> rfl

theorem State.Inv.finish_illegal {s : State} (h : s.Inv) : (s.finish illegal).Inv :=
  .finish (State.inv_iff.1 h).1 (Commit.legal_of_unbounded rfl rfl rfl rfl _)

theorem runEngine_keeps_inv {s t : State} (hs : s.Inv) (h : runEngine s = .next t) : t.Inv := by
  unfold runEngine at h
  split at h
  · cases h; exact hs
  · next c hl =>
    cases hd : decode c.word with
    | error e => simp only [runCommand, hd] at h; cases h; exact hs.finish_illegal
    | ok i => rw [runCommand_eq_resumeCommand hd] at h; exact settle_keeps_inv hs hl hd h

theorem tickEngine_keeps_inv {s t : State} (hs : s.Inv) (h : tickEngine s = .next t) : t.Inv := by
  unfold tickEngine at h
  split at h
  · cases h; exact hs
  · next c hl =>
    cases hd : decode c.word with
    | error e => simp only [tickCommand, hd] at h; cases h; exact hs.finish_illegal
    | ok i => rw [tickCommand_eq_settle hd] at h; exact settle_keeps_inv hs hl hd h

theorem State.Inv.answer {s : State} (h : s.Inv) (v : BitVec 64) : (s.answer v).Inv := { h with command := h.command }

theorem State.Inv.popInput {s : State} (h : s.Inv) : s.popInput.Inv := { h with command := h.command }

/-- The host writes inside the buffer, and issues commands at their start. -/
theorem hostAct_keeps_inv {a : HostAction} {s t : State} (hs : s.Inv) (h : hostAct a s = .next t) : t.Inv := by
  cases a with
  | issue w =>
    simp only [hostAct, hostIssue] at h
    split at h <;> cases h
    refine { hs with command := ?_ }
    rintro _ ⟨⟩
    trivial
  | readReg n =>
    simp only [hostAct, hostReadReg] at h
    split at h <;> cases h
    exact hs.answer _
  | writeBuf k b =>
    simp only [hostAct, hostWriteBuf] at h
    split_ifs at h with _ hk
    cases h
    exact { hs with
      hbufWf := Memory.write_wf hs.hbufWf k b
      hbufBound := Memory.write_bound hk hs.hbufBound
      command := hs.command }
  | readBuf k =>
    simp only [hostAct, hostReadBuf] at h
    split_ifs at h
    split at h <;> cases h
    exact hs.answer _

/-- R253: the startup address is one the session may hold, whatever the platform supplies. -/
theorem isSessionAddr_sanitize (a : Byte) : isSessionAddr (sanitize a) = true := by
  unfold sanitize
  split
  · assumption
  · decide

theorem State.assertReset_inv (s : State) : s.assertReset.Inv where
  hbufWf := State.reset_hbuf_wf
  hbufBound := by simp
  sessAddr := isSessionAddr_sanitize _
  hlen := Nat.zero_le _
  rxbuf := Nat.zero_le _
  txbuf := .inl rfl
  lastRead := (BitVec.le_def.2 (Nat.zero_le _))
  rxStart := (BitVec.le_def.2 (Nat.zero_le _))
  command := by simp

theorem applyInput_keeps_inv {x : Input} {s t : State} (hs : s.Inv) (h : applyInput x s = .next t) : t.Inv := by
  cases x with
  | host a => exact hostAct_keeps_inv hs h
  | reset => cases h; exact s.assertReset_inv
  | tick => exact tickEngine_keeps_inv hs h
  | wait => exact runEngine_keeps_inv hs h

/-- Settles O55: the engine, the host and the platform each keep the invariant. -/
theorem everyStepKeepsTheInvariant : Obligations.EveryStepKeepsTheInvariant := by
  intro s t hs h
  unfold step at h
  split at h
  · exact runEngine_keeps_inv hs h
  · exact applyInput_keeps_inv hs.popInput h

/-- Settles O54: the state after reset is the one that the RESET input leaves, and its history is empty. -/
theorem resetMeetsTheInvariant : Obligations.ResetMeetsTheInvariant :=
  ⟨State.reset.assertReset_inv, List.Pairwise.nil, by simp [clockSamples, State.reset, Env.initial]⟩

/-! ## What a whole command changes -/

/-- No command but SET_ADDRESS stages a session address. -/
theorem Commit.sessAddr_of_allowed {i : Instr} {s' : State} {c : Commit} (h : c.allowed i s')
    (hi : ∀ addr, i ≠ .setAddress addr) : c.sessAddr = none := by
  cases i with
  | setAddress addr => exact absurd rfl (hi addr)
  | receive =>
    obtain rfl | ⟨r, rfl, -⟩ := h
    · rfl
    · rw [receiveCommit_eq]
  | updateValues => rw [h.1.1]
  | readVoltage | readCurrent | readPower | readEnergy | readFrequency | readPf | readAlarms | getPowerAlarm => rw [h.1]
  | _ => rw [h]

/-- Settles O32: SET_ADDRESS stages the address on `OK` alone, and no other command stages one. -/
theorem onlySetAddressMovesTheSession : Obligations.OnlySetAddressMovesTheSession := by
  intro i s t h
  obtain ⟨s', c, rfl, hw, hc⟩ := exec_next h
  have hs : s'.sessAddr = s.sessAddr := by rw [hw.same]
  refine ⟨?_, fun hi => ?_⟩
  · rintro addr rfl hok
    obtain ⟨-, hset, -⟩ := hc
    obtain ⟨hc, ha⟩ := hset hok
    exact ⟨by simp [hc], isHostAddr_iff.1 ha⟩
  · suffices hn : c.sessAddr = none by simp [hn, hs]
    by_cases hset : ∀ addr, i ≠ .setAddress addr
    · exact Commit.sessAddr_of_allowed hc hset
    · obtain ⟨addr, rfl⟩ : ∃ addr, i = .setAddress addr := by simpa using hset
      obtain ⟨-, -, hkeep⟩ := hc
      exact hkeep (hi.resolve_left hset)

/-- The commands that may replace the snapshot (spec/44_cache_decoder.md R197, R200, R201). -/
def cacheCommands : List Instr :=
  [.updateValues, .readVoltage, .readCurrent, .readPower, .readEnergy, .readFrequency, .readPf, .readAlarms,
    .getPowerAlarm]

/-- No other command stages anything for the cache. -/
theorem Commit.cache_of_allowed {i : Instr} {s' : State} {c : Commit} (h : c.allowed i s') (hi : i ∉ cacheCommands) :
    c.snap = {} ∧ c.lastReadMs = none ∧ c.hasSnap = false := by
  cases i with
  | updateValues | readVoltage | readCurrent | readPower | readEnergy | readFrequency | readPf | readAlarms
  | getPowerAlarm => exact absurd (by decide) hi
  | receive =>
    obtain rfl | ⟨r, rfl, -⟩ := h
    · exact ⟨rfl, rfl, rfl⟩
    · rw [receiveCommit_eq]
      exact ⟨rfl, rfl, rfl⟩
  | setAddress => rw [h.1]; exact ⟨rfl, rfl, rfl⟩
  | _ => rw [h]; exact ⟨rfl, rfl, rfl⟩

/-- Settles O41: `finish` never clears `HAS_SNAP`, and only the commands on the cache stage its registers. -/
theorem onlyUpdatesReplaceTheSnapshot : Obligations.OnlyUpdatesReplaceTheSnapshot := by
  intro i s t h
  obtain ⟨s', c, rfl, hw, hc⟩ := exec_next h
  rw [hw.same]
  refine ⟨fun hs => by simp [hs], fun hi => ?_⟩
  obtain ⟨hsnap, hstamp, hhas⟩ := Commit.cache_of_allowed hc hi
  simp [hsnap, hstamp, hhas]

/-- Settles O46: no exchange touches the host's side of the environment (`Worked`), and `finish` keeps the environment. -/
theorem commandsLeaveTheHostAlone : Obligations.CommandsLeaveTheHostAlone := by
  intro i s t h
  obtain ⟨s', c, rfl, hw, -⟩ := exec_next h
  exact ⟨hw.inputs, hw.hostData⟩

/-! ## Host reads -/

theorem hostReadReg_of_value {s : State} {n : Byte} {v : BitVec 64} (h : s.readReg n = .value v) :
    hostReadReg n s = .next (s.answer v) := by simp only [hostReadReg, h]

theorem hostReadReg_of_unwritten {s : State} {n : Byte} (h : s.readReg n = .unwritten) :
    hostReadReg n s = .fault .unwrittenRead := by simp only [hostReadReg, h]

theorem hostReadReg_of_reserved {s : State} {n : Byte} (h : s.readReg n = .reserved) :
    hostReadReg n s = .refused (.hostProtocol .reservedRegister) := by simp only [hostReadReg, h]

/-- R22: `SNAP_*` by number, while a snapshot exists. -/
theorem State.readReg_snap {s : State} (h : s.hasSnap = true) :
    s.readReg 0x06 = .value (s.snap.v.zeroExtend 64) ∧ s.readReg 0x07 = .value (s.snap.i.zeroExtend 64) ∧
    s.readReg 0x08 = .value (s.snap.p.zeroExtend 64) ∧ s.readReg 0x09 = .value (s.snap.e.zeroExtend 64) ∧
    s.readReg 0x0A = .value (s.snap.f.zeroExtend 64) ∧ s.readReg 0x0B = .value (s.snap.pf.zeroExtend 64) ∧
    s.readReg 0x0C = .value (s.snap.alm.zeroExtend 64) := by
  simp [State.readReg, State.readSnap, h, Fields.get]

/-- R22: `DEC_*` by number, once a DECODE has been made. -/
theorem State.readReg_dec {s : State} (h : s.decWritten = true) :
    s.readReg 0x10 = .value (s.dec.v.zeroExtend 64) ∧ s.readReg 0x11 = .value (s.dec.i.zeroExtend 64) ∧
    s.readReg 0x12 = .value (s.dec.p.zeroExtend 64) ∧ s.readReg 0x13 = .value (s.dec.e.zeroExtend 64) ∧
    s.readReg 0x14 = .value (s.dec.f.zeroExtend 64) ∧ s.readReg 0x15 = .value (s.dec.pf.zeroExtend 64) ∧
    s.readReg 0x16 = .value (s.dec.alm.zeroExtend 64) := by
  simp [State.readReg, State.readDec, h, Fields.get]

/-- R22: a register of a group that nothing has written holds no value. -/
theorem State.readReg_unwritten {s : State} {n : Byte}
    (h : (s.hasSnap = false ∧ 0x06 ≤ n.toNat ∧ n.toNat ≤ 0x0C) ∨
      (s.decWritten = false ∧ 0x10 ≤ n.toNat ∧ n.toNat ≤ 0x16)) : s.readReg n = .unwritten := by
  obtain ⟨hs, hl, hu⟩ | ⟨hd, hl, hu⟩ := h
  · have hn : ∀ q, s.readSnap q = .unwritten := fun q => by simp [State.readSnap, hs]
    unfold State.readReg
    interval_cases n.toNat <;> exact hn _
  · have hn : ∀ q, s.readDec q = .unwritten := fun q => by simp [State.readDec, hd]
    unfold State.readReg
    interval_cases n.toNat <;> exact hn _

/-- R22: the reserved numbers. -/
theorem State.readReg_reserved {s : State} {n : Byte} (h : (0x0D ≤ n.toNat ∧ n.toNat ≤ 0x0F) ∨ 0x17 ≤ n.toNat) :
    s.readReg n = .reserved := by
  unfold State.readReg
  split
  case h_21 => rfl
  all_goals omega

/-- Settles O51: what the port finds at each number decides the step. -/
theorem hostRegisterReads : Obligations.HostRegisterReads := by
  refine ⟨fun s rest n h => ⟨fun v hv => ?_, fun hn => ?_, fun hn => ?_⟩, rfl, rfl, rfl, rfl, rfl, rfl, rfl⟩
  · suffices hr : s.readReg n = .value v by
      rw [step_of_input h]
      exact hostReadReg_of_value hr
    obtain ⟨rfl, rfl⟩ | ⟨rfl, rfl⟩ | ⟨rfl, rfl⟩ | ⟨rfl, rfl⟩ | ⟨rfl, rfl⟩ | ⟨rfl, rfl⟩ | ⟨hs, hv⟩ | ⟨hd, hv⟩ := hv
    · rfl
    · rfl
    · rfl
    · rfl
    · rfl
    · rfl
    · obtain ⟨hvolt, hi, hp, he, hf, hpf, halm⟩ := State.readReg_snap hs
      rcases hv with ⟨rfl, rfl⟩ | ⟨rfl, rfl⟩ | ⟨rfl, rfl⟩ | ⟨rfl, rfl⟩ | ⟨rfl, rfl⟩ | ⟨rfl, rfl⟩ | ⟨rfl, rfl⟩ <;>
        assumption
    · obtain ⟨hvolt, hi, hp, he, hf, hpf, halm⟩ := State.readReg_dec hd
      rcases hv with ⟨rfl, rfl⟩ | ⟨rfl, rfl⟩ | ⟨rfl, rfl⟩ | ⟨rfl, rfl⟩ | ⟨rfl, rfl⟩ | ⟨rfl, rfl⟩ | ⟨rfl, rfl⟩ <;>
        assumption
  · rw [step_of_input h]
    exact hostReadReg_of_unwritten (State.readReg_unwritten (s := s) hn)
  · rw [step_of_input h]
    exact hostReadReg_of_reserved (State.readReg_reserved (s := s) hn)

/-! ## FLAGS -/

/-- R24: the bits of `FLAGS`, by position. -/
theorem State.getLsbD_flags (s : State) (k : Nat) :
    s.flags.getLsbD k =
      if k = 0 then s.latch.isSome else if k = 1 then s.resultValid else if k = 2 then s.hasSnap else false := by
  simp only [State.flags, State.busy, BitVec.getLsbD_append, BitVec.getLsbD_ofBool, BitVec.getLsbD_zero]
  rcases k with _ | _ | _ | k <;> simp

/-- Settles O52: each position is one bit of the concatenation, and the five upper ones are 0. -/
theorem flagsBits : Obligations.FlagsBits := by
  intro s
  refine ⟨s.getLsbD_flags 0, s.getLsbD_flags 1, s.getLsbD_flags 2, fun k hk => ?_⟩
  rw [s.getLsbD_flags, if_neg (by omega), if_neg (by omega), if_neg (by omega)]

end Sys2Proof.Machine

/-!
PROOFS of the statements of spec/20_memory.md. The engine's micro-steps make the environment grow (`advance_grows`), a host
action changes at most what the host has read, and a RESET leaves the environment as it is; so every step makes it grow. The
host port is taken action by action: accepted, refused while the block is busy, refused outside the buffer.
-/

namespace Sys2Proof.Machine

/-! ## A step makes the environment grow -/

/-- An environment with the same history and the same largest sample, whatever its scripts, has grown by nothing. -/
theorem Env.Grows.of_sameHistory {e e' : Env} (hh : e'.history = e.history) (hl : e'.lastNow = e.lastNow) :
    Env.Grows e e' := by
  refine ⟨⟨[], by simp [hh]⟩, by rw [hl]; exact BitVec.le_refl _, fun h => ?_⟩
  unfold Env.clockOk
  rw [hh, hl]
  exact h

theorem advanceFor_grows {k : Nat} {i : Instr} {p : Phase} {s s' : State} {o : Option Phase}
    (h : advanceFor k i p s = .ok (s', o)) : Env.Grows s.env s'.env := by
  have := advanceFor_induction (P := fun _ x => Env.Grows s.env x.env) (Q := fun x => Env.Grows s.env x.env)
    (fun _ _ _ _ hg ha => hg.trans (advance_grows ha)) (fun _ _ _ hg ha => hg.trans (advance_grows ha))
    k p s s' o (.refl _) h
  cases o <;> exact this

/-- The engine makes the environment grow however many micro-steps it makes before it stops. -/
theorem settle_grows {k : Nat} {i : Instr} {p : Phase} {s t : State} (h : settle (advanceFor k i p s) = .next t) :
    Env.Grows s.env t.env := by
  rcases ha : advanceFor k i p s with f | ⟨s', _ | p'⟩ <;> rw [ha] at h <;> cases h
  · exact advanceFor_grows ha
  · have hg : Env.Grows s.env s'.env := advanceFor_grows ha
    exact hg

theorem runEngine_grows {s t : State} (h : runEngine s = .next t) : Env.Grows s.env t.env := by
  unfold runEngine at h
  split at h
  · cases h; exact .refl _
  · next c _ =>
    cases hd : decode c.word with
    | error e => simp only [runCommand, hd] at h; cases h; exact .refl _
    | ok i => rw [runCommand_eq_resumeCommand hd] at h; exact settle_grows h

theorem tickEngine_grows {s t : State} (h : tickEngine s = .next t) : Env.Grows s.env t.env := by
  unfold tickEngine at h
  split at h
  · cases h; exact .refl _
  · next c _ =>
    cases hd : decode c.word with
    | error e => simp only [tickCommand, hd] at h; cases h; exact .refl _
    | ok i => rw [tickCommand_eq_settle hd] at h; exact settle_grows h

/-- A host action changes nothing of the environment but what the host has read last. -/
theorem hostAct_env {a : HostAction} {s t : State} (h : hostAct a s = .next t) :
    t.env = { s.env with hostData := t.env.hostData } := by
  cases a with
  | issue w =>
    simp only [hostAct, hostIssue] at h
    split at h <;> cases h
    rfl
  | readReg n =>
    simp only [hostAct, hostReadReg] at h
    split at h <;> cases h
    rfl
  | writeBuf k b =>
    simp only [hostAct, hostWriteBuf] at h
    split_ifs at h
    cases h
    rfl
  | readBuf k =>
    simp only [hostAct, hostReadBuf] at h
    split_ifs at h
    split at h <;> cases h
    rfl

theorem hostAct_grows {a : HostAction} {s t : State} (h : hostAct a s = .next t) : Env.Grows s.env t.env := by
  have he := hostAct_env h
  exact .of_sameHistory (by rw [he]) (by rw [he])

theorem applyInput_grows {x : Input} {s t : State} (h : applyInput x s = .next t) : Env.Grows s.env t.env := by
  cases x with
  | host a => exact hostAct_grows h
  | reset => cases h; exact .refl _
  | tick => exact tickEngine_grows h
  | wait => exact runEngine_grows h

/-- R62, R144: every step makes the environment grow. -/
theorem step_grows {s t : State} (h : step s = .next t) : Env.Grows s.env t.env := by
  unfold step at h
  split at h
  · exact runEngine_grows h
  · have hpop : Env.Grows s.env s.popInput.env := .of_sameHistory rfl rfl
    exact hpop.trans (applyInput_grows h)

/-- Settles O57: the events are one part of the growth of the environment (`step_grows`). -/
theorem everyStepOnlyAddsEvents : Obligations.EveryStepOnlyAddsEvents := fun _ _ h => (step_grows h).events

/-! ## The host port -/

theorem State.busy_eq_false {s : State} (h : s.latch = none) : s.busy = false := by simp [State.busy, h]

theorem State.busy_eq_true {s : State} (h : s.latch ≠ none) : s.busy = true := Option.isSome_iff_ne_none.2 h

theorem hostIssue_of_idle {s : State} (w : CommandWord) (h : s.latch = none) :
    hostIssue w s = .next { s with latch := some ⟨w, .start⟩ } := by
  simp [hostIssue, State.busy_eq_false h]

theorem hostIssue_of_busy {s : State} (w : CommandWord) (h : s.latch ≠ none) :
    hostIssue w s = .refused (.hostProtocol .issueWhileBusy) := by
  simp [hostIssue, State.busy_eq_true h]

theorem hostWriteBuf_of_idle {s : State} {k : Nat} (b : Byte) (h : s.latch = none) (hk : k < 32) :
    hostWriteBuf k b s = .next { s with hbuf := s.hbuf.write k b } := by
  simp [hostWriteBuf, State.busy_eq_false h, Config.hbufDepth, hk]

theorem hostWriteBuf_of_busy {s : State} (k : Nat) (b : Byte) (h : s.latch ≠ none) :
    hostWriteBuf k b s = .refused (.hostProtocol .bufferWhileBusy) := by
  simp [hostWriteBuf, State.busy_eq_true h]

theorem hostWriteBuf_of_outside {s : State} {k : Nat} (b : Byte) (h : s.latch = none) (hk : 32 ≤ k) :
    hostWriteBuf k b s = .refused (.hostProtocol .bufferIndex) := by
  simp [hostWriteBuf, State.busy_eq_false h, Config.hbufDepth, Nat.not_lt.2 hk]

theorem hostReadBuf_of_written {s : State} {k : Nat} {b : Byte} (h : s.latch = none) (hk : k < 32)
    (hb : s.hbuf.read k = some b) : hostReadBuf k s = .next (s.answer (b.zeroExtend 64)) := by
  simp [hostReadBuf, State.busy_eq_false h, Config.hbufDepth, hk, hb]

theorem hostReadBuf_of_unwritten {s : State} {k : Nat} (h : s.latch = none) (hk : k < 32)
    (hb : s.hbuf.read k = none) : hostReadBuf k s = .fault .unwrittenRead := by
  simp [hostReadBuf, State.busy_eq_false h, Config.hbufDepth, hk, hb]

theorem hostReadBuf_of_busy {s : State} (k : Nat) (h : s.latch ≠ none) :
    hostReadBuf k s = .refused (.hostProtocol .bufferWhileBusy) := by
  simp [hostReadBuf, State.busy_eq_true h]

theorem hostReadBuf_of_outside {s : State} {k : Nat} (h : s.latch = none) (hk : 32 ≤ k) :
    hostReadBuf k s = .refused (.hostProtocol .bufferIndex) := by
  simp [hostReadBuf, State.busy_eq_false h, Config.hbufDepth, Nat.not_lt.2 hk]

/-- Settles O50: what the port does with each action decides the step. -/
theorem hostPortActions : Obligations.HostPortActions := by
  intro s rest
  refine ⟨fun w h => ?_, fun k b h => ?_, fun k h => ?_⟩ <;> rw [step_of_input h]
  · exact ⟨fun hl => hostIssue_of_idle w hl, fun hl => hostIssue_of_busy w hl⟩
  · exact ⟨fun hl hk => ⟨_, hostWriteBuf_of_idle b hl hk, rfl, s.hbuf.read_write_same k b,
        fun _ hj => s.hbuf.read_write_other b hj⟩,
      fun hl => hostWriteBuf_of_busy k b hl, fun hl hk => hostWriteBuf_of_outside b hl hk⟩
  · exact ⟨fun _ hl hk hb => hostReadBuf_of_written hl hk hb, fun hl hk hb => hostReadBuf_of_unwritten hl hk hb,
      fun hl => hostReadBuf_of_busy k hl, fun hl hk => hostReadBuf_of_outside hl hk⟩

end Sys2Proof.Machine

/-!
PROOFS of the statements of spec/30_encoding.md. A command word is taken bit by bit once (`getLsbD_commandWord`); from that
every field is read back, and decoding sees the operands. What a word outside the map does follows from which words decode.
For the length bounds, staging never changes a record's code, so the status of a command is the code of its exchange.
-/

namespace Sys2Proof.Machine

/-! ## The bits of a command word -/

/-- R88: bit `k` of a command word is a bit of the field that `k` lies in (R71). -/
theorem getLsbD_commandWord (op a f : Byte) (b c : Half) (v o : Bool) (k : Nat) :
    (commandWord op a f b c v o).getLsbD k =
      if k < 8 then op.getLsbD k
      else if k < 16 then a.getLsbD (k - 8)
      else if k < 24 then f.getLsbD (k - 16)
      else if k < 40 then b.getLsbD (k - 24)
      else if k < 56 then c.getLsbD (k - 40)
      else if k = 56 then v
      else if k = 57 then o
      else false := by
  simp only [commandWord, BitVec.getLsbD_or, BitVec.getLsbD_shiftLeft, BitVec.truncate_eq_setWidth,
    BitVec.getLsbD_setWidth, BitVec.getLsbD_ofBool]
  grind

theorem extractLsb'_eq_of_bits {n start len : Nat} {w : BitVec n} {x : BitVec len}
    (h : ∀ k < len, w.getLsbD (start + k) = x.getLsbD k) : w.extractLsb' start len = x := by
  apply BitVec.eq_of_getLsbD_eq
  intro k hk
  simpa [hk] using h k hk

/-- R72: a field of one bit is 1 exactly if that bit is set. -/
theorem extractLsb'_one_beq {n : Nat} (w : BitVec n) (k : Nat) : (w.extractLsb' k 1 == 1#1) = w.getLsbD k := by
  have h : w.extractLsb' k 1 = BitVec.ofBool (w.getLsbD k) := extractLsb'_eq_of_bits (by simp)
  rw [h]
  cases w.getLsbD k <;> rfl

theorem fieldV_eq (w : CommandWord) : fieldV w = w.getLsbD 56 := extractLsb'_one_beq w 56

theorem fieldO_eq (w : CommandWord) : fieldO w = w.getLsbD 57 := extractLsb'_one_beq w 57

/-- R73: without a reserved bit, no bit from 58 on is set. -/
theorem getLsbD_of_fieldReserved {w : CommandWord} (h : fieldReserved w = 0#6) {k : Nat} (hk : 58 ≤ k) :
    w.getLsbD k = false := by
  obtain ⟨j, rfl⟩ := Nat.exists_eq_add_of_le hk
  have hj : (fieldReserved w).getLsbD j = false := by simp [h]
  rw [fieldReserved, BitVec.getLsbD_extractLsb'] at hj
  grind

/-! ## The fields of a command word -/

section
variable (op a f : Byte) (b c : Half) (v o : Bool)

@[simp] theorem fieldOp_commandWord : fieldOp (commandWord op a f b c v o) = op :=
  extractLsb'_eq_of_bits fun k hk => by grind [getLsbD_commandWord]

@[simp] theorem fieldA_commandWord : fieldA (commandWord op a f b c v o) = a :=
  extractLsb'_eq_of_bits fun k hk => by grind [getLsbD_commandWord]

@[simp] theorem fieldF_commandWord : fieldF (commandWord op a f b c v o) = f :=
  extractLsb'_eq_of_bits fun k hk => by grind [getLsbD_commandWord]

@[simp] theorem fieldB_commandWord : fieldB (commandWord op a f b c v o) = b :=
  extractLsb'_eq_of_bits fun k hk => by grind [getLsbD_commandWord]

@[simp] theorem fieldC_commandWord : fieldC (commandWord op a f b c v o) = c :=
  extractLsb'_eq_of_bits fun k hk => by grind [getLsbD_commandWord]

@[simp] theorem fieldV_commandWord : fieldV (commandWord op a f b c v o) = v := by
  rw [fieldV_eq, getLsbD_commandWord]
  rfl

@[simp] theorem fieldO_commandWord : fieldO (commandWord op a f b c v o) = o := by
  rw [fieldO_eq, getLsbD_commandWord]
  rfl

@[simp] theorem fieldReserved_commandWord : fieldReserved (commandWord op a f b c v o) = 0#6 :=
  extractLsb'_eq_of_bits fun k hk => by grind [getLsbD_commandWord]

end

/-- Each bit of a word without a reserved bit is a bit of one of its fields. -/
theorem commandWord_fields {w : CommandWord} (h : fieldReserved w = 0#6) :
    commandWord (fieldOp w) (fieldA w) (fieldF w) (fieldB w) (fieldC w) (fieldV w) (fieldO w) = w := by
  apply BitVec.eq_of_getLsbD_eq
  intro k _
  have hk := getLsbD_of_fieldReserved h (k := k)
  simp only [getLsbD_commandWord, fieldOp, fieldA, fieldF, fieldB, fieldC, fieldV_eq, fieldO_eq,
    BitVec.getLsbD_extractLsb']
  grind

/-- Settles O2: each field is read back, and a word is put together again from its fields. -/
theorem commandWordIsItsFields : Obligations.CommandWordIsItsFields :=
  ⟨by simp, fun _ => commandWord_fields⟩

/-! ## Decoding -/

/-- Settles O1: `encode` puts each operand in the field from which `decode` reads it. -/
theorem decodeOfEncodeIsTheCommand : Obligations.DecodeOfEncodeIsTheCommand := by
  intro i
  cases i <;> simp [encode, opcode, decode]

/-- Settles O3: in each row `decode` reads the fields the row lists and no others. -/
theorem everyRowIgnoresItsUnusedFields : Obligations.EveryRowIgnoresItsUnusedFields := by
  intro a f b c v o
  simp [decode]

/-- Settles O4. -/
theorem sampleWordsDecode : Obligations.SampleWordsDecode := ⟨rfl, rfl, rfl, rfl, rfl, rfl, rfl, rfl⟩

/-- Settles O5: a row of `decode` fixes the `OP`, and the last alternative is left for the values of no row. -/
theorem decodableWordsAreTheMap : Obligations.DecodableWordsAreTheMap := by
  intro w
  unfold decode
  split
  case isTrue hr => simp [hr]
  case isFalse hr =>
    simp only [not_not.1 hr, true_and]
    split
    case h_21 =>
      simp only [reduceCtorEq, exists_false, false_iff]
      grind
    all_goals
      next hop => simp [hop]

/-- R73, R76: a reserved bit, or an `OP` outside the map, selects no command. -/
theorem decode_of_illegal {w : CommandWord}
    (h : fieldReserved w ≠ 0#6 ∨ (fieldOp w).toNat = 0x00 ∨
      (0x0D ≤ (fieldOp w).toNat ∧ (fieldOp w).toNat ≤ 0x0F) ∨ 0x18 ≤ (fieldOp w).toNat) :
    ∃ e, decode w = .error e := by
  cases hd : decode w with
  | error e => exact ⟨e, rfl⟩
  | ok i =>
    obtain ⟨hr, hop⟩ := (decodableWordsAreTheMap w).1 ⟨i, hd⟩
    simp only [hr, ne_eq, not_true, false_or] at h
    omega

/-- R225: the engine ends a word that selects no command with `STATUS` alone. -/
theorem runEngine_illegal {s : State} {w : CommandWord} {p : Phase} {e : DecodeError} (hl : s.latch = some ⟨w, p⟩)
    (hd : decode w = .error e) : runEngine s = .next { s with status := .illegalCommand, latch := none } := by
  simp only [runEngine, hl, runCommand, hd, State.finish_illegal]

/-- Settles O6: such a word does not decode. -/
theorem illegalWordsCompleteAtOnce : Obligations.IllegalWordsCompleteAtOnce := by
  refine ⟨fun s w hl h => ?_, rfl⟩
  obtain ⟨e, hd⟩ := decode_of_illegal h
  exact runEngine_illegal hl hd

/-! ## The code of a record -/

theorem Commit.stage_status (c : Commit) (w : Write) : (c.stage w).status = c.status := by
  cases w <;> rfl

theorem Commit.foldl_stage_status (c : Commit) (writes : List Write) :
    (writes.foldl Commit.stage c).status = c.status := by
  induction writes generalizing c with
  | nil => rfl
  | cons w writes ih => rw [List.foldl_cons, ih, Commit.stage_status]

@[simp] theorem Commit.of_status (code : Status) (writes : List Write) : (Commit.of code writes).status = code :=
  Commit.foldl_stage_status _ _

/-! ## Where `ILLEGAL_COMMAND` comes from -/

theorem receive_ne_illegal (n : Nat) (t : Half) (s : State) : (receive n t s).2.code ≠ .illegalCommand := by
  rcases receive_code n t s with h | h | h <;> simp [h]

theorem sentStatus_ne_illegal (a : TxAnswer) : sentStatus a ≠ .illegalCommand := by
  cases a <;> exact nofun

theorem verifiedExchange_ne_illegal (frame : List Byte) (s : State) :
    (verifiedExchange frame s).2 ≠ .illegalCommand := by
  rcases verifiedExchange_status frame s with h | h | h | h <;> simp [h]

theorem resetExchange_ne_illegal (s : State) : (resetExchange s).2 ≠ .illegalCommand := by
  rcases resetExchange_status s with h | h | h | h <;> simp [h]

theorem updateValues_ne_illegal (s : State) : (updateValues s).2.code ≠ .illegalCommand := by
  rcases updateValues_status s with h | ⟨h | h, -⟩ <;> simp [h]

/-- R77: a length over its bound ends the command before any other effect. -/
theorem exec_of_illFormed {i : Instr} (h : i.wellFormed = false) (s : State) :
    exec i s = .next (s.finish illegal) := by
  cases i with
  | crc16 len =>
    have hl : lengthOk len Config.hbufDepth = false := h
    simp [exec, execCrc16, crc16Commit, hl, complete]
  | validate len =>
    have hl : lengthOk len Config.hbufDepth = false := h
    simp [exec, execValidate, validateCommit, hl, complete]
  | receive len timeout =>
    have hl : lengthOk len Config.rxDepth = false := h
    simp [exec, execReceive, hl]
  | _ => cases h

/-- R77: no other operand value ends a command with `ILLEGAL_COMMAND`. -/
theorem exec_status_ne_illegal {i : Instr} {s t : State} (hw : i.wellFormed = true) (h : exec i s = .next t) :
    t.status ≠ .illegalCommand := by
  cases i with
  | crc16 len =>
    have hl : lengthOk len Config.hbufDepth = true := hw
    simp only [exec, execCrc16, crc16Commit, hl, if_true] at h
    split at h <;> cases h
    simp
  | validate len =>
    have hl : lengthOk len Config.hbufDepth = true := hw
    simp only [exec, execValidate, validateCommit, hl, if_true] at h
    split_ifs at h
    · cases h
      simp
    · split at h <;> cases h
      simp
  | encode8 | encode4 => cases h; exact nofun
  | receive len timeout =>
    have hl : lengthOk len Config.rxDepth = true := hw
    simp only [exec, execReceive, hl, if_true] at h
    cases h
    simp [receiveCommit, receive_ne_illegal]
  | sendRead fc reg count verify override addr =>
    cases verify <;> cases h
    · exact sentStatus_ne_illegal _
    · exact verifiedExchange_ne_illegal _ _
  | writeReg | setPowerAlarm => cases h; exact verifiedExchange_ne_illegal _ _
  | setAddress addr =>
    simp only [exec, execSetAddress] at h
    split_ifs at h <;> cases h
    · simp [setAddressCommit, verifiedExchange_ne_illegal]
    · exact nofun
  | resetEnergy => cases h; exact resetExchange_ne_illegal s
  | decode =>
    simp only [exec, execDecode, decodeCommit] at h
    split at h <;> cases h
    simp
  | updateValues => cases h; simp [updateCommit, updateValues_ne_illegal]
  | readVoltage | readCurrent | readPower | readEnergy | readFrequency | readPf | readAlarms | getPowerAlarm =>
    cases h
    simp [readCommit, alarmCommit, updateValues_ne_illegal]

/-- Settles O7: a length over 32 makes the command ill formed, and no well-formed command ends so. -/
theorem onlyLengthsOverTheBoundAreIllegal : Obligations.OnlyLengthsOverTheBoundAreIllegal := by
  refine ⟨fun s len hl => ?_, fun i s t hw h => exec_status_ne_illegal hw h⟩
  rw [← State.finish_illegal]
  have hlen : decide (len.toNat ≤ 32) = false := decide_eq_false (Nat.not_le.2 hl)
  exact ⟨exec_of_illFormed (i := .crc16 len) hlen s, exec_of_illFormed (i := .validate len) hlen s,
    fun t => exec_of_illFormed (i := .receive len t) hlen s⟩

/-! ## The assembler and the frames -/

/-- Settles O8: the assembler run on each line. -/
theorem assemblerLinesAreTheCommands : Obligations.AssemblerLinesAreTheCommands := by
  unfold Obligations.AssemblerLinesAreTheCommands
  decide

/-- Settles O14: `highByte` and `lowByte` are the two halves of R84. -/
theorem frameBytesAreAtTheirPositions : Obligations.FrameBytesAreAtTheirPositions :=
  ⟨fun _ _ _ _ => rfl, fun _ _ => rfl⟩

end Sys2Proof.Machine

/-!
PROOFS of the statements of spec/40_crc.md. A shift of the polynomial is linear in the XOR, so eight shifts of a CRC are eight
of its low byte, which the table lists, and its high byte moved down. A byte equal to the low byte of the CRC makes the table
index 0, so the CRC's own two bytes shift it out. CRC16 and VALIDATE finish the state they start from, with `STATUS` and
`RESULT` alone.
-/

namespace Sys2Proof.Machine

/-! ## The bytes of a CRC -/

theorem getLsbD_lowByte (c : Half) (k : Nat) : (lowByte c).getLsbD k = (decide (k < 8) && c.getLsbD k) := by
  simp only [lowByte, BitVec.getLsbD_extractLsb', Nat.zero_add]

theorem getLsbD_zeroExtend_byte (b : Byte) (k : Nat) : (b.zeroExtend 16).getLsbD k = b.getLsbD k := by
  rw [BitVec.getLsbD_setWidth]
  grind

/-- The bits over the low byte, and the low byte. -/
theorem xor_lowByte (c : Half) : (c >>> 8) <<< 8 ^^^ (lowByte c).zeroExtend 16 = c := by
  apply BitVec.eq_of_getLsbD_eq
  grind [getLsbD_lowByte, getLsbD_zeroExtend_byte]

theorem lowByte_xor_lowByte (c : Half) : lowByte (c ^^^ (lowByte c).zeroExtend 16) = 0 := by
  apply extractLsb'_eq_of_bits
  grind [getLsbD_lowByte, getLsbD_zeroExtend_byte]

theorem zeroExtend_byte_ushiftRight (b : Byte) : b.zeroExtend 16 >>> 8 = 0#16 := by
  apply BitVec.eq_of_getLsbD_eq
  grind [getLsbD_zeroExtend_byte]

theorem highByte_eq_lowByte (c : Half) : highByte c = lowByte (c >>> 8) := by
  apply extractLsb'_eq_of_bits
  grind [getLsbD_lowByte]

/-- R84: a CRC is its two bytes, low byte first. -/
theorem crcBytes_eq_iff {c : Half} {l h : Byte} : [l, h] = crcBytes c ↔ c = h ++ l := by
  constructor
  · intro e
    obtain ⟨rfl, rfl⟩ : l = lowByte c ∧ h = highByte c := by simpa [crcBytes] using e
    apply BitVec.eq_of_getLsbD_eq
    grind [getLsbD_append_bytes, getLsbD_lowByte, highByte_eq_lowByte]
  · rintro rfl
    have hl : lowByte (h ++ l) = l := BitVec.extractLsb'_append_eq_right
    have hh : highByte (h ++ l) = h := BitVec.extractLsb'_append_eq_left
    rw [crcBytes, hl, hh]

/-! ## The table and the bitwise form -/

/-- Settles O9: every index evaluated. -/
theorem crcTableEntriesAreEightShifts : Obligations.CrcTableEntriesAreEightShifts := by
  unfold Obligations.CrcTableEntriesAreEightShifts
  decide

/-- R100: the polynomial is added exactly if the bit shifted out is set. -/
theorem crcShift_eq (c : Half) : crcShift c = (c >>> 1) ^^^ (if c.getLsbD 0 then Config.crcPoly else 0) := by
  have hbit : c &&& 1 = 1 ↔ c.getLsbD 0 = true := by
    rw [show (1 : Half) = BitVec.twoPow 16 0 from rfl, BitVec.and_twoPow]
    cases c.getLsbD 0 <;> decide
  simp only [crcShift, hbit]
  split <;> simp

theorem crcShift_xor (c d : Half) : crcShift (c ^^^ d) = crcShift c ^^^ crcShift d := by
  have hpoly (a b : Bool) : (if (a ^^ b) then Config.crcPoly else 0) =
      (if a then Config.crcPoly else 0) ^^^ (if b then Config.crcPoly else 0) := by
    revert a b
    decide
  simp only [crcShift_eq, BitVec.ushiftRight_xor_distrib, BitVec.getLsbD_xor, hpoly]
  ac_rfl

theorem crcShift8_xor (c d : Half) : crcShift8 (c ^^^ d) = crcShift8 c ^^^ crcShift8 d := by
  simp only [crcShift8, crcShift_xor]

/-- Shifts that shift out zeros alone add no polynomial. -/
theorem crcShift_iterate_of_low_zero {c : Half} {n : Nat} (h : ∀ k < n, c.getLsbD k = false) :
    crcShift^[n] c = c >>> n := by
  induction n with
  | zero => simp
  | succ n ih =>
    have hn : (c >>> n).getLsbD 0 = false := by simpa using h n n.lt_succ_self
    rw [Function.iterate_succ_apply', ih fun k hk => h k (by omega), crcShift_eq, hn]
    simp [BitVec.shiftRight_add]

/-- The bits over the low byte are moved down unchanged. -/
theorem crcShift8_high (c : Half) : crcShift8 ((c >>> 8) <<< 8) = c >>> 8 := by
  have hshift : crcShift8 ((c >>> 8) <<< 8) = ((c >>> 8) <<< 8) >>> 8 :=
    crcShift_iterate_of_low_zero (n := 8) (by grind)
  rw [hshift]
  apply BitVec.eq_of_getLsbD_eq
  grind

/-- R102, R103: eight shifts move the high byte down and make of the low byte what the table holds. -/
theorem crcShift8_eq_entry (c : Half) : crcShift8 c = (c >>> 8) ^^^ crcEntry (lowByte c) :=
  calc crcShift8 c = crcShift8 ((c >>> 8) <<< 8 ^^^ (lowByte c).zeroExtend 16) := by rw [xor_lowByte]
    _ = crcShift8 ((c >>> 8) <<< 8) ^^^ crcShift8 ((lowByte c).zeroExtend 16) := crcShift8_xor _ _
    _ = (c >>> 8) ^^^ crcEntry (lowByte c) := by rw [crcShift8_high, crcTableEntriesAreEightShifts]

/-- One byte, in the table form and in the bitwise form. -/
theorem crcStep_eq_crcShift8 (c : Half) (b : Byte) : crcStep c b = crcShift8 (c ^^^ b.zeroExtend 16) := by
  rw [crcShift8_eq_entry, BitVec.ushiftRight_xor_distrib, zeroExtend_byte_ushiftRight, BitVec.xor_zero, crcStep]

/-- Settles O10: the two forms take each byte alike. -/
theorem tableCrcIsTheBitwiseCrc : Obligations.TableCrcIsTheBitwiseCrc := by
  intro bytes
  simp only [crc16, crc16Bitwise, ← crcStep_eq_crcShift8]

/-! ## A sequence followed by its CRC -/

theorem crcStep_lowByte (c : Half) : crcStep c (lowByte c) = c >>> 8 := by
  have hentry : crcEntry 0 = 0#16 := rfl
  rw [crcStep, lowByte_xor_lowByte, hentry, BitVec.xor_zero]

theorem foldl_crcStep_crcBytes (c : Half) : (crcBytes c).foldl crcStep c = 0 :=
  calc (crcBytes c).foldl crcStep c = crcStep (crcStep c (lowByte c)) (highByte c) := rfl
    _ = c >>> 8 >>> 8 := by rw [crcStep_lowByte, highByte_eq_lowByte, crcStep_lowByte]
    _ = 0 := by rw [← BitVec.shiftRight_add]; exact BitVec.ushiftRight_eq_zero (by decide)

/-- R107: the residue. -/
theorem crc16_append_crcBytes (bytes : List Byte) : crc16 (bytes ++ crcBytes (crc16 bytes)) = 0 := by
  rw [crc16, List.foldl_append]
  exact foldl_crcStep_crcBytes (crc16 bytes)

/-- R105, of a body and the two bytes after it. -/
theorem validate_append {body : List Byte} {l h : Byte} :
    validate (body ++ [l, h]) = true ↔ body ≠ [] ∧ crc16 body = h ++ l := by
  rw [← crcBytes_eq_iff]
  cases body <;> simp [validate]

/-- Settles O11: the two bytes of a CRC join to it again, and shift it out. -/
theorem bytesWithTheirCrcValidate : Obligations.BytesWithTheirCrcValidate :=
  ⟨fun _ hne => validate_append.2 ⟨hne, crcBytes_eq_iff.1 rfl⟩, crc16_append_crcBytes⟩

/-- Settles O12: a buffer of more than two bytes is a body and two bytes after it. -/
theorem validateComparesTheTrailingCrc : Obligations.ValidateComparesTheTrailingCrc := by
  intro buf
  by_cases hlen : 2 < buf.length
  · obtain ⟨l, h, htail⟩ : ∃ l h, buf.drop (buf.length - 2) = [l, h] :=
      List.length_eq_two.1 (by rw [List.length_drop]; omega)
    obtain ⟨body, rfl⟩ : ∃ body, buf = body ++ [l, h] :=
      ⟨_, by rw [← htail, List.take_append_drop]⟩
    rw [validate_append, ← List.length_pos_iff]
    simp
  · simp [validate, hlen, Nat.not_lt.1 hlen]

/-! ## CRC16 and VALIDATE -/

/-- What a command that stages at most `RESULT` leaves. -/
theorem State.finish_statusResult (s : State) (code : Status) (r : Option Word) :
    s.finish { status := code, result := r } =
      { s with status := code, result := r.getD s.result, latch := none } := by
  simp [State.finish, Memory.writeBytes]

theorem lengthOk_hbufDepth {len : Half} (hl : len.toNat ≤ 32) : lengthOk len Config.hbufDepth = true :=
  decide_eq_true hl

theorem toNat_ofNat_length {bytes : List Byte} (hl : bytes.length ≤ 32) :
    (BitVec.ofNat 16 bytes.length).toNat = bytes.length :=
  Nat.mod_eq_of_lt (by omega)

theorem Memory.readBytes_of_holds {m : Memory} {bytes : List Byte} (h : m.holds 0 bytes) :
    m.readBytes 0 bytes.length = some bytes :=
  Memory.readBytes_eq_some.2 ⟨rfl, h⟩

theorem Memory.readBytes_of_unwritten {m : Memory} {n : Nat} (h : ∃ k, k < n ∧ m.read k = none) :
    m.readBytes 0 n = none := by
  simpa [Memory.readBytes_eq_none] using h

/-- Settles O15: `MemRead` returns the bytes held, or meets one never written; O7 has the length over 32. -/
theorem crc16ReportsTheCrcOfHbuf : Obligations.Crc16ReportsTheCrcOfHbuf := by
  refine ⟨fun s bytes hl hh => ?_, fun s len hl hu => ?_, fun s len hl => ?_⟩
  · have hlen := toNat_ofNat_length hl
    have hok := lengthOk_hbufDepth (hlen.trans_le hl)
    simp only [exec, execCrc16, crc16Commit, hok, hlen, Memory.readBytes_of_holds hh, if_true, complete,
      crc16Writes_commit, State.finish_statusResult, Option.getD_some]
  · simp only [exec, execCrc16, crc16Commit, lengthOk_hbufDepth hl, Memory.readBytes_of_unwritten hu, if_true, complete]
  · obtain ⟨hillegal, -⟩ := onlyLengthsOverTheBoundAreIllegal.1 s len hl
    exact hillegal

/-- Settles O16: as CRC16, but for the length up to 2, which comes before the read. -/
theorem validateReportsTheVerdictOnHbuf : Obligations.ValidateReportsTheVerdictOnHbuf := by
  refine ⟨fun s len hl => ?_, fun s bytes hgt hl hh => ?_, fun s len hgt hl hu => ?_, fun s len hl => ?_⟩
  · have hok := lengthOk_hbufDepth (hl.trans (by decide : 2 ≤ 32))
    simp only [exec, execValidate, validateCommit, hok, hl, if_true, complete, validateWrites_commit,
      State.finish_statusResult, Option.getD_some, Bool.false_eq_true, if_false]
  · have hlen := toNat_ofNat_length hl
    have hok := lengthOk_hbufDepth (hlen.trans_le hl)
    simp only [exec, execValidate, validateCommit, hok, hlen, Nat.not_le.2 hgt, Memory.readBytes_of_holds hh, if_true,
      if_false, complete, validateWrites_commit, State.finish_statusResult, Option.getD_some]
  · simp only [exec, execValidate, validateCommit, lengthOk_hbufDepth hl, Nat.not_le.2 hgt,
      Memory.readBytes_of_unwritten hu, if_true, if_false, complete]
  · obtain ⟨-, hillegal, -⟩ := onlyLengthsOverTheBoundAreIllegal.1 s len hl
    exact hillegal

/-- A completion without the environment finishes the state it starts from. -/
theorem complete_next {r : Except Fault Commit} {s t : State} (h : complete r s = .next t) :
    ∃ c, r = .ok c ∧ t = s.finish c := by
  cases r with
  | ok c => cases h; exact ⟨c, rfl, rfl⟩
  | error f => cases h

theorem crc16Commit_writes {len : Half} {s : State} {c : Commit} (h : crc16Commit len s = .ok c) :
    c = { status := c.status, result := c.result } := by
  unfold crc16Commit at h
  split at h
  · split at h <;> cases h
    rfl
  · cases h
    rfl

theorem validateCommit_writes {len : Half} {s : State} {c : Commit} (h : validateCommit len s = .ok c) :
    c = { status := c.status, result := c.result } := by
  unfold validateCommit at h
  split at h
  · split at h
    · cases h
      rfl
    · split at h <;> cases h
      rfl
  · cases h
    rfl

/-- Settles O42: both commands complete from the state they start in, and stage no register but `RESULT`. -/
theorem hbufReadersWriteResultOnly : Obligations.HbufReadersWriteResultOnly := by
  intro i s t hi hnext
  obtain ⟨c, hc, rfl⟩ : ∃ c : Commit, c = { status := c.status, result := c.result } ∧ t = s.finish c := by
    obtain ⟨len, rfl | rfl⟩ := hi
    · obtain ⟨c, hr, ht⟩ := complete_next (r := crc16Commit len s) hnext
      exact ⟨c, crc16Commit_writes hr, ht⟩
    · obtain ⟨c, hr, ht⟩ := complete_next (r := validateCommit len s) hnext
      exact ⟨c, validateCommit_writes hr, ht⟩
  rw [hc, State.finish_statusResult]
  exact ⟨rfl, fun _ => rfl⟩

end Sys2Proof.Machine

/-!
PROOFS of the statements of spec/41_frame_codec.md. A frame is a body that is not empty and the CRC of that body, so it
validates. ENCODE8 and ENCODE4 finish the state they start from with the writes of `encodeWrites`; what that finish leaves is
said once, for any frame.
-/

namespace Sys2Proof.Machine

/-- Settles O13: a frame is the two bytes of its body's CRC after a body that is not empty (R107). -/
theorem encodedFramesValidate : Obligations.EncodedFramesValidate := by
  obtain ⟨bodyWithItsCrcValidates, -⟩ := bytesWithTheirCrcValidate
  exact ⟨fun _ _ _ _ => bodyWithItsCrcValidates _ (List.cons_ne_nil _ _),
    fun _ _ => bodyWithItsCrcValidates _ (List.cons_ne_nil _ _)⟩

/-! ## ENCODE8 and ENCODE4 -/

theorem exec_encode8 (addr fc : Byte) (reg value : Half) (s : State) :
    exec (.encode8 addr fc reg value) s = .next (s.finish (.of .ok (encodeWrites (frame8 addr fc reg value)))) := rfl

theorem exec_encode4 (addr fc : Byte) (s : State) :
    exec (.encode4 addr fc) s = .next (s.finish (.of .ok (encodeWrites (frame4 addr fc)))) := rfl

/-- `MemWrite` leaves every byte after its range as it was. -/
theorem Memory.read_writeBytes_of_le (m : Memory) {i j : Nat} {bs : List Byte} (h : i + bs.length ≤ j) :
    (m.writeBytes i bs).read j = m.read j := by
  rw [Memory.read_writeBytes, dif_neg (by omega)]

/-- What a command that stages a frame leaves (R121, R123). -/
theorem State.finish_encodeWrites (s : State) (code : Status) (frame : List Byte) :
    s.finish (.of code (encodeWrites frame)) =
      { s with
        status := code, hlen := BitVec.ofNat 8 frame.length, hbuf := s.hbuf.writeBytes 0 frame, latch := none } := by
  simp [State.finish, Commit.of, encodeWrites, Commit.stage]

/-- R121, R123: a command that finishes with the writes of an encoder, and the host buffer it leaves. -/
theorem exec_putsFrame {i : Instr} {s : State} {frame : List Byte}
    (h : exec i s = .next (s.finish (.of .ok (encodeWrites frame)))) :
    ∃ t, exec i s = .next t ∧
      t = { s with hbuf := t.hbuf, hlen := BitVec.ofNat 8 frame.length, status := .ok, latch := none } ∧
      t.hbuf.holds 0 frame ∧ (∀ k, frame.length ≤ k → t.hbuf.read k = s.hbuf.read k) := by
  rw [State.finish_encodeWrites] at h
  exact ⟨_, h, rfl, s.hbuf.writeBytes_holds 0 frame, fun _ hk => s.hbuf.read_writeBytes_of_le (by omega)⟩

/-- Settles O17: ENCODE8 stages its frame, whose length computes to 8. -/
theorem encode8PutsTheFrameInHbuf : Obligations.Encode8PutsTheFrameInHbuf :=
  fun s addr fc reg value => exec_putsFrame (exec_encode8 addr fc reg value s)

/-- Settles O18: ENCODE4 stages its frame, whose length computes to 4. -/
theorem encode4PutsTheFrameInHbuf : Obligations.Encode4PutsTheFrameInHbuf :=
  fun s addr fc => exec_putsFrame (exec_encode4 addr fc s)

end Sys2Proof.Machine

/-!
PROOFS of the statements of spec/42_receive.md. The loop of `receive` is followed once: `LoopRun` says which events it
adds for the bytes it accumulates and for its end, and `receive_run` that every receive is such a run. How often the
Transport and the clock are called, what each read asks for and what comes back are then read off the run. What RECEIVE
leaves is said once for any result (`exec_receive`). After a failed write a command only finishes.
-/

namespace Sys2Proof.Machine

/-- Settles O56: the order of the samples is one part of the growth of the environment (`step_grows`). -/
theorem everyStepKeepsTheClockOrdered : Obligations.EveryStepKeepsTheClockOrdered :=
  fun _ _ hs h => ⟨(step_grows h).clockOk hs, (step_grows h).lastNow⟩

/-! ## The run of a receive -/

/-- R145: a read is started where fewer than `t` milliseconds have elapsed, and asks for those that remain. -/
def LeavesTime (t : Half) (elapsed ms : Time) : Prop := elapsed < t.zeroExtend 64 ∧ ms = t.zeroExtend 64 - elapsed

theorem LeavesTime.bounds {t : Half} {elapsed ms : Time} (h : LeavesTime t elapsed ms) :
    1 ≤ ms ∧ ms ≤ t.zeroExtend 64 := by
  obtain ⟨hlt, rfl⟩ := h
  bv_omega

/-- R150: a timeout of 0 ms leaves time for no read. -/
theorem not_leavesTime_zero (elapsed ms : Time) : ¬ LeavesTime 0 elapsed ms := by
  rintro ⟨hlt, -⟩
  bv_omega

theorem State.remaining_leavesTime {s : State} {t : Half} {ms : Time} (h : s.remaining t = some ms) :
    LeavesTime t (s.now - s.rxStart) ms := by
  unfold State.remaining at h
  split_ifs at h with hle
  cases h
  exact ⟨BitVec.not_le.1 hle, rfl⟩

/-- The loop of R145 with `RX_START` at `start` and room for at most the given number of bytes: the bytes it accumulates,
how it ends, and the events it adds. -/
inductive LoopRun (t : Half) (start : Time) : Nat → List Byte → RxEnd → List Event → Prop where
  /-- The expected length has been reached. -/
  | full {more : Nat} : LoopRun t start more [] .full []
  /-- The sample finds that the overall deadline has elapsed. -/
  | deadline {more : Nat} {sample : Time} : LoopRun t start (more + 1) [] .deadline [.now sample]
  /-- The read returns no byte. -/
  | nothing {more : Nat} {sample ms : Time} (h : LeavesTime t (sample - start) ms) :
    LoopRun t start (more + 1) [] .nothing [.now sample, .rxRead ms .nothing]
  /-- The read fails. -/
  | error {more : Nat} {sample ms : Time} (h : LeavesTime t (sample - start) ms) :
    LoopRun t start (more + 1) [] .error [.now sample, .rxRead ms .err]
  /-- The read returns a byte, and the loop goes on. -/
  | byte {more : Nat} {sample ms : Time} {b : Byte} {bytes : List Byte} {ending : RxEnd} {events : List Event}
    (h : LeavesTime t (sample - start) ms) (rest : LoopRun t start more bytes ending events) :
    LoopRun t start (more + 1) (b :: bytes) ending (.now sample :: .rxRead ms (.byte b) :: events)

/-- The verdict is what is returned for the accumulated bytes at every end but an `RxErr`. -/
theorem State.verdict_eq_receivedFor (s : State) {ending : RxEnd} (h : ending ≠ .error) :
    s.verdict = receivedFor s.rxbuf ending := by
  rw [State.verdict, receivedFor, if_neg h]

/-- R145: the loop of `receive` makes such a run. -/
theorem receiveLoop_run (n : Nat) (t : Half) (more : Nat) (s : State) :
    ∃ bytes ending events, LoopRun t s.rxStart more bytes ending events ∧
      (receiveLoop n t more s).1.rxbuf = s.rxbuf ++ bytes ∧
      (receiveLoop n t more s).1.env.history = s.env.history ++ events ∧
      (receiveLoop n t more s).2 = receivedFor (s.rxbuf ++ bytes) ending := by
  induction more generalizing s with
  | zero => exact ⟨[], .full, [], .full, by simp [receiveLoop, State.verdict_eq_receivedFor s (ending := .full)]⟩
  | succ more ih =>
    simp only [receiveLoop]
    split
    · exact ⟨[], .full, [], .full, by simp [State.verdict_eq_receivedFor s (ending := .full)]⟩
    · split
      · exact ⟨[], .deadline, _, .deadline, by simp, rfl,
          by simp [State.verdict_eq_receivedFor s (ending := .deadline)]⟩
      · next ms hms =>
        have htime := State.remaining_leavesTime hms
        have hread : ∀ a, s.afterNow.rxAnswer = a →
            (s.afterNow.afterRx ms).env.history = s.env.history ++ [.now s.now, .rxRead ms a] := by
          rintro _ rfl
          simp [State.now, State.rxAnswer]
        split
        · next b ha =>
          obtain ⟨bytes, ending, events, hrun, hbuf, hhist, hret⟩ := ih ((s.afterNow.afterRx ms).pushRx b)
          refine ⟨b :: bytes, ending, _, .byte htime hrun, by simp [hbuf], ?_, by simp [hret]⟩
          rw [hhist, State.pushRx_env, hread _ ha]
          simp
        · next ha =>
          exact ⟨[], .nothing, _, .nothing htime, by simp, hread _ ha,
            by simp [State.verdict_eq_receivedFor s (ending := .nothing)]⟩
        · next ha => exact ⟨[], .error, _, .error htime, by simp, hread _ ha, rfl⟩

/-- Every receive is a run of the loop after the sample that is `RX_START`. -/
theorem receive_run (n : Nat) (t : Half) (s : State) :
    ∃ ending events, LoopRun t s.env.now n (receive n t s).1.rxbuf ending events ∧
      (receive n t s).1.env.history = s.env.history ++ .now s.env.now :: events ∧
      (receive n t s).2 = receivedFor (receive n t s).1.rxbuf ending := by
  obtain ⟨bytes, ending, events, hrun, hbuf, hhist, hret⟩ := receiveLoop_run n t n s.startRx
  obtain rfl : (receive n t s).1.rxbuf = bytes := hbuf
  exact ⟨ending, events, hrun, by simpa [receive] using hhist, hret⟩

/-! ## Bounds -/

theorem LoopRun.bytes_length_le {t : Half} {start : Time} {more : Nat} {bytes : List Byte} {ending : RxEnd}
    {events : List Event} (h : LoopRun t start more bytes ending events) : bytes.length ≤ more := by
  induction h with
  | byte _ _ ih => simpa using ih
  | _ => exact Nat.zero_le _

/-- R146, of the loop: the sample `RX_START` comes before it. -/
theorem LoopRun.bounds {t : Half} {start : Time} {more : Nat} {bytes : List Byte} {ending : RxEnd}
    {events : List Event} (h : LoopRun t start more bytes ending events) :
    events.countP Event.isByte ≤ more ∧ events.countP (fun e => e.isRx && !e.isByte) ≤ 1 ∧
      events.countP Event.isNow ≤ more := by
  induction h with
  | byte _ _ ih => simpa [List.countP_cons] using ih
  | _ => simp [List.countP_cons]

/-- Settles O21: the bounds of the loop, and one sample more. -/
theorem receiveMakesBoundedlyManyCalls : Obligations.ReceiveMakesBoundedlyManyCalls := by
  intro n t s
  obtain ⟨ending, events, hrun, hhist, -⟩ := receive_run n t s
  obtain ⟨hbyte, hother, hnow⟩ := hrun.bounds
  exact ⟨_, hhist, by simpa using hbyte, by simpa using hother, by simpa [List.countP_cons] using hnow⟩

/-! ## What a read asks for -/

/-- R145: each read of the loop follows directly on a sample that leaves time for it. -/
theorem LoopRun.read_after_sample {t : Half} {start : Time} {more : Nat} {bytes : List Byte} {ending : RxEnd}
    {events : List Event} (h : LoopRun t start more bytes ending events) {before after : List Event} {ms : Time}
    {a : RxAnswer} (he : events = before ++ .rxRead ms a :: after) :
    ∃ earlier sample, before = earlier ++ [.now sample] ∧ LeavesTime t (sample - start) ms := by
  induction h generalizing before with
  | full => rcases before with _ | ⟨_, before⟩ <;> cases he
  | deadline => rcases before with _ | ⟨_, _ | ⟨_, before⟩⟩ <;> cases he
  | nothing h | error h =>
    rcases before with _ | ⟨_, _ | ⟨_, _ | ⟨_, before⟩⟩⟩ <;> cases he
    exact ⟨[], _, rfl, h⟩
  | byte h rest ih =>
    rcases before with _ | ⟨_, _ | ⟨_, before⟩⟩ <;> cases he
    · exact ⟨[], _, rfl, h⟩
    · obtain ⟨earlier, sample, rfl, htime⟩ := ih rfl
      exact ⟨_ :: _ :: earlier, sample, rfl, htime⟩

/-- Settles O22: the sample before a read leaves time for it. -/
theorem receiveAsksForTheRemainingTime : Obligations.ReceiveAsksForTheRemainingTime := by
  intro n t s
  obtain ⟨ending, events, hrun, hhist, -⟩ := receive_run n t s
  refine ⟨events, receive_rxStart n t s, hhist, fun before after ms a he => ?_⟩
  obtain ⟨earlier, sample, hbefore, htime⟩ := hrun.read_after_sample he
  exact ⟨earlier, sample, hbefore, htime.1, htime.2, htime.bounds⟩

/-! ## What is returned -/

/-- R147, R152: the three results of a receive. -/
theorem receivedFor_cases (bytes : List Byte) (ending : RxEnd) :
    (ending = .error ∧ receivedFor bytes ending = ⟨0, .transportError⟩) ∨
      (ending ≠ .error ∧ validate bytes = true ∧ receivedFor bytes ending = ⟨bytes.length, .ok⟩) ∨
      (ending ≠ .error ∧ validate bytes = false ∧ receivedFor bytes ending = ⟨0, .rxFail⟩) := by
  unfold receivedFor
  split_ifs with he hv
  · exact .inl ⟨he, rfl⟩
  · exact .inr (.inl ⟨he, hv, rfl⟩)
  · exact .inr (.inr ⟨he, Bool.eq_false_of_not_eq_true hv, rfl⟩)

/-- R105: no sequence of two bytes or fewer validates. -/
theorem validate_of_short {bytes : List Byte} (h : bytes.length ≤ 2) : validate bytes = false := by
  rw [validate, if_pos h]

theorem three_le_of_validate {bytes : List Byte} (h : validate bytes = true) : 3 ≤ bytes.length := by
  by_contra hlt
  rw [validate_of_short (by omega)] at h
  exact absurd h Bool.false_ne_true

/-- R150: a timeout of 0 ms ends the loop before any read. -/
theorem LoopRun.of_no_time {start : Time} {more : Nat} {bytes : List Byte} {ending : RxEnd} {events : List Event}
    (h : LoopRun 0 start more bytes ending events) : bytes = [] ∧ ending ≠ .error := by
  cases h with
  | full | deadline => exact ⟨rfl, nofun⟩
  | nothing h | error h | byte h => exact absurd h (not_leavesTime_zero _ _)

theorem receive_short {n : Nat} (hn : n ≤ 2) (t : Half) (s : State) :
    (receive n t s).2 = ⟨0, .rxFail⟩ ∨ (receive n t s).2 = ⟨0, .transportError⟩ := by
  obtain ⟨ending, events, hrun, -, hret⟩ := receive_run n t s
  rw [hret]
  obtain ⟨-, hr⟩ | ⟨-, hv, -⟩ | ⟨-, -, hr⟩ := receivedFor_cases (receive n t s).1.rxbuf ending
  · exact .inr hr
  · rw [validate_of_short (hrun.bytes_length_le.trans hn)] at hv
    exact absurd hv Bool.false_ne_true
  · exact .inl hr

/-- Settles O23: a short sequence does not validate, and a timeout of 0 ms leaves no time for a read. -/
theorem receiveCornerCases : Obligations.ReceiveCornerCases := by
  refine ⟨fun t s => rfl, fun n s => ?_, fun n t s hn => receive_short (by omega) t s, fun n t s => ?_⟩
  · obtain ⟨ending, events, hrun, -, hret⟩ := receive_run n 0 s
    obtain ⟨hempty, he⟩ := hrun.of_no_time
    rw [hret, hempty, receivedFor, if_neg he]
    rfl
  · obtain ⟨hlen, -⟩ | ⟨hlen, -, hv⟩ := receive_len n t s
    · omega
    · have := three_le_of_validate hv
      omega

/-! ## RECEIVE -/

@[simp] theorem Memory.writeBytes_nil (m : Memory) (i : Nat) : m.writeBytes i [] = m := rfl

/-- R149: what RECEIVE leaves, for what `receive` returns. -/
theorem exec_receive {len : Half} (hl : len.toNat ≤ 32) (timeout : Half) (s : State) :
    exec (.receive len timeout) s =
      .next { s with
        status := (receive len.toNat timeout s).2.code
        result := BitVec.ofNat 32 (receive len.toNat timeout s).2.len
        hlen := BitVec.ofNat 8 (receive len.toNat timeout s).2.len
        hbuf := s.hbuf.writeBytes 0 ((receive len.toNat timeout s).1.rxbuf.take (receive len.toNat timeout s).2.len)
        rxbuf := (receive len.toNat timeout s).1.rxbuf
        rxStart := s.now, latch := none, env := (receive len.toNat timeout s).1.env } := by
  have hok : lengthOk len Config.rxDepth = true := decide_eq_true hl
  simp [exec, execReceive, hok, State.finish, receiveCommit_eq]

/-- R77: a length over 32 writes `STATUS` and nothing else. -/
theorem exec_receive_illegal {len : Half} (hl : 32 < len.toNat) (timeout : Half) (s : State) :
    exec (.receive len timeout) s = .next { s with status := .illegalCommand, latch := none } := by
  obtain ⟨-, -, hillegal⟩ := onlyLengthsOverTheBoundAreIllegal.1 s len hl
  exact hillegal timeout

/-- R152: the run ends with an `RxErr` exactly if its last event is a read that returned one. -/
theorem LoopRun.error_iff {t : Half} {start : Time} {more : Nat} {bytes : List Byte} {ending : RxEnd}
    {events : List Event} (h : LoopRun t start more bytes ending events) :
    ending = .error ↔ ∃ ms, events.getLast? = some (.rxRead ms .err) := by
  induction h with
  | byte h rest ih =>
    rw [ih]
    cases rest <;> simp
  | _ => simp

/-- Settles O20: the run of the receive has one of three results, and its last event tells whether it failed. -/
theorem receiveReportsWhatItAccepted : Obligations.ReceiveReportsWhatItAccepted := by
  intro s len timeout hl
  obtain ⟨ending, events, hrun, hhist, hret⟩ := receive_run len.toNat timeout s
  have hlast : ending = .error ↔
      ∃ earlier ms, .now s.env.now :: events = earlier ++ [Event.rxRead ms .err] := by
    rw [hrun.error_iff, exists_comm]
    simp only [← List.getLast?_eq_some_iff]
    cases events <;> simp
  have hlen := hrun.bytes_length_le
  refine ⟨_, exec_receive hl timeout s, ?_⟩
  rw [hret]
  generalize (receive len.toNat timeout s).1 = after at *
  obtain ⟨he, hr⟩ | ⟨he, hv, hr⟩ | ⟨he, hv, hr⟩ := receivedFor_cases after.rxbuf ending <;> rw [hr]
  · exact ⟨by simp, by simp, by simp, by simp, _, hhist, by simpa using hlast.1 he⟩
  · have := three_le_of_validate hv
    exact ⟨by simp, by simp [this, hlen, hv, Memory.writeBytes_holds], by simp, by simp, _, hhist,
      by simpa using mt hlast.2 he⟩
  · exact ⟨by simp, by simp, by simp, by simp [hv], _, hhist, by simpa using mt hlast.2 he⟩

/-- Settles O43: RECEIVE stores as many bytes as it returns, which is none unless it ends `OK`. -/
theorem receiveStoresOnlyTheAcceptedBytes : Obligations.ReceiveStoresOnlyTheAcceptedBytes := by
  intro len timeout s t h
  by_cases hl : len.toNat ≤ 32
  · obtain ⟨events, hhist, htx⟩ := receive_events len.toNat timeout s
    have hle := receive_len_le len.toNat timeout s
    rw [exec_receive hl] at h
    cases h
    refine ⟨rfl, fun k _ hk => ?_, fun hne k => ?_, events, hhist, htx⟩
    · have hresult := Nat.mod_eq_of_lt (show (receive len.toNat timeout s).2.len < 2 ^ 32 by omega)
      refine Memory.read_writeBytes_of_le _ ?_
      rw [Nat.zero_add]
      exact (List.length_take_le _ _).trans (hresult.symm.trans_le hk)
    · obtain ⟨hlen, -⟩ | ⟨-, hok, -⟩ := receive_len len.toNat timeout s
      · simp [hlen]
      · exact absurd hok hne
  · rw [exec_receive_illegal (Nat.lt_of_not_le hl)] at h
    cases h
    exact ⟨rfl, fun _ _ _ => rfl, fun _ _ => rfl, [], by simp, rfl⟩

/-- Settles O19: what `receive` returns for the bytes delivered (`receive_delivers`), put into the finish of RECEIVE. -/
theorem receiveReturnsTheAcceptedBytes : Obligations.ReceiveReturnsTheAcceptedBytes := by
  refine ⟨fun s len timeout bytes ending later more hl hd => ?_,
    fun s len timeout hl => exec_receive_illegal hl timeout s⟩
  obtain ⟨hbytes, hclock, hrx, hret⟩ := receive_delivers hd
  obtain ⟨events, hhist, htx⟩ := receive_events len.toNat timeout s
  refine ⟨_, exec_receive hl timeout s, ?_⟩
  rw [hret, hbytes]
  obtain ⟨rfl, hr⟩ | ⟨he, hv, hr⟩ | ⟨he, hv, hr⟩ := receivedFor_cases bytes ending <;> rw [hr]
  · exact ⟨by simp, by simp, hclock, hrx, events, hhist, htx⟩
  · have hkept : ∀ k, bytes.length ≤ k → (s.hbuf.writeBytes 0 bytes).read k = s.hbuf.read k :=
      fun k hk => s.hbuf.read_writeBytes_of_le (by omega)
    exact ⟨by simp [he, hv], by simpa [he, hv, Memory.writeBytes_holds] using hkept, hclock, hrx, events, hhist,
      htx⟩
  · exact ⟨by simp [he, hv], by simp [hv], hclock, hrx, events, hhist, htx⟩

/-! ## A write that fails -/

/-- What a command that stages at most `RESULT` and its flag leaves. -/
theorem State.finish_report (s : State) (code : Status) (r : Option Word) (v : Option Bool) :
    s.finish { status := code, result := r, resultValid := v } =
      { s with status := code, result := r.getD s.result, resultValid := v.getD s.resultValid, latch := none } := by
  simp [State.finish, Memory.writeBytes]

/-- R141: a command that finishes right after its write leaves what `failsToSend` says. -/
theorem failsToSend_of_exec {i : Instr} {frame tx : List Byte} {s : State} (hf : s.env.failsFrame)
    (h : exec i s = .next (((s.loadTx tx).afterTx frame).finish { status := .transportError })) :
    failsToSend i frame tx s := by
  obtain ⟨rest, hf⟩ := hf
  rw [State.finish_report] at h
  exact ⟨_, h, rfl, rfl, rfl, by simp [Env.txAnswer_of_err hf]⟩

/-- R162: a command that finishes with the code of its verified exchange. -/
theorem failsToSend_of_verified {i : Instr} {frame : List Byte} {s : State} (hf : s.env.failsFrame)
    (h : exec i s = .next ((verifiedExchange frame s).1.finish { status := (verifiedExchange frame s).2 })) :
    failsToSend i frame frame s :=
  failsToSend_of_exec hf (by rw [h, verifiedExchange_fails frame hf])

theorem resetExchange_fails {s : State} (h : s.env.failsFrame) :
    resetExchange s = (s.afterTx (resetEnergyFrame s), .transportError) := by
  obtain ⟨rest, h⟩ := h
  simp [resetExchange, State.txAnswer, Env.txAnswer_of_err h]

/-- R196: no snapshot, or one that is 200 ms old. -/
theorem State.fresh_eq_false {s : State} (h : s.hasSnap = false ∨ 200 ≤ s.env.now - s.lastReadMs) :
    s.fresh s.now = false := by
  obtain h | h := h
  · simp [State.fresh, h]
  · have hold : ¬ s.now - s.lastReadMs < Config.updateIntervalMs := BitVec.not_lt.2 h
    simp [State.fresh, hold]

/-- R199: a command on the cache whose update fails to send leaves what `failsToRefresh` says, whatever it stages for
`RESULT` and its flag. -/
theorem failsToRefresh_of_exec {i : Instr} {result : Option Word} {valid : Option Bool} {s : State}
    (hf : s.env.failsFrame) (hstale : s.hasSnap = false ∨ 200 ≤ s.env.now - s.lastReadMs)
    (h : exec i s = .next ((updateValues s).1.finish
      { status := .transportError, result := result, resultValid := valid })) :
    failsToRefresh i (result.getD s.result) (valid.getD s.resultValid) s := by
  obtain ⟨hu, hhist⟩ := updateValues_fails (State.fresh_eq_false hstale) hf
  rw [State.finish_report] at h
  refine ⟨_, h, ?_, ?_, ?_, hhist⟩ <;> rw [hu] <;> rfl

/-- R200, R201: an accessor reports on the snapshot there already was. -/
theorem failsToRefresh_of_accessor {i : Instr} (f : Fields → Word) {s : State} (hf : s.env.failsFrame)
    (hstale : s.hasSnap = false ∨ 200 ≤ s.env.now - s.lastReadMs)
    (h : exec i s = .next ((updateValues s).1.finish
      (.of (updateValues s).2.code (accessorWrites f (updateValues s).1 (updateValues s).2)))) :
    failsToRefresh i (if s.hasSnap = true then f s.snap else 0) s.hasSnap s := by
  obtain ⟨hu, -⟩ := updateValues_fails (State.fresh_eq_false hstale) hf
  refine failsToRefresh_of_exec (result := some (if s.hasSnap = true then f s.snap else 0)) (valid := some s.hasSnap)
    hf hstale ?_
  rw [h, accessorWrites_commit, hu]
  by_cases hs : s.hasSnap = true <;> simp [State.snapAfter, hs]

/-- Settles O26: each command finishes right after its failed write, and the accessors report on the old snapshot. -/
theorem failedWriteEndsTheCommand : Obligations.FailedWriteEndsTheCommand := by
  refine ⟨fun s hf => ⟨fun reg value => failsToSend_of_verified hf rfl, fun addr hlo hhi => ?_, fun watts => ?_,
      fun fc reg count v o addr => ?_, ?_⟩,
    fun s hf hstale => ⟨?_, failsToRefresh_of_accessor (·.get .voltage) hf hstale rfl,
      failsToRefresh_of_accessor (·.get .current) hf hstale rfl,
      failsToRefresh_of_accessor (·.get .power) hf hstale rfl,
      failsToRefresh_of_accessor (·.get .energy) hf hstale rfl,
      failsToRefresh_of_accessor (·.get .frequency) hf hstale rfl,
      failsToRefresh_of_accessor (·.get .powerFactor) hf hstale rfl,
      failsToRefresh_of_accessor (·.get .alarms) hf hstale rfl, ?_⟩⟩
  · have ha : isHostAddr addr = true := isHostAddr_iff.2 ⟨hlo, hhi⟩
    refine failsToSend_of_exec hf ?_
    simp only [exec, execSetAddress, ha, if_true, verifiedExchange_fails _ hf]
    rfl
  · rw [← clampAlarm_eq]
    exact failsToSend_of_verified hf rfl
  · cases v with
    | true => exact failsToSend_of_verified hf rfl
    | false =>
      refine failsToSend_of_exec hf ?_
      obtain ⟨rest, hf⟩ := hf
      simp [exec, execSendRead, sendReadFrame, State.txAnswer, Env.txAnswer_of_err hf, sentStatus]
  · refine failsToSend_of_exec hf ?_
    simp only [exec, execResetEnergy, resetExchange_fails hf]
    rfl
  · refine failsToRefresh_of_exec (result := none) (valid := none) hf hstale ?_
    obtain ⟨hu, -⟩ := updateValues_fails (State.fresh_eq_false hstale) hf
    simp [exec, execUpdateValues, hu]
  · have halarm := failsToRefresh_of_accessor (fun d => if d.alm = 0 then 0 else 1) (i := .getPowerAlarm) hf hstale rfl
    rw [ite_and]
    simpa only [ne_eq, ite_not] using halarm

end Sys2Proof.Machine

/-!
PROOFS of the statements of spec/43_dispatcher.md. Every command of the dispatcher finishes what its exchange leaves with
`STATUS` and at most the session's address. What the two exchanges come to over a Transport that takes the frame is said
once for each; what a command may write, and how often it transmits, is read off `exec_next`.
-/

namespace Sys2Proof.Machine

/-- Settles O24: the addresses an override may name are those of `isHostAddr_iff`. -/
theorem overrideAddressIsResolved : Obligations.OverrideAddressIsResolved := by
  intro o a sess
  simp only [resolveAddr, Bool.and_eq_true, isHostAddr_iff]

/-- Settles O30: a command has made at most one write when it finishes (`Worked`), and `finish` adds no event. -/
theorem everyCommandWritesAtMostOneFrame : Obligations.EveryCommandWritesAtMostOneFrame := by
  intro i s t h
  obtain ⟨s', c, rfl, hw, -⟩ := exec_next h
  exact hw.events

/-! ## What a finish of the dispatcher writes -/

/-- What a command that stages at most the session's address leaves. -/
theorem State.finish_session (s : State) (code : Status) (a : Option Byte) :
    s.finish { status := code, sessAddr := a } =
      { s with status := code, sessAddr := a.getD s.sessAddr, latch := none } := by
  simp [State.finish]

/-- The commands of spec/43_dispatcher.md. -/
def isDispatcherCommand (i : Instr) : Prop :=
  (∃ fc reg count v o addr, i = .sendRead fc reg count v o addr) ∨ (∃ reg value, i = .writeReg reg value) ∨
    (∃ addr, i = .setAddress addr) ∨ (∃ watts, i = .setPowerAlarm watts) ∨ i = .resetEnergy

/-- A command of the dispatcher stages at most the session's address. -/
theorem Commit.session_of_allowed {i : Instr} {s' : State} {c : Commit} (h : c.allowed i s')
    (hi : isDispatcherCommand i) : c = { status := c.status, sessAddr := c.sessAddr } := by
  obtain ⟨_, _, _, _, _, _, rfl⟩ | ⟨_, _, rfl⟩ | ⟨_, rfl⟩ | ⟨_, rfl⟩ | rfl := hi
  · rw [h]
  · rw [h]
  · exact h.1
  · rw [h]
  · rw [h]

/-- Settles O44: the exchange changes the hidden buffers and the environment (`Worked.same`), the finish `STATUS` and the
session's address, which SET_ADDRESS alone moves (O32). -/
theorem dispatcherCommandsWriteStatusOnly : Obligations.DispatcherCommandsWriteStatusOnly := by
  intro i s t hi h
  have hsess := (onlySetAddressMovesTheSession i s t h).2
  obtain ⟨s', c, rfl, hw, hc⟩ := exec_next h
  have hfin := s'.finish_session c.status c.sessAddr
  rw [← Commit.session_of_allowed hc hi] at hfin
  have hsame := hw.same
  exact ⟨by rw [hfin, hsame], fun hset => hsess (.inl hset), fun k => by rw [hfin, hsame]⟩

/-! ## The verified commands -/

/-- R162: a command that finishes with the code of its verified exchange, and may stage the session's address. -/
theorem completesVerified_of_exec {i : Instr} {frame bytes : List Byte} {addr : Byte} {a : Option Byte} {s : State}
    {ending : RxEnd} {later : List Time} {more : List RxAnswer} (hf : frame.length = 8) (ht : s.env.takesFrame)
    (hd : s.env.delivers 8 100 bytes ending later more)
    (h : exec i s = .next ((verifiedExchange frame s).1.finish
      { status := (verifiedExchange frame s).2, sessAddr := a }))
    (ha : a.getD s.sessAddr = if (verifiedExchange frame s).2 = .ok then addr else s.sessAddr) :
    completesVerified i frame addr s bytes ending later more := by
  obtain ⟨k, events, hstate, hcode, hclock, hrx, hhist, htx⟩ := verifiedExchange_delivers hf ht hd
  rw [hcode] at ha h
  refine ⟨_, h, ?_, hclock, hrx, k, events, hhist, htx⟩
  rw [State.finish_session, hstate, ← ha]

/-- Settles O25: each verified command finishes with the code of its exchange; SET_ADDRESS stages the address on `OK`. -/
theorem verifiedCommandsJudgeTheEcho : Obligations.VerifiedCommandsJudgeTheEcho := by
  refine ⟨fun s bytes ending later more ht hd => ⟨fun reg value => ?_, fun addr hlo hhi => ?_, fun watts => ?_,
    fun fc reg count o addr => ?_⟩, fun s addr hout => ?_⟩
  · exact completesVerified_of_exec (a := none) rfl ht hd rfl (ite_self _).symm
  · have hhost : isHostAddr addr = true := isHostAddr_iff.2 ⟨hlo, hhi⟩
    refine completesVerified_of_exec
      (a := if (verifiedExchange (setAddressFrame addr s) s).2 = .ok then some addr else none) rfl ht hd ?_ ?_
    · simp only [exec, execSetAddress, hhost, if_true, setAddressCommit_eq]
      rfl
    · exact apply_ite (Option.getD · s.sessAddr) _ _ _
  · rw [← clampAlarm_eq]
    exact completesVerified_of_exec (a := none) rfl ht hd rfl (ite_self _).symm
  · exact completesVerified_of_exec (a := none) rfl ht hd rfl (ite_self _).symm
  · have hhost : isHostAddr addr = false := by
      rw [Bool.eq_false_iff, ne_eq, isHostAddr_iff]
      omega
    simp [exec, execSetAddress, hhost, State.finish_session s .rangeError none]

/-! ## SEND_READ without verification -/

/-- Settles O27: the command finishes right after its write, and any `TxOk(n)` is a success. -/
theorem unverifiedRequestOnlyWrites : Obligations.UnverifiedRequestOnlyWrites := by
  rintro s fc reg count o addr ⟨k, rest, htx⟩
  have hans : s.env.txAnswer (frame8 (resolveAddr o addr s.sessAddr) fc reg count) = .ok (min k 8) :=
    Env.txAnswer_of_ok htx _
  refine ⟨_, rfl, ?_, rfl, rfl, min k 8, Nat.min_le_right k 8, ?_⟩
  · rw [State.finish_session _ _ none]
    simp [sendReadFrame, State.txAnswer, hans, sentStatus]
  · simp [sendReadFrame, hans]

/-! ## RESET_ENERGY -/

/-- R166: the verdict on what `receive` returns, in terms of the reply itself. No validated reply is empty. -/
theorem resetEnergyStatus_receivedFor (bytes : List Byte) (ending : RxEnd) :
    resetEnergyStatus (receivedFor bytes ending) =
      if ending = .error then .transportError
      else if validate bytes = false then .rxFail
      else if bytes.length = 5 then .replyRejected
      else .ok := by
  obtain ⟨he, hr⟩ | ⟨he, hv, hr⟩ | ⟨he, hv, hr⟩ := receivedFor_cases bytes ending <;> rw [hr]
  · simp [resetEnergyStatus, he]
  · have hlen := three_le_of_validate hv
    have hnot : ¬ validate bytes = false := by simp [hv]
    rw [resetEnergyStatus, if_neg nofun, if_neg (show bytes.length ≠ 0 by omega), if_neg he, if_neg hnot]
    rfl
  · simp [resetEnergyStatus, he, hv]

/-- R166: the reset-energy exchange over a Transport that takes the frame and delivers a reply. -/
theorem resetExchange_delivers {s : State} {bytes : List Byte} {ending : RxEnd} {later : List Time}
    {more : List RxAnswer} (ht : s.env.takesFrame) (hd : s.env.delivers 5 100 bytes ending later more) :
    (resetExchange s).1 =
        { s with rxbuf := bytes, rxStart := (resetExchange s).1.rxStart, env := (resetExchange s).1.env } ∧
      (resetExchange s).2 = resetEnergyStatus (receivedFor bytes ending) ∧
      (resetExchange s).1.env.clock = later ∧ (resetExchange s).1.env.rx = more ∧
      ∃ k events, (resetExchange s).1.env.history =
          s.env.history ++ .txWrite (resetEnergyFrame s) (.ok k) :: events ∧
        events.countP Event.isTx = 0 := by
  obtain ⟨k, rest, htx⟩ := ht
  have hans : s.txAnswer (resetEnergyFrame s) = .ok _ := Env.txAnswer_of_ok htx _
  have hd' : (s.afterTx (resetEnergyFrame s)).env.delivers 5 100 bytes ending later more := hd
  obtain ⟨hbytes, hclock, hrx, hret⟩ := receive_delivers hd'
  obtain ⟨events, hhist, hnotx⟩ := resetExchange_events s
  rw [hans] at hhist
  have hx : resetExchange s =
      ((receive 5 100 (s.afterTx (resetEnergyFrame s))).1, resetEnergyStatus (receivedFor bytes ending)) := by
    simp only [resetExchange, hans, ← hret]
    rfl
  refine ⟨?_, congrArg Prod.snd hx, by rw [hx]; exact hclock, by rw [hx]; exact hrx, _, events, hhist, hnotx⟩
  rw [hx, receive_frame, hbytes]
  rfl

/-- Settles O28: the exchange ends with the verdict on the length of its reply, and the finish writes `STATUS` alone. -/
theorem resetEnergyJudgesTheReplyLength : Obligations.ResetEnergyJudgesTheReplyLength := by
  refine ⟨fun s bytes ending later more ht hd => ?_, fun s hf => ?_⟩
  · obtain ⟨hstate, hcode, hclock, hrx, hevents⟩ := resetExchange_delivers ht hd
    refine ⟨_, rfl, ?_, hclock, hrx, hevents⟩
    rw [State.finish_session _ _ none, hcode, resetEnergyStatus_receivedFor, hstate]
    rfl
  · obtain ⟨-, -, -, -, hreset⟩ := failedWriteEndsTheCommand.1 s hf
    exact hreset

end Sys2Proof.Machine

/-!
PROOFS of the statements of spec/44_cache_decoder.md. DECODE finishes the state it starts from. Every command on the cache
finishes what `updateValues()` leaves with staged writes that `State.finish_refresh` spells out; the accessors add the
report on the snapshot of that finish. Over a Transport that takes the request, `updateValues()` is followed up to the
verdict on its reply (`bulkReply_delivers`), which either stores the response or only ends the command.
-/

namespace Sys2Proof.Machine

/-! ## The decoder -/

/-- R192: two 16-bit words of two bytes each, as four bytes in a row. -/
theorem append_words (a b c d : Byte) : ((a ++ b : Half) ++ (c ++ d : Half) : Word) = a ++ b ++ c ++ d := by
  have h : (a ++ b ++ (c ++ d)).cast (by decide) = a ++ b ++ c ++ d := (BitVec.append_assoc ..).symm
  exact h

/-- What a command that stages all seven `DEC_*` leaves. -/
theorem State.finish_decode (s : State) (code : Status) (d : Fields) :
    s.finish { status := code, dec := .all d } =
      { s with status := code, dec := d, decWritten := true, latch := none } := by
  simp [State.finish]

/-- R195: what DECODE leaves, for the bytes its `MemRead` returns. -/
theorem exec_decode {s : State} {bytes : List Byte} (h : s.hbuf.readBytes 3 20 = some bytes) :
    exec .decode s = .next { s with
      dec := decodeBulk ([0x00, 0x00, 0x00] ++ bytes), decWritten := true, status := .ok, latch := none } := by
  simp only [exec, execDecode, decodeCommit, h, complete, decodeWrites_commit, State.finish_decode]

/-- Settles O33: `MemRead(3, 20)` returns the bytes held, at their offsets in the response, or meets one never written. -/
theorem decodeReadsTheTwentyDataBytes : Obligations.DecodeReadsTheTwentyDataBytes := by
  refine ⟨?_, fun s ⟨k, hlo, hhi, hk⟩ => ?_⟩
  · intro s b3 b4 b5 b6 b7 b8 b9 b10 b11 b12 b13 b14 b15 b16 b17 b18 b19 b20 b21 b22 hheld
    rw [exec_decode (Memory.readBytes_eq_some.2 ⟨rfl, hheld⟩)]
    simp only [decodeBulk, u32ws, ← append_words]
    rfl
  · have hunwritten : s.hbuf.readBytes 3 20 = none :=
      Memory.readBytes_eq_none.2 ⟨k - 3, by omega, by rwa [show 3 + (k - 3) = k by omega]⟩
    simp only [exec, execDecode, decodeCommit, hunwritten, complete]

/-- Settles O34: each scale is a power of ten, and the zero-extension of a 16-bit field keeps its value. -/
theorem physicalValuesAreScaledExactly : Obligations.PhysicalValuesAreScaledExactly := by
  intro d
  have hhalf (x : Half) : (x.zeroExtend 32).toNat = x.toNat := BitVec.toNat_setWidth_of_le (by decide)
  refine ⟨?_, ?_, ?_, ?_, ?_, ?_, ?_⟩ <;> norm_num [Fields.physical, Fields.get, Quantity.exponent, hhalf]

/-! ## The finish of a command on the cache -/

theorem exec_updateValues (s : State) :
    exec .updateValues s = .next ((updateValues s).1.finish (updateCommit (updateValues s).2)) := rfl

/-- What a command that stages at most the cache, `RESULT` and its flag leaves. -/
theorem State.finish_refresh (s : State) (code : Status) (g : StagedFields) (m : Option Time) (has : Bool)
    (r : Option Word) (v : Option Bool) :
    s.finish { status := code, snap := g, lastReadMs := m, hasSnap := has, result := r, resultValid := v } =
      { s with
        status := code, snap := g.onto s.snap, lastReadMs := m.getD s.lastReadMs, hasSnap := s.hasSnap || has
        result := r.getD s.result, resultValid := v.getD s.resultValid, latch := none } := by
  simp [State.finish]

@[simp] theorem updateCommit_status (u : Update) : (updateCommit u).status = u.code := by
  obtain ⟨code, _ | ⟨d, stamp⟩⟩ := u <;> rfl

/-- What an update that stores a snapshot leaves. -/
theorem State.finish_snapshot (s : State) (code : Status) (d : Fields) (stamp : Time) :
    s.finish (updateCommit ⟨code, some (d, stamp)⟩) =
      { s with status := code, snap := d, lastReadMs := stamp, hasSnap := true, latch := none } := by
  simp [State.finish]

/-- What the commands on the cache stage is a refresh. -/
theorem Commit.refreshes_of_allowed {i : Instr} {s' : State} {c : Commit} (h : c.allowed i s')
    (hi : i ∈ cacheCommands) : c.refreshes := by
  simp only [cacheCommands, List.mem_cons, List.not_mem_nil, or_false] at hi
  rcases hi with rfl | rfl | rfl | rfl | rfl | rfl | rfl | rfl | rfl
  · exact h.1
  all_goals exact h

/-- Settles O37: a refresh that fails stages nothing for the cache, and no other command ever does (O41). -/
theorem failedUpdateKeepsTheCache : Obligations.FailedUpdateKeepsTheCache := by
  intro i s t h hfailed
  by_cases hi : i ∈ cacheCommands
  · obtain ⟨s', c, rfl, hw, hc⟩ := exec_next h
    obtain ⟨-, hkeeps⟩ := Commit.refreshes_of_allowed hc hi
    obtain ⟨hsnap, hstamp, hhas⟩ := hkeeps hfailed
    rw [hw.same]
    simp [hsnap, hstamp, hhas]
  · exact (onlyUpdatesReplaceTheSnapshot i s t h).2 hi

/-- Settles O45: the update changes the hidden buffers and the environment (`Worked.same`), and the finish what a refresh
stages. -/
theorem cacheCommandsKeepTheRest : Obligations.CacheCommandsKeepTheRest := by
  intro i s t hi h
  obtain ⟨s', c, rfl, hw, hc⟩ := exec_next h
  obtain ⟨hstaged, -⟩ := Commit.refreshes_of_allowed hc hi
  have hfin := s'.finish_refresh c.status c.snap c.lastReadMs c.hasSnap c.result c.resultValid
  rw [← hstaged] at hfin
  have hsame := hw.same
  refine ⟨by rw [hfin, hsame], ?_, fun k => by rw [hfin, hsame]⟩
  rintro rfl
  obtain ⟨-, hresult, hvalid⟩ := hc
  rw [hsame]
  simp [hresult, hvalid]

/-! ## The accessors -/

/-- R200, R201: a command that finishes with the writes of an accessor leaves what UPDATE_VALUES leaves, and the report on
the snapshot that is then stored. -/
theorem exec_accessor {i : Instr} {f : Fields → Word} {s u : State}
    (h : exec i s = .next ((updateValues s).1.finish
      (.of (updateValues s).2.code (accessorWrites f (updateValues s).1 (updateValues s).2))))
    (hu : u = (updateValues s).1.finish (updateCommit (updateValues s).2)) :
    exec i s = .next { u with result := if u.hasSnap = true then f u.snap else 0, resultValid := u.hasSnap } := by
  rw [h, hu, accessorWrites_commit]
  generalize (updateValues s).1 = s'
  obtain ⟨code, _ | ⟨d, stamp⟩⟩ := (updateValues s).2
  · cases hs : s'.hasSnap <;> simp [State.snapAfter, State.finish, hs]
  · simp [State.snapAfter, State.finish]

/-- Settles O39: every accessor finishes with the writes of the update and its report. -/
theorem accessorsReportTheSnapshot : Obligations.AccessorsReportTheSnapshot := by
  intro s
  refine ⟨_, exec_updateValues s, exec_accessor (f := (·.get .voltage)) rfl rfl,
    exec_accessor (f := (·.get .current)) rfl rfl, exec_accessor (f := (·.get .power)) rfl rfl,
    exec_accessor (f := (·.get .energy)) rfl rfl, exec_accessor (f := (·.get .frequency)) rfl rfl,
    exec_accessor (f := (·.get .powerFactor)) rfl rfl, exec_accessor (f := (·.get .alarms)) rfl rfl, ?_⟩
  have halarm := exec_accessor (i := .getPowerAlarm) (f := fun d => if d.alm = 0 then 0 else 1) (s := s) rfl rfl
  rw [ite_and]
  simpa only [ne_eq, ite_not] using halarm

/-! ## A fresh cache -/

/-- R196: a snapshot that is younger than 200 ms. -/
theorem State.fresh_eq_true {s : State} (hs : s.hasSnap = true) (h : s.env.now - s.lastReadMs < 200) :
    s.fresh s.now = true := by
  have hyoung : s.now - s.lastReadMs < Config.updateIntervalMs := h
  simp [State.fresh, hs, hyoung]

/-- Settles O35: the update of a fresh cache is its clock sample, and stages nothing. -/
theorem freshUpdateDoesNoInput : Obligations.FreshUpdateDoesNoInput := by
  intro s hs hyoung
  have hu := updateValues_fresh (State.fresh_eq_true hs hyoung)
  refine ⟨_, exec_updateValues s, ?_⟩
  rw [hu, updateCommit_none, State.finish_report _ _ none none]
  exact ⟨rfl, rfl, rfl, rfl⟩

/-! ## The bulk exchange -/

/-- R197: the bulk request, with its constants written out. -/
theorem bulkRequest_eq (s : State) : bulkRequest s = frame8 s.sessAddr 0x04 0x0000 10 := rfl

/-- R197: the block once a stale update has sent the bulk request. -/
def State.afterRequest (s : State) : State := (s.afterNow.loadTx (bulkRequest s)).afterTx (bulkRequest s)

/-- R197: what the bulk request is answered with, and the state then. -/
def bulkReply (s : State) : State × Received := receive Config.bulkRespLen Config.rxTimeoutMs s.afterRequest

/-- R199: an update whose reply is not stored writes `STATUS` alone. -/
theorem exec_updateValues_rejects {s : State} {k : Nat} {code : Status} (hf : s.fresh s.now = false)
    (htx : s.env.afterNow.txAnswer (bulkRequest s) = .ok k) (h : bulkFailure (bulkReply s).2 = some code) :
    exec .updateValues s = .next { (bulkReply s).1 with status := code, latch := none } := by
  have hans : (s.afterNow.loadTx (bulkRequest s)).txAnswer (bulkRequest s) = .ok k := htx
  have hu : updateValues s = ((bulkReply s).1, ⟨code, none⟩) := by
    unfold bulkReply State.afterRequest at *
    simp only [updateValues, hf, Bool.false_eq_true, if_false, hans, h]
  rw [exec_updateValues, hu, updateCommit_none, State.finish_report _ _ none none]
  simp only [Option.getD_none]

/-- R197, R198: an update whose reply is stored takes one more sample, the stamp. -/
theorem exec_updateValues_stores {s : State} {k : Nat} (hf : s.fresh s.now = false)
    (htx : s.env.afterNow.txAnswer (bulkRequest s) = .ok k) (h : bulkFailure (bulkReply s).2 = none) :
    exec .updateValues s = .next { (bulkReply s).1 with
      status := .ok, snap := decodeBulk ((bulkReply s).1.rxbuf.take 25), lastReadMs := (bulkReply s).1.env.now
      hasSnap := true, latch := none, env := (bulkReply s).1.env.afterNow } := by
  have hans : (s.afterNow.loadTx (bulkRequest s)).txAnswer (bulkRequest s) = .ok k := htx
  have hu : updateValues s = ((bulkReply s).1.afterNow, ⟨.ok, some (bulkReply s).1.bulkSnapshot⟩) := by
    unfold bulkReply State.afterRequest at *
    simp only [updateValues, hf, Bool.false_eq_true, if_false, hans, h]
  rw [exec_updateValues, hu, State.bulkSnapshot, State.finish_snapshot]
  generalize (bulkReply s).1 = r
  rfl

/-- R197, R199: an update that succeeds has found the cache fresh, or stores a snapshot. -/
theorem updateValues_ok {s : State} (h : (updateValues s).2.code = .ok) :
    s.fresh s.now = true ∨ (updateCommit (updateValues s).2).hasSnap = true := by
  unfold updateValues at *
  dsimp only at *
  split_ifs at * with hf
  · exact .inl hf
  · split at h
    · cases h
    · split at h
      · next hcode =>
        cases h
        simpa using bulkFailure_some hcode
      · exact .inr rfl

/-- Settles O38: a successful update leaves a snapshot, so that the second one finds the cache fresh (O35). -/
theorem secondUpdateInTheWindowIsServedFromTheCache : Obligations.SecondUpdateInTheWindowIsServedFromTheCache := by
  intro s t h hok hyoung
  have hs : t.hasSnap = true := by
    rw [exec_updateValues] at h
    cases h
    rw [State.finish_status, updateCommit_status] at hok
    rw [State.finish_hasSnap, Bool.or_eq_true]
    obtain hfresh | hstored := updateValues_ok hok
    · have hs : s.hasSnap = true := (Bool.and_eq_true_iff.1 hfresh).1
      rw [updateValues_fresh hfresh]
      exact .inl hs
    · exact .inr hstored
  obtain ⟨u, hu, hstate, hhist, -, -⟩ := freshUpdateDoesNoInput t hs hyoung
  exact ⟨u, hu, by rw [hstate], by rw [hstate], by rw [hstate], hhist⟩

/-! ## A Transport that takes the request -/

/-- The status of a stale update whose request is taken, for the accumulated reply and the end of the receive (R197). -/
def bulkStatus (bytes : List Byte) (ending : RxEnd) : Status :=
  if ending = .error then .transportError
  else if validate bytes = false ∨ bytes.length ≠ 25 then .rxFail
  else .ok

/-- R197: `bulkStatus` says why a reply is not stored, and is `OK` exactly for one that is. -/
theorem bulkFailure_receivedFor (bytes : List Byte) (ending : RxEnd) :
    bulkFailure (receivedFor bytes ending) =
      if bulkStatus bytes ending = .ok then none else some (bulkStatus bytes ending) := by
  obtain ⟨he, hr⟩ | ⟨he, hv, hr⟩ | ⟨he, hv, hr⟩ := receivedFor_cases bytes ending <;> rw [hr]
  · simp [bulkFailure, bulkStatus, he]
  · by_cases hlen : bytes.length = 25 <;> simp [bulkFailure, bulkStatus, Config.bulkRespLen, he, hv, hlen]
  · simp [bulkFailure, bulkStatus, Config.bulkRespLen, he, hv]

theorem length_of_bulkStatus_ok {bytes : List Byte} {ending : RxEnd} (h : bulkStatus bytes ending = .ok) :
    bytes.length = 25 := by
  unfold bulkStatus at h
  split_ifs at h with he hfail
  exact not_not.1 (not_or.1 hfail).2

/-- R144: the sample before the request is not above any that `receive` takes. -/
theorem now_le_bulkReply_lastNow (s : State) : s.env.now ≤ (bulkReply s).1.env.lastNow := by
  obtain ⟨steps, -, h⟩ := reaches_receive (i := .updateValues) rfl s.afterRequest
  exact (advanceFor_grows h).lastNow

/-- R197: the bulk exchange over a Transport that takes the request and delivers a reply. -/
theorem bulkReply_delivers {s : State} {k : Nat} {bytes : List Byte} {ending : RxEnd} {later : List Time}
    {more : List RxAnswer} (htx : s.env.afterNow.txAnswer (bulkRequest s) = .ok k)
    (hd : s.env.afterNow.delivers 25 100 bytes ending later more) :
    (bulkReply s).1 =
        { s with
          txbuf := bulkRequest s, rxbuf := bytes, rxStart := (bulkReply s).1.rxStart, env := (bulkReply s).1.env } ∧
      (bulkReply s).2 = receivedFor bytes ending ∧
      (bulkReply s).1.env.clock = later ∧ (bulkReply s).1.env.rx = more ∧
      ∃ reads, (bulkReply s).1.env.history =
          s.env.history ++ .now s.env.now :: .txWrite (bulkRequest s) (.ok k) :: reads ∧
        reads.countP Event.isTx = 0 ∧ reads.countP Event.isByte = bytes.length := by
  have hd' : s.afterRequest.env.delivers Config.bulkRespLen Config.rxTimeoutMs bytes ending later more := hd
  obtain ⟨hbytes, hclock, hrx, hret⟩ := receive_delivers hd'
  obtain ⟨reads, hhist, hnotx⟩ := receive_events Config.bulkRespLen Config.rxTimeoutMs s.afterRequest
  have hread := receive_bytesRead hhist
  rw [hbytes] at hread
  have hsent : s.afterRequest.env.history =
      s.env.history ++ [.now s.env.now, .txWrite (bulkRequest s) (.ok k)] := by
    simp [State.afterRequest, htx]
  refine ⟨?_, hret, hclock, hrx, reads, ?_, hnotx, hread⟩
  · rw [bulkReply, receive_frame, hbytes]
    rfl
  · rw [bulkReply, hhist, hsent]
    simp

/-- Settles O36: the reply is judged by `bulkStatus`; on `OK` the finish stores it with the sample taken after it. The write
that fails is that of O26. -/
theorem staleUpdateStoresOnlyTheWholeResponse : Obligations.StaleUpdateStoresOnlyTheWholeResponse := by
  refine ⟨fun s bytes ending later more hstale htakes hd => ?_, fun s hstale hfails => ?_⟩
  · have hf := State.fresh_eq_false hstale
    obtain ⟨offered, rest, htx⟩ := htakes
    have hans : s.env.afterNow.txAnswer (bulkRequest s) = .ok (min offered 8) :=
      Env.txAnswer_of_ok (e := s.env.afterNow) htx _
    obtain ⟨hstate, hret, hclock, hrx, reads, hhist, hnotx, hread⟩ := bulkReply_delivers hans hd
    have hfailure := bulkFailure_receivedFor bytes ending
    rw [← hret] at hfailure
    by_cases hok : bulkStatus bytes ending = .ok
    · rw [if_pos hok] at hfailure
      have hlen := length_of_bulkStatus_ok hok
      have hstamp : s.env.now ≤ (bulkReply s).1.env.now :=
        BitVec.le_trans (now_le_bulkReply_lastNow s) (Env.lastNow_le_now _)
      have hexec := exec_updateValues_stores hf hans hfailure
      generalize (bulkReply s).1 = r at *
      refine ⟨_, hexec, ?_, fun _ => hstamp, hrx, ?_, min offered 8, reads, ?_, hnotx, hread⟩
      · rw [← bulkStatus, hok, hstate]
        simp [List.take_of_length_le hlen.le, bulkRequest_eq]
      · simp [hclock]
      · simp [hhist, bulkRequest_eq]
    · rw [if_neg hok] at hfailure
      have hexec := exec_updateValues_rejects hf hans hfailure
      generalize (bulkReply s).1 = r at *
      refine ⟨_, hexec, ?_, fun h => absurd h hok, hrx, ?_, min offered 8, reads, ?_,
        hnotx, hread⟩
      · rw [← bulkStatus, hstate]
        simp [hok, bulkRequest_eq]
      · simp [hclock, hok]
      · simp [hhist, hok, bulkRequest_eq]
  · obtain ⟨hupdate, -⟩ := failedWriteEndsTheCommand.2 s hfails hstale
    obtain ⟨t, ht, hstate, -, hrx, hhist⟩ := hupdate
    exact ⟨t, ht, hstate, hrx, hhist⟩

end Sys2Proof.Machine

/-!
PROOFS of the statements of spec/60_exceptions.md. Each command ends with the code of its exchange or with one its own rule
raises, so its row of R223 holds what each shared exchange can return; only a read of the host buffer can stop a command.
-/

namespace Sys2Proof.Machine

/-! ## The rows of R223 -/

/-- R162: a command whose row has the four codes of a verified exchange may end as its exchange does. -/
theorem mayEndWith_verifiedExchange {i : Instr} (hok : mayEndWith i .ok = true)
    (htransport : mayEndWith i .transportError = true) (hrx : mayEndWith i .rxFail = true)
    (hverify : mayEndWith i .verifyError = true) (frame : List Byte) (s : State) :
    mayEndWith i (verifiedExchange frame s).2 = true := by
  obtain h | h | h | h := verifiedExchange_status frame s <;> rw [h]
  exacts [hok, htransport, hrx, hverify]

/-- R197: a command whose row has the three codes of an update may end as its update does. -/
theorem mayEndWith_updateValues {i : Instr} (hok : mayEndWith i .ok = true)
    (htransport : mayEndWith i .transportError = true) (hrx : mayEndWith i .rxFail = true) (s : State) :
    mayEndWith i (updateValues s).2.code = true := by
  obtain h | ⟨h | h, -⟩ := updateValues_status s <;> rw [h]
  exacts [hok, htransport, hrx]

theorem crc16Commit_mayEndWith {len : Half} {s : State} {c : Commit} (h : crc16Commit len s = .ok c) :
    mayEndWith (.crc16 len) c.status = true := by
  unfold crc16Commit at h
  split at h
  · split at h <;> cases h
    rfl
  · cases h
    rfl

theorem validateCommit_mayEndWith {len : Half} {s : State} {c : Commit} (h : validateCommit len s = .ok c) :
    mayEndWith (.validate len) c.status = true := by
  unfold validateCommit at h
  split at h
  · split at h
    · cases h
      rfl
    · split at h <;> cases h
      rfl
  · cases h
    rfl

theorem decodeCommit_mayEndWith {s : State} {c : Commit} (h : decodeCommit s = .ok c) :
    mayEndWith .decode c.status = true := by
  unfold decodeCommit at h
  split at h <;> cases h
  rfl

/-- R223: a command that completes ends with a code of its row. -/
theorem exec_mayEndWith {i : Instr} {s t : State} (h : exec i s = .next t) : mayEndWith i t.status = true := by
  cases i with
  | crc16 len =>
    obtain ⟨c, hc, rfl⟩ := complete_next (r := crc16Commit len s) h
    exact crc16Commit_mayEndWith hc
  | validate len =>
    obtain ⟨c, hc, rfl⟩ := complete_next (r := validateCommit len s) h
    exact validateCommit_mayEndWith hc
  | decode =>
    obtain ⟨c, hc, rfl⟩ := complete_next (r := decodeCommit s) h
    exact decodeCommit_mayEndWith hc
  | encode8 | encode4 => cases h; rfl
  | receive len timeout =>
    by_cases hl : len.toNat ≤ 32
    · rw [exec_receive hl] at h
      cases h
      obtain hc | hc | hc := receive_code len.toNat timeout s <;> simp [mayEndWith, hc]
    · rw [exec_receive_illegal (Nat.lt_of_not_le hl)] at h
      cases h
      rfl
  | sendRead fc reg count verify override addr =>
    cases verify with
    | true =>
      cases h
      exact mayEndWith_verifiedExchange rfl rfl rfl rfl _ s
    | false =>
      cases h
      show mayEndWith _ (sentStatus _) = true
      cases State.txAnswer _ _ <;> rfl
  | writeReg | setPowerAlarm =>
    cases h
    exact mayEndWith_verifiedExchange rfl rfl rfl rfl _ s
  | setAddress addr =>
    simp only [exec, execSetAddress] at h
    split_ifs at h <;> cases h
    · rw [State.finish_status, setAddressCommit, Commit.of_status]
      exact mayEndWith_verifiedExchange rfl rfl rfl rfl _ s
    · rfl
  | resetEnergy =>
    cases h
    obtain hc | hc | hc | hc := resetExchange_status s <;> simp [mayEndWith, hc]
  | updateValues =>
    cases h
    rw [State.finish_status, updateCommit_status]
    exact mayEndWith_updateValues rfl rfl rfl s
  | readVoltage | readCurrent | readPower | readEnergy | readFrequency | readPf | readAlarms | getPowerAlarm =>
    cases h
    simp only [State.finish_status, readCommit, alarmCommit, Commit.of_status]
    exact mayEndWith_updateValues rfl rfl rfl s

/-- R222: `finish` empties the latch of every command that completes. -/
theorem exec_latch {i : Instr} {s t : State} (h : exec i s = .next t) : t.latch = none := by
  obtain ⟨s', c, rfl, -⟩ := exec_next h
  rfl

/-- Settles O31: each command ends with a code of its row (`exec_mayEndWith`) and an empty latch. -/
theorem commandsEndWithTheirStatuses : Obligations.CommandsEndWithTheirStatuses :=
  ⟨fun _ _ _ h => ⟨exec_mayEndWith h, exec_latch h⟩, fun _ _ _ hl hd => ⟨_, runEngine_illegal hl hd, rfl, rfl⟩⟩

/-! ## Commands that cannot stop, and the idle block -/

/-- Settles O29: on each path of such a command its meaning is a finish. -/
theorem onlyHbufReadersCanStop : Obligations.OnlyHbufReadersCanStop := by
  intro i s hcrc hvalidate hdecode
  cases i with
  | crc16 len => exact absurd rfl (hcrc len)
  | validate len => exact absurd rfl (hvalidate len)
  | decode => exact absurd rfl hdecode
  | receive len timeout =>
    by_cases hl : len.toNat ≤ 32
    · exact ⟨_, exec_receive hl timeout s⟩
    · exact ⟨_, exec_receive_illegal (Nat.lt_of_not_le hl) timeout s⟩
  | sendRead fc reg count verify override addr => cases verify <;> exact ⟨_, rfl⟩
  | setAddress addr =>
    simp only [exec, execSetAddress]
    split <;> exact ⟨_, rfl⟩
  | encode8 | encode4 | writeReg | setPowerAlarm | resetEnergy | updateValues => exact ⟨_, rfl⟩
  | readVoltage | readCurrent | readPower | readEnergy | readFrequency | readPf | readAlarms | getPowerAlarm =>
    exact ⟨_, rfl⟩

/-- R235: an idle engine does nothing. -/
theorem runEngine_idle {s : State} (hl : s.latch = none) : runEngine s = .next s := by
  simp only [runEngine, hl]

/-- Settles O53: with no input left the step is the engine's. -/
theorem idleBlockKeepsItsState : Obligations.IdleBlockKeepsItsState := by
  intro s hinputs hl
  rw [step_of_no_input hinputs, runEngine_idle hl]

end Sys2Proof.Machine

/-!
PROOFS of the statements of spec/70_reset_and_hazards.md: what reset leaves, the RESET input, and the commands on the cache
while no snapshot has been stored. Without a snapshot the cache is not fresh, so every update makes the exchange; an
accessor does what the update does, and its `RESULT_VALID` is the `HAS_SNAP` it leaves.
-/

namespace Sys2Proof.Machine

/-! ## Before the first snapshot -/

/-- R197, R200, R201: a command on the cache leaves what UPDATE_VALUES leaves, but for `RESULT` and its flag; that flag is
`HAS_SNAP` for an accessor. -/
theorem exec_cacheCommand {i : Instr} (hi : i ∈ cacheCommands) (s : State) :
    ∃ u result valid, exec .updateValues s = .next u ∧
      exec i s = .next { u with result := result, resultValid := valid } ∧
      (i ≠ .updateValues → valid = u.hasSnap) := by
  obtain ⟨u, hupdate, hvolt, hcurrent, hpower, henergy, hfreq, hpf, halarms, halarm⟩ := accessorsReportTheSnapshot s
  simp only [cacheCommands, List.mem_cons, List.not_mem_nil, or_false] at hi
  rcases hi with rfl | rfl | rfl | rfl | rfl | rfl | rfl | rfl | rfl
  · exact ⟨u, u.result, u.resultValid, hupdate, hupdate, fun hne => absurd rfl hne⟩
  · exact ⟨u, _, _, hupdate, hvolt, fun _ => rfl⟩
  · exact ⟨u, _, _, hupdate, hcurrent, fun _ => rfl⟩
  · exact ⟨u, _, _, hupdate, hpower, fun _ => rfl⟩
  · exact ⟨u, _, _, hupdate, henergy, fun _ => rfl⟩
  · exact ⟨u, _, _, hupdate, hfreq, fun _ => rfl⟩
  · exact ⟨u, _, _, hupdate, hpf, fun _ => rfl⟩
  · exact ⟨u, _, _, hupdate, halarms, fun _ => rfl⟩
  · exact ⟨u, _, _, hupdate, halarm, fun _ => rfl⟩

/-- R197: UPDATE_VALUES over a stale cache makes the exchange, a clock sample and then the bulk request. -/
theorem exec_updateValues_stale_history {s u : State} (hf : s.fresh s.now = false) (h : exec .updateValues s = .next u) :
    ∃ answer events, u.env.history = s.env.history ++ .now s.env.now ::
      .txWrite (frame8 s.sessAddr 0x04 0x0000 10) answer :: events := by
  obtain ⟨answer, events, hhist, -⟩ := updateValues_events hf
  rw [exec_updateValues] at h
  cases h
  exact ⟨answer, events, hhist⟩

/-- Settles O40: without a snapshot the update is stale, and an accessor's flag is the `HAS_SNAP` it leaves. -/
theorem noDataBeforeTheFirstSnapshot : Obligations.NoDataBeforeTheFirstSnapshot := by
  intro i s t hi hs h
  obtain ⟨u, result, valid, hupdate, hexec, hvalid⟩ := exec_cacheCommand hi s
  have hhist := exec_updateValues_stale_history (State.fresh_eq_false (.inl hs)) hupdate
  rw [hexec] at h
  cases h
  exact ⟨fun hne hnone => (hvalid hne).trans hnone, hhist⟩

/-! ## Reset -/

/-- R253: the startup address, with the bounds of R27 written out. -/
theorem sanitize_eq (a : Byte) : sanitize a = if 0x01 ≤ a.toNat ∧ a.toNat ≤ 0xF8 then a else 0xF8 := by
  simp only [sanitize, isSessionAddr_iff, Config.defaultAddr]

/-- R22, R251: after reset neither group of measurement registers holds a value. -/
theorem State.reset_readReg_unwritten {n : Byte}
    (h : (6 ≤ n.toNat ∧ n.toNat ≤ 0x0C) ∨ (0x10 ≤ n.toNat ∧ n.toNat ≤ 0x16)) :
    State.reset.readReg n = .unwritten :=
  State.readReg_unwritten (h.imp (.intro rfl) (.intro rfl))

/-- Settles O47: `State.reset` holds the values of R22, no byte of the host buffer, and neither a snapshot nor a DECODE. -/
theorem resetLeavesTheResetValues : Obligations.ResetLeavesTheResetValues :=
  ⟨rfl, rfl, rfl, rfl, rfl, rfl, rfl, rfl, fun _ => State.reset_readReg_unwritten, fun _ => rfl, sanitize_eq⟩

/-- Settles O48: the step takes the RESET input away, and `assertReset` keeps the environment that is left. -/
theorem resetInputKeepsTheEnvironment : Obligations.ResetInputKeepsTheEnvironment := by
  intro s rest h
  rw [step_of_input h]
  rfl

end Sys2Proof.Machine
